-- ==== Sys2Proof/Word.lean ====
section
/-! DEFINITION. The machine's words: the 18-bit MachineWord, the 12-bit data address and the 16 bits in
which the program counter is held (10_state.md R20, R24; 30_encoding.md R68). -/

namespace Sys2Proof

/-- A MachineWord: "an 18-bit unsigned bit pattern" (00_scope.md R13). Bit 0 is the least significant (R8). -/
abbrev Word := BitVec 18

/-- A data address: every effective address is 12 bits (20_memory.md R45, 30_encoding.md R68). -/
abbrev Addr := BitVec 12

/-- The program counter's value. `W` is 12 or 16 (00_scope.md R6); the register is held in 16 bits and every
write reduces it modulo `2^W` (log entry 6). -/
abbrev PcVal := BitVec 16

end Sys2Proof
end

