-- ==== Sys2Proof/Machine/Alu.lean ====
section
/-! DEFINITION. The one's-complement ALU of 41_alu.md, and the signed reading of a word (00_scope.md R10), as pure
functions. There is no multiplier and no divider (R161). -/

namespace Sys2Proof.Machine

/-! ## Words as integers -/

/-- The sign of a word is bit 17 (41_alu.md R140). -/
def sign (w : Word) : Bool := w.getLsbD 17

/-- The integer a word stands for (00_scope.md R10). -/
def val (w : Word) : Int := if sign w then -((~~~w).toNat : Int) else (w.toNat : Int)

/-- The word of an integer from -131071 to 131071 (00_scope.md R10); never negative zero. -/
def oc (n : Int) : Word :=
  if 0 ≤ n then BitVec.ofNat 18 n.natAbs else 0o777777 - BitVec.ofNat 18 n.natAbs

/-! ## Addition (R141 to R149) -/

/-- R141: negative zero becomes positive zero. -/
def normalise (v : Word) : Word := if v = 0o777777 then 0 else v

/-- R142: the 19-bit sum, its carry re-entering at bit 0. -/
def ocAddRaw (a b : Word) : Word :=
  (a.zeroExtend 19 + b.zeroExtend 19).extractLsb' 0 18
    + ((a.zeroExtend 19 + b.zeroExtend 19).extractLsb' 18 1).zeroExtend 18

/-- R143: overflow from operand-sign agreement, judged on the raw result `r`. -/
def ovf (a b r : Word) : Bool := sign a == sign b && sign r != sign a

/-- R144: the sum and its overflow. -/
def ocAdd (a b : Word) : Word × Bool := (normalise (ocAddRaw a b), ovf a b (ocAddRaw a b))

/-- R145: the sum of `a` and the complement of `b`. -/
def ocSub (a b : Word) : Word × Bool := ocAdd a (~~~b)

/-- R149: the increment of idx and isp, which computes no overflow. -/
def ocInc (a : Word) : Word := normalise (ocAddRaw a 1)

/-! ## Rotates and shifts (R154 to R158) -/

/-- `f` applied `n` times: the shift rules give one place and apply it n times. -/
def times {α : Type} (f : α → α) : Nat → α → α
  | 0, a => a
  | n + 1, a => times f n (f a)

/-- R154: rotate one register left. -/
def rotl18 (a : Word) (n : Nat) : Word := a.rotateLeft n

/-- R154: rotate one register right. -/
def rotr18 (a : Word) (n : Nat) : Word := a.rotateRight n

/-- `cat(AC, IO)`: the two registers chained, AC in the high half (R154). -/
def cat36 (ac io : Word) : BitVec 36 := ac ++ io

/-- The AC half of a chained value. -/
def acHalf (c : BitVec 36) : Word := c.extractLsb' 18 18

/-- The IO half of a chained value. -/
def ioHalf (c : BitVec 36) : Word := c.extractLsb' 0 18

/-- R154: rotate the chained registers left. -/
def rotl36 (c : BitVec 36) (n : Nat) : BitVec 36 := c.rotateLeft n

/-- R154: rotate the chained registers right. -/
def rotr36 (c : BitVec 36) (n : Nat) : BitVec 36 := c.rotateRight n

/-- R155: one place left; the sign stays and enters at bit 0, bit 16 is lost. -/
def sal1 (a : Word) : Word := a.extractLsb' 17 1 ++ a.extractLsb' 0 16 ++ a.extractLsb' 17 1

/-- R155. -/
def sal (a : Word) (n : Nat) : Word := times sal1 n a

/-- R156: one place right; the sign stays and is copied into bit 16, bit 0 is lost. -/
def sar1 (a : Word) : Word := a.extractLsb' 17 1 ++ a.extractLsb' 17 1 ++ a.extractLsb' 1 16

/-- R156. -/
def sar (a : Word) (n : Nat) : Word := times sar1 n a

/-- R157: the chained registers one place left. AC[16] is lost, IO[17] moves into AC[0], IO[0] receives the sign. -/
def scl1 (p : Word × Word) : Word × Word :=
  (p.1.extractLsb' 17 1 ++ p.1.extractLsb' 0 16 ++ p.2.extractLsb' 17 1,
   p.2.extractLsb' 0 17 ++ p.1.extractLsb' 17 1)

/-- R158: the chained registers one place right. AC[0] moves into IO[17], IO[0] is lost. -/
def scr1 (p : Word × Word) : Word × Word :=
  (p.1.extractLsb' 17 1 ++ p.1.extractLsb' 17 1 ++ p.1.extractLsb' 1 16,
   p.1.extractLsb' 0 1 ++ p.2.extractLsb' 1 17)

end Sys2Proof.Machine
end

