-- ==== Sys2Proof/Syntax.lean ====
section
/-! DEFINITION. The instructions: one constructor for each row of spec/opcode_table.json, the illegal rows among
them, so that the decoder is total on all words (30_encoding.md R87). A constructor keeps every bit of its word that
the row leaves free, also those an instruction ignores (`cal`'s Y, a shift's count mask, `iot`'s low bits), because a
fault records the whole word (60_exceptions.md R286). -/

namespace Sys2Proof

/-- The five condition bits of a skip-group word (30_encoding.md R81): za bit 6, pa bit 7, ma bit 8, zo bit 9,
pi bit 10. -/
structure Conds where
  za : Bool := false
  pa : Bool := false
  ma : Bool := false
  zo : Bool := false
  pi : Bool := false
deriving DecidableEq, Repr

/-- One instruction. In a memory-reference constructor `i` is the indirect bit and `y` the address field
(30_encoding.md R69). -/
inductive Instr where
  /-- R180: bitwise AND into AC. -/
  | and (i : Bool) (y : Addr)
  /-- R182: bitwise inclusive OR into AC. -/
  | ior (i : Bool) (y : Addr)
  /-- R181: bitwise exclusive OR into AC. -/
  | xor (i : Bool) (y : Addr)
  /-- R200: execute the word at EA in place. -/
  | xct (i : Bool) (y : Addr)
  /-- R183: load AC. -/
  | lac (i : Bool) (y : Addr)
  /-- R184: load IO. -/
  | lio (i : Bool) (y : Addr)
  /-- R185: deposit AC. -/
  | dac (i : Bool) (y : Addr)
  /-- R186: deposit address part. -/
  | dap (i : Bool) (y : Addr)
  /-- R187: deposit instruction part. -/
  | dip (i : Bool) (y : Addr)
  /-- R188: deposit IO. -/
  | dio (i : Bool) (y : Addr)
  /-- R189: deposit zero in memory. -/
  | dzm (i : Bool) (y : Addr)
  /-- R165: one's-complement add to AC. -/
  | add (i : Bool) (y : Addr)
  /-- R166: one's-complement subtract from AC. -/
  | sub (i : Bool) (y : Addr)
  /-- R169: index (increment memory). -/
  | idx (i : Bool) (y : Addr)
  /-- R170: index and skip if positive. -/
  | isp (i : Bool) (y : Addr)
  /-- R206: skip if AC differs from memory. -/
  | sad (i : Bool) (y : Addr)
  /-- R207: skip if AC is the same as memory. -/
  | sas (i : Bool) (y : Addr)
  /-- R167: not implemented: faults after its EA chain. -/
  | mul (i : Bool) (y : Addr)
  /-- R168: not implemented: faults after its EA chain. -/
  | div (i : Bool) (y : Addr)
  /-- R202: jump. -/
  | jmp (i : Bool) (y : Addr)
  /-- R203: jump and save PC. -/
  | jsp (i : Bool) (y : Addr)
  /-- R204: call through the fixed cell. `y` is ignored. -/
  | cal (y : Addr)
  /-- R205: jump and deposit AC. -/
  | jda (y : Addr)
  /-- R215: load AC with the 13-bit immediate. -/
  | law (n : BitVec 13)
  /-- R221: rotate AC left by the number of 1 bits in `m`. -/
  | ral (m : BitVec 9)
  /-- R222: rotate IO left by the number of 1 bits in `m`. -/
  | ril (m : BitVec 9)
  /-- R223: rotate AC:IO combined left by the number of 1 bits in `m`. -/
  | rcl (m : BitVec 9)
  /-- R224: shift AC left by the number of 1 bits in `m`. -/
  | sal (m : BitVec 9)
  /-- R225: shift IO left by the number of 1 bits in `m`. -/
  | sil (m : BitVec 9)
  /-- R226: shift AC:IO combined left by the number of 1 bits in `m`. -/
  | scl (m : BitVec 9)
  /-- R227: rotate AC right by the number of 1 bits in `m`. -/
  | rar (m : BitVec 9)
  /-- R228: rotate IO right by the number of 1 bits in `m`. -/
  | rir (m : BitVec 9)
  /-- R229: rotate AC:IO combined right by the number of 1 bits in `m`. -/
  | rcr (m : BitVec 9)
  /-- R230: shift AC right by the number of 1 bits in `m`. -/
  | sar (m : BitVec 9)
  /-- R231: shift IO right by the number of 1 bits in `m`. -/
  | sir (m : BitVec 9)
  /-- R232: shift AC:IO combined right by the number of 1 bits in `m`. -/
  | scr (m : BitVec 9)
  /-- R241: skip on AC zero. -/
  | sza
  /-- R241: skip on AC not zero. -/
  | snza
  /-- R242: skip on AC non-negative. -/
  | spa
  /-- R242: skip on AC not non-negative. -/
  | snpa
  /-- R244: skip on AC negative. -/
  | sma
  /-- R244: skip on AC not negative. -/
  | snma
  /-- R243: skip on overflow clear, and clear it. -/
  | szo
  /-- R243: skip on overflow set, and clear it. -/
  | snzo
  /-- R245: skip on IO non-negative. -/
  | spi
  /-- R245: skip on IO not non-negative. -/
  | snpi
  /-- R248, R240: skip on the OR of the listed conditions; `k` is the sense-switch index, `f` the program-flag index. -/
  | skp (c : Conds) (k f : BitVec 3)
  /-- R248, R240: as `skp`, with the outcome negated. -/
  | skpn (c : Conds) (k f : BitVec 3)
  /-- R246: skip on sense switch zero. -/
  | szs (k : BitVec 3)
  /-- R247: skip on program flag zero. -/
  | szf (f : BitVec 3)
  /-- R261: no operation. -/
  | nop
  /-- R262: clear AC. -/
  | cla
  /-- R263: clear IO. -/
  | cli
  /-- R264: complement AC. -/
  | cma
  /-- R265: load AC with the return value. -/
  | lap
  /-- R266: halt. -/
  | hlt
  /-- R267: not implemented. -/
  | lat
  /-- R268: set program flag. -/
  | stf (k : BitVec 3)
  /-- R269: clear program flag. -/
  | clf (k : BitVec 3)
  /-- R280: not implemented; the low 13 bits carry no meaning. -/
  | iot (n : BitVec 13)
  /-- R281: illegal primary opcode 0o00. -/
  | illegalOp00 (n : BitVec 13)
  /-- R281: illegal primary opcode 0o12. -/
  | illegalOp12 (n : BitVec 13)
  /-- R281: illegal primary opcode 0o14. -/
  | illegalOp14 (n : BitVec 13)
  /-- R281: illegal primary opcode 0o36. -/
  | illegalOp36 (n : BitVec 13)
  /-- R281: illegal primary opcode 0o74. -/
  | illegalOp74 (n : BitVec 13)
  /-- R282 (1): a shift word with r = 0; `d` is bit 12, `k` bit 11, `m` the count mask. -/
  | illegalShift (d k : Bool) (m : BitVec 9)
  /-- R282 (2): a skip word with bit 11 set; `n` is bit 12, `x` bits 10..0. -/
  | illegalSkip (n : Bool) (x : BitVec 11)
  /-- R282 (3): an operate word with bit 12 set. -/
  | illegalOperateBit (m : BitVec 12)
  /-- R282 (3): an operate word whose micro-op field is not in the table of 30_encoding.md R83. -/
  | illegalOperateField (m : BitVec 12)
deriving DecidableEq, Repr

end Sys2Proof
end

