-- ==== Sys2Proof/WellFormed.lean ====
section
/-! DEFINITION. Which instructions are written in the ONE spelling the decoder gives their word. Only six
constructors overlap with others on some operands: the general skip words `skp` and `skpn` (a named form, `szs` or
`szf` may spell the same word, 47_skip.md R248 and the notes of spec/opcode_table.json), `szs` and `szf` with index 0,
`clf` with index 0 (the `nop` word, 48_operate.md R261), and the illegal operate word, whose field must not be in the
table of 30_encoding.md R83. The choice of spelling is log entry 12. An ill-formed term still has its meaning: only
its spelling is not the decoder's. -/

namespace Sys2Proof

/-- No condition bit set. -/
def Conds.isNone (c : Conds) : Bool := !c.za && !c.pa && !c.ma && !c.zo && !c.pi

/-- Exactly one condition bit set: the words of the named skips (30_encoding.md R95). -/
def Conds.isSingle (c : Conds) : Bool :=
  c.za.toNat + c.pa.toNat + c.ma.toNat + c.zo.toNat + c.pi.toNat == 1

/-- The general word is no named skip's word. -/
def skpNotNamed (c : Conds) (k f : BitVec 3) : Bool := !(k == 0 && f == 0 && c.isSingle)

/-- The un-negated general word is no `szs` or `szf` word with an index of 1 to 7. -/
def skpNotIndexOnly (c : Conds) (k f : BitVec 3) : Bool :=
  !(c.isNone && ((k == 0 && f != 0) || (k != 0 && f == 0)))

/-- An index of 1 to 7: with 0 the word is spelled otherwise. -/
def indexNotZero (k : BitVec 3) : Bool := k != 0

/-- The micro-op fields of the table of 30_encoding.md R83. -/
def knownMicroOp (m : BitVec 12) : Bool :=
  m.toNat < 0o20 || m == 0o0200 || m == 0o0300 || m == 0o0400 || m == 0o1000 || m == 0o2200 || m == 0o4000

/-- The instruction is the decoder's spelling of its word. -/
def Instr.wf : Instr → Bool
  | .skp c k f => skpNotNamed c k f && skpNotIndexOnly c k f
  | .skpn c k f => skpNotNamed c k f
  | .szs k => indexNotZero k
  | .szf f => indexNotZero f
  | .clf k => indexNotZero k
  | .illegalOperateField m => !knownMicroOp m
  | .and _ _ | .ior _ _ | .xor _ _ | .xct _ _ | .lac _ _ | .lio _ _ | .dac _ _ | .dap _ _ | .dip _ _ | .dio _ _
  | .dzm _ _ | .add _ _ | .sub _ _ | .idx _ _ | .isp _ _ | .sad _ _ | .sas _ _ | .mul _ _ | .div _ _ | .jmp _ _
  | .jsp _ _ | .cal _ | .jda _ | .law _ | .ral _ | .ril _ | .rcl _ | .sal _ | .sil _ | .scl _ | .rar _ | .rir _
  | .rcr _ | .sar _ | .sir _ | .scr _ | .sza | .snza | .spa | .snpa | .sma | .snma | .szo | .snzo | .spi | .snpi
  | .nop | .cla | .cli | .cma | .lap | .hlt | .lat | .stf _ | .iot _ | .illegalOp00 _ | .illegalOp12 _
  | .illegalOp14 _ | .illegalOp36 _ | .illegalOp74 _ | .illegalShift _ _ _ | .illegalSkip _ _
  | .illegalOperateBit _ => true

end Sys2Proof
end

