-- ==== Sys2Proof/Decode.lean ====
section
/-! DEFINITION. The decoder, total on all 2^18 words (30_encoding.md R87, R88), and after it the encoder, written
from the format tables R69 to R75. Every word has an instruction: the illegal words decode, by name, to the
constructors of the table's illegal rows, whose meanings are the faults of R84 and R85. Numeric values other than
0o64, 0o66, 0o70 and 0o76 are the spec's own (R80, decision D2). -/

namespace Sys2Proof

/-! ## Fields of a word (R66 to R68) -/

/-- The primary opcode: `op = instr[17:12] & 0o76` (R66). -/
def primaryOp (w : Word) : BitVec 6 := w.extractLsb' 12 6 &&& 0o76

/-- Bit 12, the indirect bit `i` of R67. -/
def bit12 (w : Word) : Bool := w.getLsbD 12

/-- The address field `Y = instr[11:0]` (R68). -/
def low12 (w : Word) : Addr := w.extractLsb' 0 12

/-- The 13 low bits: law's immediate (R71). -/
def low13 (w : Word) : BitVec 13 := w.extractLsb' 0 13

/-- The shift count mask `instr[8:0]` (R72). -/
def low9 (w : Word) : BitVec 9 := w.extractLsb' 0 9

/-- The condition bits of a skip word (R81). -/
def condsOf (w : Word) : Conds where
  za := w.getLsbD 6
  pa := w.getLsbD 7
  ma := w.getLsbD 8
  zo := w.getLsbD 9
  pi := w.getLsbD 10

/-- The sense-switch index `s = instr[5:3]` (R79). -/
def switchIndex (w : Word) : BitVec 3 := w.extractLsb' 3 3

/-- The program-flag index `f = instr[2:0]` (R79). -/
def flagIndex (w : Word) : BitVec 3 := w.extractLsb' 0 3

/-! ## The groups with sub-operations -/

/-- The shift group, by `instr[17:9]` (R82); r = 0 is illegal (R85). -/
def decodeShift (w : Word) : Instr :=
  match (w.extractLsb' 9 9).toNat with
  | 0o661 => .ral (low9 w)
  | 0o662 => .ril (low9 w)
  | 0o663 => .rcl (low9 w)
  | 0o665 => .sal (low9 w)
  | 0o666 => .sil (low9 w)
  | 0o667 => .scl (low9 w)
  | 0o671 => .rar (low9 w)
  | 0o672 => .rir (low9 w)
  | 0o673 => .rcr (low9 w)
  | 0o675 => .sar (low9 w)
  | 0o676 => .sir (low9 w)
  | 0o677 => .scr (low9 w)
  | _ => .illegalShift (bit12 w) (w.getLsbD 11) (low9 w)

/-- A skip word without indices: the named form where exactly one condition is set (R81, R95), else the general
one. -/
def decodeNamedSkip (n : Bool) (c : Conds) : Instr :=
  match n, c with
  | false, ⟨true, false, false, false, false⟩ => .sza
  | true, ⟨true, false, false, false, false⟩ => .snza
  | false, ⟨false, true, false, false, false⟩ => .spa
  | true, ⟨false, true, false, false, false⟩ => .snpa
  | false, ⟨false, false, true, false, false⟩ => .sma
  | true, ⟨false, false, true, false, false⟩ => .snma
  | false, ⟨false, false, false, true, false⟩ => .szo
  | true, ⟨false, false, false, true, false⟩ => .snzo
  | false, ⟨false, false, false, false, true⟩ => .spi
  | true, ⟨false, false, false, false, true⟩ => .snpi
  | false, c => .skp c 0 0
  | true, c => .skpn c 0 0

/-- A skip word with bit 11 clear, in its one spelling (log entry 12). -/
def decodeSkip (n : Bool) (c : Conds) (k f : BitVec 3) : Instr :=
  if k = 0 ∧ f = 0 then decodeNamedSkip n c
  else if n = true then .skpn c k f
  else if c.isNone = true ∧ f = 0 then .szs k
  else if c.isNone = true ∧ k = 0 then .szf f
  else .skp c k f

/-- The operate group with bit 12 clear: the micro-op field is matched as a whole (R83, 48_operate.md R260). -/
def decodeOperate (m : BitVec 12) : Instr :=
  if m = 0 then .nop
  else if m.extractLsb' 3 9 = 0 then .clf (m.extractLsb' 0 3)
  else if m.extractLsb' 3 9 = 1 then .stf (m.extractLsb' 0 3)
  else
    match m.toNat with
    | 0o0200 => .cla
    | 0o0300 => .lap
    | 0o0400 => .hlt
    | 0o1000 => .cma
    | 0o2200 => .lat
    | 0o4000 => .cli
    | _ => .illegalOperateField m

/-- The decoder (R88), on the primary opcode map R80. -/
def decode (w : Word) : Instr :=
  match (primaryOp w).toNat with
  | 0o02 => .and (bit12 w) (low12 w)
  | 0o04 => .ior (bit12 w) (low12 w)
  | 0o06 => .xor (bit12 w) (low12 w)
  | 0o10 => .xct (bit12 w) (low12 w)
  | 0o12 => .illegalOp12 (low13 w)
  | 0o14 => .illegalOp14 (low13 w)
  | 0o16 => if bit12 w then .jda (low12 w) else .cal (low12 w)
  | 0o20 => .lac (bit12 w) (low12 w)
  | 0o22 => .lio (bit12 w) (low12 w)
  | 0o24 => .dac (bit12 w) (low12 w)
  | 0o26 => .dap (bit12 w) (low12 w)
  | 0o30 => .dip (bit12 w) (low12 w)
  | 0o32 => .dio (bit12 w) (low12 w)
  | 0o34 => .dzm (bit12 w) (low12 w)
  | 0o36 => .illegalOp36 (low13 w)
  | 0o40 => .add (bit12 w) (low12 w)
  | 0o42 => .sub (bit12 w) (low12 w)
  | 0o44 => .idx (bit12 w) (low12 w)
  | 0o46 => .isp (bit12 w) (low12 w)
  | 0o50 => .sad (bit12 w) (low12 w)
  | 0o52 => .sas (bit12 w) (low12 w)
  | 0o54 => .mul (bit12 w) (low12 w)
  | 0o56 => .div (bit12 w) (low12 w)
  | 0o60 => .jmp (bit12 w) (low12 w)
  | 0o62 => .jsp (bit12 w) (low12 w)
  | 0o64 =>
    if w.getLsbD 11 then .illegalSkip (bit12 w) (w.extractLsb' 0 11)
    else decodeSkip (bit12 w) (condsOf w) (switchIndex w) (flagIndex w)
  | 0o66 => decodeShift w
  | 0o70 => .law (low13 w)
  | 0o72 => .iot (low13 w)
  | 0o74 => .illegalOp74 (low13 w)
  | 0o76 => if bit12 w then .illegalOperateBit (low12 w) else decodeOperate (low12 w)
  | _ => .illegalOp00 (low13 w)

/-! ## The encoder -/

/-- The memory-reference format (R69): bits 17..13 hold `op >> 1`, bit 12 the indirect bit, bits 11..0 Y. -/
def memWord (op : BitVec 6) (i : Bool) (y : Addr) : Word := op.extractLsb' 1 5 ++ BitVec.ofBool i ++ y

/-- A word of 13 free bits under a primary opcode: law (R71), iot (R75) and the illegal opcodes (R84). -/
def wideWord (op : BitVec 6) (n : BitVec 13) : Word := op.extractLsb' 1 5 ++ n

/-- The shift format (R72, R82): bits 17..9 the sub-operation, bits 8..0 the count mask. -/
def shiftWord (sub m : BitVec 9) : Word := sub ++ m

/-- The skip format (R73): bits 17..13 are 0o32, bit 12 n, bit 11 zero, bits 10..6 the conditions, then s and f. -/
def skipWord (n : Bool) (c : Conds) (k f : BitVec 3) : Word :=
  0o32#5 ++ BitVec.ofBool n ++ 0#1 ++ BitVec.ofBool c.pi ++ BitVec.ofBool c.zo ++ BitVec.ofBool c.ma
    ++ BitVec.ofBool c.pa ++ BitVec.ofBool c.za ++ k ++ f

/-- The operate format (R74): bits 17..13 are 0o37, bit 12 zero, bits 11..0 the micro-op field. -/
def operateWord (m : BitVec 12) : Word := 0o37#5 ++ 0#1 ++ m

/-- The word of an instruction. -/
def encode : Instr → Word
  | .and i y => memWord 0o02 i y
  | .ior i y => memWord 0o04 i y
  | .xor i y => memWord 0o06 i y
  | .xct i y => memWord 0o10 i y
  | .lac i y => memWord 0o20 i y
  | .lio i y => memWord 0o22 i y
  | .dac i y => memWord 0o24 i y
  | .dap i y => memWord 0o26 i y
  | .dip i y => memWord 0o30 i y
  | .dio i y => memWord 0o32 i y
  | .dzm i y => memWord 0o34 i y
  | .add i y => memWord 0o40 i y
  | .sub i y => memWord 0o42 i y
  | .idx i y => memWord 0o44 i y
  | .isp i y => memWord 0o46 i y
  | .sad i y => memWord 0o50 i y
  | .sas i y => memWord 0o52 i y
  | .mul i y => memWord 0o54 i y
  | .div i y => memWord 0o56 i y
  | .jmp i y => memWord 0o60 i y
  | .jsp i y => memWord 0o62 i y
  | .cal y => memWord 0o16 false y
  | .jda y => memWord 0o16 true y
  | .law n => wideWord 0o70 n
  | .ral m => shiftWord 0o661 m
  | .ril m => shiftWord 0o662 m
  | .rcl m => shiftWord 0o663 m
  | .sal m => shiftWord 0o665 m
  | .sil m => shiftWord 0o666 m
  | .scl m => shiftWord 0o667 m
  | .rar m => shiftWord 0o671 m
  | .rir m => shiftWord 0o672 m
  | .rcr m => shiftWord 0o673 m
  | .sar m => shiftWord 0o675 m
  | .sir m => shiftWord 0o676 m
  | .scr m => shiftWord 0o677 m
  | .sza => skipWord false { za := true } 0 0
  | .snza => skipWord true { za := true } 0 0
  | .spa => skipWord false { pa := true } 0 0
  | .snpa => skipWord true { pa := true } 0 0
  | .sma => skipWord false { ma := true } 0 0
  | .snma => skipWord true { ma := true } 0 0
  | .szo => skipWord false { zo := true } 0 0
  | .snzo => skipWord true { zo := true } 0 0
  | .spi => skipWord false { pi := true } 0 0
  | .snpi => skipWord true { pi := true } 0 0
  | .skp c k f => skipWord false c k f
  | .skpn c k f => skipWord true c k f
  | .szs k => skipWord false {} k 0
  | .szf f => skipWord false {} 0 f
  | .nop => operateWord 0
  | .cla => operateWord 0o0200
  | .cli => operateWord 0o4000
  | .cma => operateWord 0o1000
  | .lap => operateWord 0o0300
  | .hlt => operateWord 0o0400
  | .lat => operateWord 0o2200
  | .stf k => operateWord (0o001#9 ++ k)
  | .clf k => operateWord (0o000#9 ++ k)
  | .iot n => wideWord 0o72 n
  | .illegalOp00 n => wideWord 0o00 n
  | .illegalOp12 n => wideWord 0o12 n
  | .illegalOp14 n => wideWord 0o14 n
  | .illegalOp36 n => wideWord 0o36 n
  | .illegalOp74 n => wideWord 0o74 n
  | .illegalShift d k m => 0o33#5 ++ BitVec.ofBool d ++ BitVec.ofBool k ++ 0#2 ++ m
  | .illegalSkip n x => 0o32#5 ++ BitVec.ofBool n ++ 1#1 ++ x
  | .illegalOperateBit m => 0o37#5 ++ 1#1 ++ m
  | .illegalOperateField m => operateWord m

/-- The instruction the decoder reads from a table word. An instruction is one word (R65), so `nbits` adds nothing:
the number is the word, and a number of more than 18 bits is no word of this machine. -/
def decodeTableWord (_nbits w : Nat) : Option Instr :=
  if w < 2 ^ 18 then some (decode (BitVec.ofNat 18 w)) else none

end Sys2Proof
end

