-- ==== Sys2Proof/Config.lean ====
section
/-! DEFINITION. The implementation parameters of 00_scope.md R5 as plain data, and the six-flag record that the
program flags and the sense switches share. No value here is opaque: the spec closes every case and names a
default for each decision parameter. The parameters an instruction reads while it runs are the fields of
`Config`, which the state carries unchanged (10_state.md R37, log entry 2). -/

namespace Sys2Proof

/-- `P_MEM_WORDS` (S): 4096, 8192, 16384 or 32768 words of core memory (00_scope.md R5). -/
inductive MemSize where
  | w4096
  | w8192
  | w16384
  | w32768
deriving DecidableEq, Repr

/-- The number of words a memory size stands for. -/
def MemSize.words : MemSize → Nat
  | .w4096 => 4096
  | .w8192 => 8192
  | .w16384 => 16384
  | .w32768 => 32768

/-- `P_INDIRECT`: the two indirect-chain semantics (40_execution_cycle.md R124 and R125). -/
inductive IndirectMode where
  | source
  | pdp1
deriving DecidableEq, Repr

/-- `P_LAW_EXEC`: the two execution meanings of `law` (45_law.md R215). -/
inductive LawExec where
  | sext13
  | fault
deriving DecidableEq, Repr

/-- `P_DIP_MASK`: the bits `dip` replaces, 0o760000 (bits 17..13) or 0o770000 (43_memref_logic_transfer.md R187). -/
inductive DipMask where
  | high5
  | high6
deriving DecidableEq, Repr

/-- The mask a setting of `P_DIP_MASK` stands for. -/
def DipMask.word : DipMask → Word
  | .high5 => 0o760000
  | .high6 => 0o770000

/-- Six one-bit flags numbered 1 to 6: the program flags (10_state.md R28) and the sense switches (R29). -/
structure Six where
  f1 : Bool := false
  f2 : Bool := false
  f3 : Bool := false
  f4 : Bool := false
  f5 : Bool := false
  f6 : Bool := false
deriving DecidableEq, Repr

/-- The decision parameters and the memory size of 00_scope.md R5. -/
structure Config where
  /-- `P_MEM_WORDS`. -/
  memSize  : MemSize
  /-- `P_OV_STICKY`: an add or sub without overflow leaves OV alone (41_alu.md R146). -/
  ovSticky : Bool
  /-- `P_INDIRECT`. -/
  indirect : IndirectMode
  /-- `P_LAW_EXEC`. -/
  lawExec  : LawExec
  /-- `P_DIP_MASK`. -/
  dipMask  : DipMask
  /-- `P_CAL_BASE`: the fixed cell `cal` writes (44_memref_control.md R204). -/
  calBase  : Addr
deriving DecidableEq, Repr

/-- The defaults of 00_scope.md R5. DESIGN CHOICE (log entry 5), unsafe: the table gives `P_MEM_WORDS` no default;
4096 is the size the spec's own vectors use (95_test_vectors.md §2). -/
def Config.default : Config where
  memSize  := .w4096
  ovSticky := true
  indirect := .source
  lawExec  := .sext13
  dipMask  := .high5
  calBase  := 0o100

end Sys2Proof
end

