-- ==== Sys2Proof/Machine/State.lean ====
section
/-! DEFINITION. The state vector of 10_state.md R20 as plain data, the reasons a step can end without a next
state, and the state after construction (R36). -/

namespace Sys2Proof.Machine

/-- `RUN`: "states are (Running, Halted)" (10_state.md R31). -/
inductive Run where
  | running
  | halted
deriving DecidableEq, Repr

/-- One listed word of core memory: its word address and its 18 bits. Memory "has no bytes" (20_memory.md R46), so
the cell holds a word where a byte-addressed machine's cell holds a byte (log entry 1). -/
abbrev Cell := Nat × Word

/-- Core memory `M` (10_state.md R34): the listed words, addresses strictly rising, none equal to what an unlisted
address reads as. -/
abbrev Memory := List Cell

/-- What an address with no entry reads as: `L_MEM`, whose reference value is 0 (10_state.md R36). DESIGN CHOICE
(log entry 4), unsafe: the source gives no value. -/
def Memory.unlisted : Word := 0

/-- The state vector (10_state.md R20), and the configuration the machine was built with, which no step changes
(R37, log entry 2). -/
structure State where
  /-- `AC`, the accumulator (R21). -/
  ac  : Word
  /-- `IO`, the input-output register (R22). -/
  io  : Word
  /-- `PC` (R24), below `2^W`. -/
  pc  : PcVal
  /-- `OV`, the overflow flag (R27). -/
  ov  : Bool
  /-- `PF[1..6]`, the program flags (R28). -/
  pf  : Six
  /-- `SS[1..6]`, the sense switches (R29). -/
  ss  : Six
  /-- `EXT`, the extend-mode flag (R30). -/
  ext : Bool
  /-- `RUN`, the running flag (R31). -/
  run : Run
  /-- `M[0..S-1]`, core memory (R34). -/
  mem : Memory
  /-- The construction parameters that instructions read (00_scope.md R5). -/
  cfg : Config
deriving DecidableEq, Repr

/-- Why a step has no next state. The first four are the Fault outcome of 60_exceptions.md R286 and R287: `info` is
the recorded word (the PC for a fetch fault) and `left` the state "as it was when the fault was raised" (log entry
10). The last two are the Hang outcome (40_execution_cycle.md R130): the step never completes, so they carry no state
(log entry 8). -/
inductive Fault where
  /-- R281: raised by the five illegal primary opcodes. Safe: the spec names this fault. -/
  | illegalOpcode (info : Word) (left : State)
  /-- R282: raised by a shift word with r = 0, a skip word with bit 11 set, an operate word with bit 12 set or an
  unknown micro-op field. Safe: the spec names this fault. -/
  | illegalSubop (info : Word) (left : State)
  /-- R86: raised by mul and div after their EA chain, by iot, by lat, and by law when `P_LAW_EXEC = FAULT`. Safe:
  the spec names this fault. -/
  | unimplemented (info : Word) (left : State)
  /-- R122: raised by a fetch in Running with PC at or above S. Safe: the spec names this fault. -/
  | fetchOutOfRange (info : PcVal) (left : State)
  /-- R126: raised by a memory-reference instruction whose indirect chain never ends. Safe: the machine has no next
  state there, and neither has the model. -/
  | hangIndirectCycle
  /-- R201: raised by an xct whose nesting never reaches another instruction. Safe, as for the indirect cycle. -/
  | hangXctCycle
deriving DecidableEq, Repr

/-- A meaning that is missing. No arm of `exec` answers it: every instruction of the table has its meaning. -/
inductive Refusal where
  /-- Raised by an arm of `exec` for an instruction without a meaning. Safe. -/
  | notModelled (mnemonic : String)
deriving DecidableEq, Repr

/-- The launch state of 10_state.md R36 with every launch input at its reference value, an empty tape, S = 4096,
extend mode off and all switches off. RUN and PC are the source's. DESIGN CHOICE, unsafe: AC, IO, OV and PF (log
entry 3), memory (log entry 4), the configuration (log entry 5). `Launch.start` gives every other launch. -/
def State.reset : State where
  ac  := 0
  io  := 0
  pc  := 0
  ov  := false
  pf  := {}
  ss  := {}
  ext := false
  run := .running
  mem := []
  cfg := Config.default

end Sys2Proof.Machine
end

