-- ==== Sys2Proof/Machine/Ops.lean ====
section
/-! DEFINITION. The named operations over memory and registers that every meaning uses: the memory port
(20_memory.md R47, R48), the register writes, the program-counter primitives (40_execution_cycle.md R128, R129), the
return value (10_state.md R33), the fetch (R121, R122), and raising a fault (60_exceptions.md R287). -/

namespace Sys2Proof.Machine

/-- What a meaning answers. -/
abbrev Result := Host.Outcome State Fault Refusal

/-! ## Core memory -/

/-- The word at an address: the first entry of that address, or what an unlisted address reads as. -/
def Memory.read : Memory → Nat → Word
  | [], _ => Memory.unlisted
  | (k, v) :: r, a => if k = a then v else Memory.read r a

/-- The memory without an entry for the address. -/
def Memory.erase : Memory → Nat → Memory
  | [], _ => []
  | (k, v) :: r, a => if k = a then Memory.erase r a else (k, v) :: Memory.erase r a

/-- An entry put in its place among rising addresses. -/
def Memory.put : Memory → Nat → Word → Memory
  | [], a, v => [(a, v)]
  | (k, w) :: r, a, v => if a < k then (a, v) :: (k, w) :: r else (k, w) :: Memory.put r a v

/-- The memory with one word written; a word equal to the unlisted value has no entry. -/
def Memory.write (m : Memory) (a : Nat) (v : Word) : Memory :=
  if v = Memory.unlisted then m.erase a else (m.erase a).put a v

/-- The canonical form: addresses strictly rising, no entry equal to what an unlisted address reads as. -/
def Memory.wf : Memory → Bool
  | [] => true
  | (k, v) :: r => v != Memory.unlisted && r.all (fun c => decide (k < c.1)) && Memory.wf r

/-- Every listed address is below the size. -/
def Memory.within (m : Memory) (size : Nat) : Bool := m.all (fun c => decide (c.1 < size))

/-- S, the number of words of core memory (00_scope.md R5). -/
def State.size (s : State) : Nat := s.cfg.memSize.words

/-- `MemRead(a, 1)` at a data address (20_memory.md R47): `a < 4096 <= S`, so the read always meets its
precondition. -/
def State.memRead (s : State) (a : Addr) : Word := s.mem.read a.toNat

/-- `MemWrite(a, 1, v)` (20_memory.md R48). -/
def State.memWrite (s : State) (a : Addr) (v : Word) : State := { s with mem := s.mem.write a.toNat v }

/-! ## Registers -/

/-- `AC <- v`. -/
def State.setAc (s : State) (v : Word) : State := { s with ac := v }

/-- `IO <- v`. -/
def State.setIo (s : State) (v : Word) : State := { s with io := v }

/-- `OV <- b`. -/
def State.setOv (s : State) (b : Bool) : State := { s with ov := b }

/-- `PF[1..6] <- p`. -/
def State.setPf (s : State) (p : Six) : State := { s with pf := p }

/-- `RUN <- r`. -/
def State.setRun (s : State) (r : Run) : State := { s with run := r }

/-- A value modulo `2^W`, with W = 12, or 16 in extend mode (00_scope.md R6, 10_state.md R25). -/
def wrapPc (ext : Bool) (v : PcVal) : PcVal := if ext then v else v &&& 0x0FFF

/-- `PC <- v`: every write of the PC is reduced modulo `2^W` (10_state.md R25). -/
def State.setPc (s : State) (v : PcVal) : State := { s with pc := wrapPc s.ext v }

/-- `PC <- (PC + 1) mod 2^W`: the advance of the fetch (40_execution_cycle.md R121) and the extra advance of a skip
(R128). -/
def State.advance (s : State) : State := s.setPc (s.pc + 1)

/-- `if c then skip` (40_execution_cycle.md R128). -/
def State.skipIf (s : State) (c : Bool) : State := if c then s.advance else s

/-- `PC <- zext_W(target)` with a 12-bit target (40_execution_cycle.md R129). -/
def State.jump (s : State) (target : Addr) : State := s.setPc (target.zeroExtend 16)

/-- `retval = cat(OV:1, EXT:1, zext_16(PC))` (10_state.md R33). -/
def State.retval (s : State) : Word := BitVec.ofBool s.ov ++ BitVec.ofBool s.ext ++ s.pc

/-! ## Fetch -/

/-- The word at PC, where PC is below S (40_execution_cycle.md R121, R122). -/
def State.fetch (s : State) : Option Word :=
  if s.pc.toNat < s.size then some (s.mem.read s.pc.toNat) else none

/-- The address `State.fetch` reads next, or 0 where the PC is outside memory. -/
def State.fetchAddr (s : State) : PcVal := if s.pc.toNat < s.size then s.pc else 0

/-- The state with a word where the next step fetches, running, its PC inside memory. -/
def State.placeWord (s : State) (w : Word) : State :=
  { s with pc := s.fetchAddr, run := .running, mem := s.mem.write s.fetchAddr.toNat w }

/-! ## Raising a fault -/

/-- `raise Fault(code, info)` (60_exceptions.md R287): the step ends at once, the info is the executed word (R286)
and the state is left as it is. The block has no trap entry (R293): nothing is saved and nothing takes control. -/
def raise (code : Word → State → Fault) (i : Instr) (s : State) : Result := .fault (code (encode i) s)

end Sys2Proof.Machine
end

