-- ==== Sys2Proof/Machine/Flags.lean ====
section
/-! DEFINITION. Every flag computation: the overflow flag after add and sub (41_alu.md R146), the selection of
program flags and sense switches by a 3-bit index (30_encoding.md R79, 48_operate.md R268, R269), and the skip
condition (47_skip.md R240). -/

namespace Sys2Proof.Machine

/-- OV after an add or sub whose overflow is `o` (R146): set on overflow; without it, kept when `P_OV_STICKY`, else
cleared. -/
def ovAfter (sticky old o : Bool) : Bool := o || (sticky && old)

/-- All six flags are 0. -/
def allClear (x : Six) : Bool := !x.f1 && !x.f2 && !x.f3 && !x.f4 && !x.f5 && !x.f6

/-- The condition of szs and szf (R246, R247): index 0 tests nothing, 1 to 6 one flag, 7 all six; true when what is
tested is 0. -/
def isClear (x : Six) (k : BitVec 3) : Bool :=
  match k.toNat with
  | 0 => false
  | 1 => !x.f1
  | 2 => !x.f2
  | 3 => !x.f3
  | 4 => !x.f4
  | 5 => !x.f5
  | 6 => !x.f6
  | _ => allClear x

/-- The effect of stf (`b` true, R268) and clf (`b` false, R269): index 0 changes nothing, 1 to 6 one flag, 7 all
six. -/
def putFlag (x : Six) (k : BitVec 3) (b : Bool) : Six :=
  match k.toNat with
  | 0 => x
  | 1 => { x with f1 := b }
  | 2 => { x with f2 := b }
  | 3 => { x with f3 := b }
  | 4 => { x with f4 := b }
  | 5 => { x with f5 := b }
  | 6 => { x with f6 := b }
  | _ => ⟨b, b, b, b, b, b⟩

/-- `c` of the skip-group evaluation (R240): the OR of the enabled conditions, read from the state as it was. -/
def skipCondition (c : Conds) (k f : BitVec 3) (s : State) : Bool :=
  (c.za && s.ac == 0) || (c.pa && !sign s.ac) || (c.ma && sign s.ac) || (c.zo && !s.ov) || (c.pi && !sign s.io)
    || isClear s.ss k || isClear s.pf f

/-- The skip group (R240): the conditions, then OV cleared where zo is listed, then the skip where the outcome
differs from the negate bit. -/
def skipGroup (n : Bool) (c : Conds) (k f : BitVec 3) (s : State) : State :=
  (if c.zo then s.setOv false else s).skipIf (skipCondition c k f s != n)

end Sys2Proof.Machine
end

