-- ==== Sys2Proof/Machine/Operands.lean ====
section
/-! DEFINITION. Every operand form: the effective address with its indirect chain (40_execution_cycle.md R124 to
R127), the memory operand, law's immediate (30_encoding.md R77) and the shift count (R78). -/

namespace Sys2Proof.Machine

/-! ## The effective address -/

/-- The link bit of a word on an indirect chain, its bit 12 (40_execution_cycle.md R124). -/
def linkBit (w : Word) : Bool := bit12 w

/-- The chain of R124 from address `a`, reading at most `n` words: the address of the first word whose bit 12 is
clear, or none when all `n` words have it set. -/
def chainSource (m : Memory) : Nat → Addr → Option Addr
  | 0, _ => none
  | n + 1, a => if linkBit (m.read a.toNat) then chainSource m n (low12 (m.read a.toNat)) else some a

/-- The chain of R125 from address `a`, reading at most `n` words: the address FIELD of the first word whose bit 12
is clear. -/
def chainPdp1 (m : Memory) : Nat → Addr → Option Addr
  | 0, _ => none
  | n + 1, a =>
    if linkBit (m.read a.toNat) then chainPdp1 m n (low12 (m.read a.toNat)) else some (low12 (m.read a.toNat))

/-- R126: a chain that has read this many words, all with bit 12 set, has revisited an address and never ends. -/
def chainBound : Nat := 4096

/-- The effective address of a memory-reference instruction with indirect bit `i` and address field `y`
(40_execution_cycle.md R124, R125); none is `Hang(IndirectCycle)` (R126). -/
def State.ea (s : State) (i : Bool) (y : Addr) : Option Addr :=
  if i then
    match s.cfg.indirect with
    | .source => chainSource s.mem chainBound y
    | .pdp1 => chainPdp1 s.mem chainBound y
  else some y

/-- A memory-reference instruction from its EA on: a cyclic chain hangs (R126). -/
def withEa (i : Bool) (y : Addr) (s : State) (k : Addr → Result) : Result :=
  match s.ea i y with
  | none => .fault .hangIndirectCycle
  | some a => k a

/-- A memory-reference instruction that reads its operand `m <- MemRead(EA, 1)` and completes. -/
def withOperand (i : Bool) (y : Addr) (s : State) (k : Word → State) : Result :=
  withEa i y s fun a => .next (k (s.memRead a))

/-- A memory-reference instruction that writes the word `v a` at `EA = a` and completes. -/
def storeAtEa (i : Bool) (y : Addr) (s : State) (v : Addr → Word) : Result :=
  withEa i y s fun a => .next (s.memWrite a (v a))

/-! ## Parts of a word -/

/-- `(m & ~mask) | (w & mask)`: the bits of `mask` replaced by those of `w` (43_memref_logic_transfer.md R186,
R187). -/
def replaceBits (mask m w : Word) : Word := (m &&& ~~~mask) ||| (w &&& mask)

/-- `sext_18(N13)`: bit 12 copied into bits 17..13 (30_encoding.md R77). -/
def lawValue (n : BitVec 13) : Word := n.signExtend 18

/-- `popcount(instr[8:0])`, the shift count, 0 to 9 (30_encoding.md R78). -/
def shiftCount (m : BitVec 9) : Nat :=
  (m.getLsbD 0).toNat + (m.getLsbD 1).toNat + (m.getLsbD 2).toNat + (m.getLsbD 3).toNat + (m.getLsbD 4).toNat
    + (m.getLsbD 5).toNat + (m.getLsbD 6).toNat + (m.getLsbD 7).toNat + (m.getLsbD 8).toNat

end Sys2Proof.Machine
end

