-- ==== Sys2Proof/Machine/Arith.lean ====
section
/-! DEFINITION. Memory-reference arithmetic: add, sub, mul, div, idx, isp (42_memref_arith.md). -/

namespace Sys2Proof.Machine

/-- An add or sub's result and overflow written to AC and OV (41_alu.md R146). -/
def State.setSum (s : State) (r : Word × Bool) : State :=
  (s.setAc r.1).setOv (ovAfter s.cfg.ovSticky s.ov r.2)

/-- R165: `(r, o) <- oc_add(AC, m)`. -/
def execAdd (i : Bool) (y : Addr) (s : State) : Result :=
  withOperand i y s fun m => s.setSum (ocAdd s.ac m)

/-- R166: `(r, o) <- oc_sub(AC, m)`. -/
def execSub (i : Bool) (y : Addr) (s : State) : Result :=
  withOperand i y s fun m => s.setSum (ocSub s.ac m)

/-- R167: the EA chain is walked, then `Fault(Unimplemented)`. -/
def execMul (i : Bool) (y : Addr) (s : State) : Result :=
  withEa i y s fun _ => raise .unimplemented (.mul i y) s

/-- R168: as mul. -/
def execDiv (i : Bool) (y : Addr) (s : State) : Result :=
  withEa i y s fun _ => raise .unimplemented (.div i y) s

/-- The increment of the word at `a`, written to memory and AC (R169). -/
def State.index (s : State) (a : Addr) : State :=
  (s.memWrite a (ocInc (s.memRead a))).setAc (ocInc (s.memRead a))

/-- R169. -/
def execIdx (i : Bool) (y : Addr) (s : State) : Result :=
  withEa i y s fun a => .next (s.index a)

/-- R170: as idx, then a skip if the result's bit 17 is 0. -/
def execIsp (i : Bool) (y : Addr) (s : State) : Result :=
  withEa i y s fun a => .next ((s.index a).skipIf (!sign (ocInc (s.memRead a))))

end Sys2Proof.Machine
end

