-- ==== Sys2Proof/Machine/Control.lean ====
section
/-! DEFINITION. Memory-reference control but for xct: jmp, jsp, cal, jda, sad, sas (44_memref_control.md). xct runs
any of the other meanings and stands in Machine/Execute.lean. -/

namespace Sys2Proof.Machine

/-- R202. -/
def execJmp (i : Bool) (y : Addr) (s : State) : Result := withEa i y s fun a => .next (s.jump a)

/-- R203: the return value is computed from the advanced PC, before the jump. -/
def execJsp (i : Bool) (y : Addr) (s : State) : Result :=
  withEa i y s fun a => .next ((s.setAc s.retval).jump a)

/-- A call through a cell: AC saved in it, the return value in AC, and a jump to the word after it (R204, R205). The
target is 12 bits wide, so the cell 0o7777 continues at 0 (40_execution_cycle.md R129; for cal, log entry 11). -/
def State.callThrough (s : State) (cell : Addr) : State :=
  ((s.memWrite cell s.ac).setAc s.retval).jump (cell + 1)

/-- R204: Y is ignored. -/
def execCal (_y : Addr) (s : State) : Result := .next (s.callThrough s.cfg.calBase)

/-- R205: no indirect chain, bit 12 being the selector. -/
def execJda (y : Addr) (s : State) : Result := .next (s.callThrough y)

/-- R206: skip if the 18 bits differ (41_alu.md R152). -/
def execSad (i : Bool) (y : Addr) (s : State) : Result := withOperand i y s fun m => s.skipIf (s.ac != m)

/-- R207: skip if the 18 bits are the same. -/
def execSas (i : Bool) (y : Addr) (s : State) : Result := withOperand i y s fun m => s.skipIf (s.ac == m)

end Sys2Proof.Machine
end

