-- ==== Sys2Proof/Machine/Illegal.lean ====
section
/-! DEFINITION. iot, the illegal opcodes and the illegal sub-operations (49_iot_illegal.md). Each ends the step in the
fault the spec names, its info the whole word. -/

namespace Sys2Proof.Machine

/-- R280: device I/O is not implemented. -/
def execIot (n : BitVec 13) (s : State) : Result := raise .unimplemented (.iot n) s

/-- R281. -/
def execIllegalOp00 (n : BitVec 13) (s : State) : Result := raise .illegalOpcode (.illegalOp00 n) s

/-- R281. -/
def execIllegalOp12 (n : BitVec 13) (s : State) : Result := raise .illegalOpcode (.illegalOp12 n) s

/-- R281. -/
def execIllegalOp14 (n : BitVec 13) (s : State) : Result := raise .illegalOpcode (.illegalOp14 n) s

/-- R281. -/
def execIllegalOp36 (n : BitVec 13) (s : State) : Result := raise .illegalOpcode (.illegalOp36 n) s

/-- R281. -/
def execIllegalOp74 (n : BitVec 13) (s : State) : Result := raise .illegalOpcode (.illegalOp74 n) s

/-- R282 (1). -/
def execIllegalShift (d k : Bool) (m : BitVec 9) (s : State) : Result :=
  raise .illegalSubop (.illegalShift d k m) s

/-- R282 (2). -/
def execIllegalSkip (n : Bool) (x : BitVec 11) (s : State) : Result := raise .illegalSubop (.illegalSkip n x) s

/-- R282 (3). -/
def execIllegalOperateBit (m : BitVec 12) (s : State) : Result := raise .illegalSubop (.illegalOperateBit m) s

/-- R282 (3). -/
def execIllegalOperateField (m : BitVec 12) (s : State) : Result := raise .illegalSubop (.illegalOperateField m) s

end Sys2Proof.Machine
end

