-- ==== Sys2Proof/Machine/Immediate.lean ====
section
/-! DEFINITION. Load accumulator with immediate: law (45_law.md). -/

namespace Sys2Proof.Machine

/-- R215: `AC <- sext_18(N13)`, or `Fault(Unimplemented)` when `P_LAW_EXEC = FAULT`. -/
def execLaw (n : BitVec 13) (s : State) : Result :=
  match s.cfg.lawExec with
  | .sext13 => .next (s.setAc (lawValue n))
  | .fault => raise .unimplemented (.law n) s

end Sys2Proof.Machine
end

