-- ==== Sys2Proof/Machine/Operate.lean ====
section
/-! DEFINITION. The operate group (48_operate.md). -/

namespace Sys2Proof.Machine

/-- R261: nothing beyond the fetch and the PC advance. -/
def execNop (s : State) : Result := .next s

/-- R262. -/
def execCla (s : State) : Result := .next (s.setAc 0)

/-- R263. -/
def execCli (s : State) : Result := .next (s.setIo 0)

/-- R264: not normalised. -/
def execCma (s : State) : Result := .next (s.setAc (~~~s.ac))

/-- R265. -/
def execLap (s : State) : Result := .next (s.setAc s.retval)

/-- R266. -/
def execHlt (s : State) : Result := .next (s.setRun .halted)

/-- R267: not implemented; the configuration has no test word. -/
def execLat (s : State) : Result := raise .unimplemented .lat s

/-- R268. -/
def execStf (k : BitVec 3) (s : State) : Result := .next (s.setPf (putFlag s.pf k true))

/-- R269. -/
def execClf (k : BitVec 3) (s : State) : Result := .next (s.setPf (putFlag s.pf k false))

end Sys2Proof.Machine
end

