-- ==== Sys2Proof/Machine/Shift.lean ====
section
/-! DEFINITION. The shift group: rotates and shifts of AC, IO and AC:IO (46_shift.md). None writes a flag or touches
memory (R220). -/

namespace Sys2Proof.Machine

/-- The two registers written from a chained value (R223, R229). -/
def State.setChained (s : State) (c : BitVec 36) : State := (s.setAc (acHalf c)).setIo (ioHalf c)

/-- The two registers written from a pair (R226, R232). -/
def State.setPair (s : State) (p : Word × Word) : State := (s.setAc p.1).setIo p.2

/-- R221. -/
def execRal (m : BitVec 9) (s : State) : Result := .next (s.setAc (rotl18 s.ac (shiftCount m)))

/-- R222. -/
def execRil (m : BitVec 9) (s : State) : Result := .next (s.setIo (rotl18 s.io (shiftCount m)))

/-- R223. -/
def execRcl (m : BitVec 9) (s : State) : Result := .next (s.setChained (rotl36 (cat36 s.ac s.io) (shiftCount m)))

/-- R224. -/
def execSal (m : BitVec 9) (s : State) : Result := .next (s.setAc (sal s.ac (shiftCount m)))

/-- R225. -/
def execSil (m : BitVec 9) (s : State) : Result := .next (s.setIo (sal s.io (shiftCount m)))

/-- R226. -/
def execScl (m : BitVec 9) (s : State) : Result := .next (s.setPair (times scl1 (shiftCount m) (s.ac, s.io)))

/-- R227. -/
def execRar (m : BitVec 9) (s : State) : Result := .next (s.setAc (rotr18 s.ac (shiftCount m)))

/-- R228. -/
def execRir (m : BitVec 9) (s : State) : Result := .next (s.setIo (rotr18 s.io (shiftCount m)))

/-- R229. -/
def execRcr (m : BitVec 9) (s : State) : Result := .next (s.setChained (rotr36 (cat36 s.ac s.io) (shiftCount m)))

/-- R230. -/
def execSar (m : BitVec 9) (s : State) : Result := .next (s.setAc (sar s.ac (shiftCount m)))

/-- R231. -/
def execSir (m : BitVec 9) (s : State) : Result := .next (s.setIo (sar s.io (shiftCount m)))

/-- R232. -/
def execScr (m : BitVec 9) (s : State) : Result := .next (s.setPair (times scr1 (shiftCount m) (s.ac, s.io)))

end Sys2Proof.Machine
end

