-- ==== Sys2Proof/Machine/Skip.lean ====
section
/-! DEFINITION. The skip group (47_skip.md): every form is the evaluation of R240 with its condition bits. -/

namespace Sys2Proof.Machine

/-- R241. -/
def execSza (s : State) : Result := .next (skipGroup false { za := true } 0 0 s)

/-- R241, negated. -/
def execSnza (s : State) : Result := .next (skipGroup true { za := true } 0 0 s)

/-- R242. -/
def execSpa (s : State) : Result := .next (skipGroup false { pa := true } 0 0 s)

/-- R242, negated. -/
def execSnpa (s : State) : Result := .next (skipGroup true { pa := true } 0 0 s)

/-- R244. -/
def execSma (s : State) : Result := .next (skipGroup false { ma := true } 0 0 s)

/-- R244, negated. -/
def execSnma (s : State) : Result := .next (skipGroup true { ma := true } 0 0 s)

/-- R243. -/
def execSzo (s : State) : Result := .next (skipGroup false { zo := true } 0 0 s)

/-- R243, negated. -/
def execSnzo (s : State) : Result := .next (skipGroup true { zo := true } 0 0 s)

/-- R245. -/
def execSpi (s : State) : Result := .next (skipGroup false { pi := true } 0 0 s)

/-- R245, negated. -/
def execSnpi (s : State) : Result := .next (skipGroup true { pi := true } 0 0 s)

/-- R248, and every un-negated word of R240. -/
def execSkp (c : Conds) (k f : BitVec 3) (s : State) : Result := .next (skipGroup false c k f s)

/-- R248, and every negated word of R240. -/
def execSkpn (c : Conds) (k f : BitVec 3) (s : State) : Result := .next (skipGroup true c k f s)

/-- R246. -/
def execSzs (k : BitVec 3) (s : State) : Result := .next (skipGroup false {} k 0 s)

/-- R247. -/
def execSzf (f : BitVec 3) (s : State) : Result := .next (skipGroup false {} 0 f s)

end Sys2Proof.Machine
end

