-- ==== Sys2Proof/Machine/Transfer.lean ====
section
/-! DEFINITION. Memory-reference logic and transfer: and, xor, ior, lac, lio, dac, dap, dip, dio, dzm
(43_memref_logic_transfer.md). None writes a flag. -/

namespace Sys2Proof.Machine

/-- R180. -/
def execAnd (i : Bool) (y : Addr) (s : State) : Result := withOperand i y s fun m => s.setAc (s.ac &&& m)

/-- R181. -/
def execXor (i : Bool) (y : Addr) (s : State) : Result := withOperand i y s fun m => s.setAc (s.ac ^^^ m)

/-- R182. -/
def execIor (i : Bool) (y : Addr) (s : State) : Result := withOperand i y s fun m => s.setAc (s.ac ||| m)

/-- R183. -/
def execLac (i : Bool) (y : Addr) (s : State) : Result := withOperand i y s fun m => s.setAc m

/-- R184. -/
def execLio (i : Bool) (y : Addr) (s : State) : Result := withOperand i y s fun m => s.setIo m

/-- R185. -/
def execDac (i : Bool) (y : Addr) (s : State) : Result := storeAtEa i y s fun _ => s.ac

/-- R186: the low 12 bits of the word are replaced by AC's. -/
def execDap (i : Bool) (y : Addr) (s : State) : Result :=
  storeAtEa i y s fun a => replaceBits 0o007777 (s.memRead a) s.ac

/-- R187: the bits of `P_DIP_MASK` are replaced by AC's. -/
def execDip (i : Bool) (y : Addr) (s : State) : Result :=
  storeAtEa i y s fun a => replaceBits s.cfg.dipMask.word (s.memRead a) s.ac

/-- R188. -/
def execDio (i : Bool) (y : Addr) (s : State) : Result := storeAtEa i y s fun _ => s.io

/-- R189. -/
def execDzm (i : Bool) (y : Addr) (s : State) : Result := storeAtEa i y s fun _ => 0

end Sys2Proof.Machine
end

