-- ==== Sys2Proof/Machine/Execute.lean ====
section
/-! DEFINITION. `execute(w)` of 40_execution_cycle.md R123 for the word an xct executes, and xct itself
(44_memref_control.md R200, R201). -/

namespace Sys2Proof.Machine

/-- The indirect bit and address of an xct; none for any other instruction. -/
def asXct : Instr → Option (Bool × Addr)
  | .xct i y => some (i, y)
  | _ => none

/-- Where a nest of xct words ends: at an instruction that is not an xct, or never. -/
inductive Nest where
  | target (i : Instr)
  | never (why : Fault)
deriving DecidableEq, Repr

/-- The nest that the xct with indirect bit `i` and address `y` starts, executing at most `n` words in place (R200,
R201). Nothing on the way writes state, so every word is read from the same memory. -/
def xctNest (s : State) : Nat → Bool → Addr → Nest
  | 0, _, _ => .never .hangXctCycle
  | n + 1, i, y =>
    match s.ea i y with
  | none => .never .hangIndirectCycle
  | some a =>
      match asXct (decode (s.memRead a)) with
      | none => .target (decode (s.memRead a))
      | some (i', y') => xctNest s n i' y'

/-- R201: a chain that has executed this many nested xct words in one step has repeated an address and never
ends. -/
def xctBound : Nat := 4097

/-- The instruction a nest ends at, run with the PC as it is (R200). A nest never ends at an xct, which is why that
arm has nothing to run. -/
def runTarget (i : Instr) (s : State) : Result :=
  match i with
  | .and i y => execAnd i y s
  | .ior i y => execIor i y s
  | .xor i y => execXor i y s
  | .xct _ _ => .fault .hangXctCycle
  | .lac i y => execLac i y s
  | .lio i y => execLio i y s
  | .dac i y => execDac i y s
  | .dap i y => execDap i y s
  | .dip i y => execDip i y s
  | .dio i y => execDio i y s
  | .dzm i y => execDzm i y s
  | .add i y => execAdd i y s
  | .sub i y => execSub i y s
  | .idx i y => execIdx i y s
  | .isp i y => execIsp i y s
  | .sad i y => execSad i y s
  | .sas i y => execSas i y s
  | .mul i y => execMul i y s
  | .div i y => execDiv i y s
  | .jmp i y => execJmp i y s
  | .jsp i y => execJsp i y s
  | .cal y => execCal y s
  | .jda y => execJda y s
  | .law n => execLaw n s
  | .ral m => execRal m s
  | .ril m => execRil m s
  | .rcl m => execRcl m s
  | .sal m => execSal m s
  | .sil m => execSil m s
  | .scl m => execScl m s
  | .rar m => execRar m s
  | .rir m => execRir m s
  | .rcr m => execRcr m s
  | .sar m => execSar m s
  | .sir m => execSir m s
  | .scr m => execScr m s
  | .sza => execSza s
  | .snza => execSnza s
  | .spa => execSpa s
  | .snpa => execSnpa s
  | .sma => execSma s
  | .snma => execSnma s
  | .szo => execSzo s
  | .snzo => execSnzo s
  | .spi => execSpi s
  | .snpi => execSnpi s
  | .skp c k f => execSkp c k f s
  | .skpn c k f => execSkpn c k f s
  | .szs k => execSzs k s
  | .szf f => execSzf f s
  | .nop => execNop s
  | .cla => execCla s
  | .cli => execCli s
  | .cma => execCma s
  | .lap => execLap s
  | .hlt => execHlt s
  | .lat => execLat s
  | .stf k => execStf k s
  | .clf k => execClf k s
  | .iot n => execIot n s
  | .illegalOp00 n => execIllegalOp00 n s
  | .illegalOp12 n => execIllegalOp12 n s
  | .illegalOp14 n => execIllegalOp14 n s
  | .illegalOp36 n => execIllegalOp36 n s
  | .illegalOp74 n => execIllegalOp74 n s
  | .illegalShift d k m => execIllegalShift d k m s
  | .illegalSkip n x => execIllegalSkip n x s
  | .illegalOperateBit m => execIllegalOperateBit m s
  | .illegalOperateField m => execIllegalOperateField m s

/-- R200: execute the word at EA in place. The executed word is not fetched at PC and the PC is not advanced for
it. -/
def execXct (i : Bool) (y : Addr) (s : State) : Result :=
  match xctNest s xctBound i y with
  | .never why => .fault why
  | .target j => runTarget j s

end Sys2Proof.Machine
end

