-- ==== Sys2Proof/Machine/Dispatch.lean ====
section
/-! DEFINITION. The dispatch: one arm for each constructor of Instr, each one direct call of its meaning. -/

namespace Sys2Proof.Machine

def exec (i : Instr) (s : State) : Host.Outcome State Fault Refusal :=
  match i with
  | .and b y => Sys2Proof.Machine.execAnd b y s
  | .ior b y => Sys2Proof.Machine.execIor b y s
  | .xor b y => Sys2Proof.Machine.execXor b y s
  | .xct b y => Sys2Proof.Machine.execXct b y s
  | .lac b y => Sys2Proof.Machine.execLac b y s
  | .lio b y => Sys2Proof.Machine.execLio b y s
  | .dac b y => Sys2Proof.Machine.execDac b y s
  | .dap b y => Sys2Proof.Machine.execDap b y s
  | .dip b y => Sys2Proof.Machine.execDip b y s
  | .dio b y => Sys2Proof.Machine.execDio b y s
  | .dzm b y => Sys2Proof.Machine.execDzm b y s
  | .add b y => Sys2Proof.Machine.execAdd b y s
  | .sub b y => Sys2Proof.Machine.execSub b y s
  | .idx b y => Sys2Proof.Machine.execIdx b y s
  | .isp b y => Sys2Proof.Machine.execIsp b y s
  | .sad b y => Sys2Proof.Machine.execSad b y s
  | .sas b y => Sys2Proof.Machine.execSas b y s
  | .mul b y => Sys2Proof.Machine.execMul b y s
  | .div b y => Sys2Proof.Machine.execDiv b y s
  | .jmp b y => Sys2Proof.Machine.execJmp b y s
  | .jsp b y => Sys2Proof.Machine.execJsp b y s
  | .cal y => Sys2Proof.Machine.execCal y s
  | .jda y => Sys2Proof.Machine.execJda y s
  | .law n => Sys2Proof.Machine.execLaw n s
  | .ral m => Sys2Proof.Machine.execRal m s
  | .ril m => Sys2Proof.Machine.execRil m s
  | .rcl m => Sys2Proof.Machine.execRcl m s
  | .sal m => Sys2Proof.Machine.execSal m s
  | .sil m => Sys2Proof.Machine.execSil m s
  | .scl m => Sys2Proof.Machine.execScl m s
  | .rar m => Sys2Proof.Machine.execRar m s
  | .rir m => Sys2Proof.Machine.execRir m s
  | .rcr m => Sys2Proof.Machine.execRcr m s
  | .sar m => Sys2Proof.Machine.execSar m s
  | .sir m => Sys2Proof.Machine.execSir m s
  | .scr m => Sys2Proof.Machine.execScr m s
  | .sza => Sys2Proof.Machine.execSza s
  | .snza => Sys2Proof.Machine.execSnza s
  | .spa => Sys2Proof.Machine.execSpa s
  | .snpa => Sys2Proof.Machine.execSnpa s
  | .sma => Sys2Proof.Machine.execSma s
  | .snma => Sys2Proof.Machine.execSnma s
  | .szo => Sys2Proof.Machine.execSzo s
  | .snzo => Sys2Proof.Machine.execSnzo s
  | .spi => Sys2Proof.Machine.execSpi s
  | .snpi => Sys2Proof.Machine.execSnpi s
  | .skp c k f => Sys2Proof.Machine.execSkp c k f s
  | .skpn c k f => Sys2Proof.Machine.execSkpn c k f s
  | .szs k => Sys2Proof.Machine.execSzs k s
  | .szf f => Sys2Proof.Machine.execSzf f s
  | .nop => Sys2Proof.Machine.execNop s
  | .cla => Sys2Proof.Machine.execCla s
  | .cli => Sys2Proof.Machine.execCli s
  | .cma => Sys2Proof.Machine.execCma s
  | .lap => Sys2Proof.Machine.execLap s
  | .hlt => Sys2Proof.Machine.execHlt s
  | .lat => Sys2Proof.Machine.execLat s
  | .stf k => Sys2Proof.Machine.execStf k s
  | .clf k => Sys2Proof.Machine.execClf k s
  | .iot n => Sys2Proof.Machine.execIot n s
  | .illegalOp00 n => Sys2Proof.Machine.execIllegalOp00 n s
  | .illegalOp12 n => Sys2Proof.Machine.execIllegalOp12 n s
  | .illegalOp14 n => Sys2Proof.Machine.execIllegalOp14 n s
  | .illegalOp36 n => Sys2Proof.Machine.execIllegalOp36 n s
  | .illegalOp74 n => Sys2Proof.Machine.execIllegalOp74 n s
  | .illegalShift d k m => Sys2Proof.Machine.execIllegalShift d k m s
  | .illegalSkip n x => Sys2Proof.Machine.execIllegalSkip n x s
  | .illegalOperateBit m => Sys2Proof.Machine.execIllegalOperateBit m s
  | .illegalOperateField m => Sys2Proof.Machine.execIllegalOperateField m s

end Sys2Proof.Machine
end

