-- ==== Sys2Proof/Machine/Step.lean ====
section
/-! DEFINITION. One step (40_execution_cycle.md R121), and the placing of a word where the next step fetches. -/

namespace Sys2Proof.Machine

/-- R121: Idle in Halted, where nothing changes (log entry 7); a fetch at or above S faults and changes nothing
(R122); else the word is fetched, the PC advanced, and the word executed (R123). -/
def step (s : State) : Host.Outcome State Fault Refusal :=
  match s.run with
  | .halted => .next s
  | .running =>
    match s.fetch with
    | none => .fault (.fetchOutOfRange s.pc s)
    | some w => exec (decode w) s.advance

/-- `s` with the word `w` where the next step fetches. An instruction is one word, so `nbits` adds nothing. RUN and a
PC outside memory are set too, since no step fetches there (log entry 13). -/
def State.withFetchWord (s : State) (_nbits w : Nat) : State := s.placeWord (BitVec.ofNat 18 w)

end Sys2Proof.Machine
end

