-- ==== Sys2Proof/Machine/Arbiter.lean ====
section
/-! DEFINITION. The memory accesses of a step in the order the arbiter serves them (20_memory.md R49, R50). No
program observes that order (R50), so it is no part of State: it is listed by a function beside the meanings, over the
same effective-address operations (log entry 14). -/

namespace Sys2Proof.Machine

/-- One access of one whole word (20_memory.md R51): `F`, `R` or `W` of R50. -/
inductive Access where
  | fetch (a : PcVal)
  | read (a : Addr)
  | write (a : Addr)
deriving DecidableEq, Repr

/-- The addresses an indirect chain reads, at most `n` of them; the same for both settings of `P_INDIRECT`. -/
def chainReads (m : Memory) : Nat → Addr → List Addr
  | 0, _ => []
  | n + 1, a => a :: if linkBit (m.read a.toNat) then chainReads m n (low12 (m.read a.toNat)) else []

/-- `C*`, then the accesses at the effective address, if the chain ends. -/
def eaAccesses (s : State) (i : Bool) (y : Addr) (atEa : Addr → List Access) : List Access :=
  (if i then (chainReads s.mem chainBound y).map .read else [])
    ++ match s.ea i y with
      | none => []
      | some a => atEa a

/-- The accesses of an instruction beyond its fetch, by the table of R50; xct is listed by `nestAccesses`. -/
def plainAccesses (j : Instr) (s : State) : List Access :=
  match j with
  | .add i y | .sub i y | .and i y | .xor i y | .ior i y | .lac i y | .lio i y | .sad i y | .sas i y =>
    eaAccesses s i y fun a => [.read a]
  | .idx i y | .isp i y | .dap i y | .dip i y => eaAccesses s i y fun a => [.read a, .write a]
  | .dac i y | .dio i y | .dzm i y => eaAccesses s i y fun a => [.write a]
  | .jmp i y | .jsp i y | .mul i y | .div i y => eaAccesses s i y fun _ => []
  | .cal _ => [.write s.cfg.calBase]
  | .jda y => [.write y]
  | .xct _ _ | .law _ | .ral _ | .ril _ | .rcl _ | .sal _ | .sil _ | .scl _ | .rar _ | .rir _ | .rcr _ | .sar _
  | .sir _ | .scr _ | .sza | .snza | .spa | .snpa | .sma | .snma | .szo | .snzo | .spi | .snpi | .skp _ _ _
  | .skpn _ _ _ | .szs _ | .szf _ | .nop | .cla | .cli | .cma | .lap | .hlt | .lat | .stf _ | .clf _ | .iot _
  | .illegalOp00 _ | .illegalOp12 _ | .illegalOp14 _ | .illegalOp36 _ | .illegalOp74 _ | .illegalShift _ _ _
  | .illegalSkip _ _ | .illegalOperateBit _ | .illegalOperateField _ => []

/-- The accesses of an xct: its chain, the read of its target, then those of the executed word minus its fetch. -/
def nestAccesses (s : State) : Nat → Bool → Addr → List Access
  | 0, _, _ => []
  | n + 1, i, y =>
    eaAccesses s i y fun a =>
      .read a ::
        match asXct (decode (s.memRead a)) with
        | none => plainAccesses (decode (s.memRead a)) s
        | some (i', y') => nestAccesses s n i' y'

/-- The accesses of an instruction beyond its fetch. -/
def accesses (j : Instr) (s : State) : List Access :=
  match asXct j with
  | none => plainAccesses j s
  | some (i, y) => nestAccesses s xctBound i y

/-- The accesses of a step: none in Halted or where the fetch faults, else the fetch and the instruction's own. -/
def stepAccesses (s : State) : List Access :=
  match s.run with
  | .halted => []
  | .running =>
    match s.fetch with
    | none => []
    | some w => .fetch s.pc :: accesses (decode w) s.advance

end Sys2Proof.Machine
end

