-- ==== Sys2Proof/Machine/Assembler.lean ====
section
/-! DEFINITION. The assembler of 30_encoding.md §7, from tokenised lines to words: macros (R102), directives (R100,
R101), the label table and its resolution (R103 to R108), the operands and encoders (R91 to R99) and the errors (R109).
It is software around the block. The tokenisation of text is out of scope (00_scope.md R4; log entry 16); what the model
chooses where the spec is silent is in log entry 16 for operands and lines, 21 for labels and macros, and 22 for which
error is reported. -/

namespace Sys2Proof.Machine

/-- A name or token of the source text. -/
abbrev Token := List Char

/-- The assembly errors (R109). -/
inductive AsmErrorKind where
  | invalidLabelFormat
  | duplicateLabel
  | undefinedLabel
  | undefinedMacro
  | invalidDirective
  | invalidDirectiveOperands
  | invalidOpcode
  | invalidOperand
  | lineParseError
deriving DecidableEq, Repr

/-- An error as the pass reports it: it names the offending token (R109). Which token that is where the spec does not
say, is the model's choice (log entry 22). -/
structure AsmError where
  kind  : AsmErrorKind
  token : Token
deriving DecidableEq, Repr

/-- An answer whose error names a token. -/
def naming {α : Type} (t : Token) : Except AsmErrorKind α → Except AsmError α
  | .ok a => .ok a
  | .error k => .error ⟨k, t⟩

/-- Two lists one after the other. Where both are errors the first is reported (log entry 22). -/
def appendAnswers {α : Type} : Except AsmError (List α) → Except AsmError (List α) → Except AsmError (List α)
  | .ok x, .ok y => .ok (x ++ y)
  | .error e, _ => .error e
  | .ok _, .error e => .error e

/-! ## Labels -/

/-- A letter of R90. -/
def isLetter (c : Char) : Bool := (65 ≤ c.toNat && c.toNat ≤ 90) || (97 ≤ c.toNat && c.toNat ≤ 122)

/-- A digit. -/
def isDigit (c : Char) : Bool := 48 ≤ c.toNat && c.toNat ≤ 57

/-- The decimal number a list of digits stands for. -/
def numberOf (t : Token) : Nat := t.foldl (fun n c => 10 * n + (c.toNat - 48)) 0

/-- A symbolic name: a letter and up to 7 alphanumerics (R90, R104). -/
def isSymbolic : Token → Bool
  | [] => false
  | c :: r => isLetter c && r.length ≤ 7 && r.all fun d => isLetter d || isDigit d

/-- A numeric name: 1 to 3 digits with a value from 0 to 255 (R90, R104). -/
def isNumeric (t : Token) : Bool := 1 ≤ t.length && t.length ≤ 3 && t.all isDigit && numberOf t ≤ 255

/-- The label table: a position for each symbolic name, and the numeric labels, value and position, in order of
appearance (R104). -/
structure LabelTable where
  symbolic : List (Token × Nat) := []
  numeric  : List (Nat × Nat) := []
deriving DecidableEq, Repr

/-- R104: `addLabel(name, position)`. DESIGN CHOICE (log entry 21): the spec names no error for a name that is in
neither of R104's classes, such as the digits 256 to 999, which R90's grammar admits; here it is InvalidLabelFormat. -/
def LabelTable.add (t : LabelTable) (name : Token) (pos : Nat) : Except AsmErrorKind LabelTable :=
  if isSymbolic name then
    if t.symbolic.any fun e => e.1 == name then .error .duplicateLabel
    else .ok { t with symbolic := t.symbolic ++ [(name, pos)] }
  else if isNumeric name then .ok { t with numeric := t.numeric ++ [(numberOf name, pos)] }
  else .error .invalidLabelFormat

/-- A label reference: a symbolic name, or a numeric label searched forward or backward (R91). -/
inductive LabelRef where
  | symbolic (name : Token)
  | forward (n : Nat)
  | backward (n : Nat)
deriving DecidableEq, Repr

/-- The reference a token spells; any other spelling is an invalid label format (R105). DESIGN CHOICE (log entry 21):
any number of digits may stand before the f or b. -/
def LabelRef.ofToken (t : Token) : Except AsmErrorKind LabelRef :=
  if isSymbolic t then .ok (.symbolic t)
  else if t.dropLast.isEmpty || !t.dropLast.all isDigit then .error .invalidLabelFormat
  else if t.getLast? = some 'f' then .ok (.forward (numberOf t.dropLast))
  else if t.getLast? = some 'b' then .ok (.backward (numberOf t.dropLast))
  else .error .invalidLabelFormat

/-- The positions of a numeric value, in order of appearance. -/
def LabelTable.positions (t : LabelTable) (n : Nat) : List Nat :=
  (t.numeric.filter fun e => e.1 == n).map fun e => e.2

/-- R107: scan up to the first entry at or after `cur`; the answer is the entry before it, or the last entry. -/
def scanBack (cur : Nat) : Option Nat → List Nat → Option Nat
  | before, [] => before
  | before, p :: r => if cur ≤ p then before else scanBack cur (some p) r

/-- R105 to R107: the position a reference stands for. -/
def LabelTable.resolve (t : LabelTable) (r : LabelRef) (cur : Nat) : Except AsmErrorKind Nat :=
  let found :=
    match r with
    | .symbolic name => (t.symbolic.find? fun e => e.1 == name).map fun e => e.2
    | .forward n => (t.positions n).find? fun p => cur < p
    | .backward n => scanBack cur none (t.positions n)
  match found with
  | some p => .ok p
  | none => .error .undefinedLabel

/-- R105: `resolveLabel(ref, cur)`, from the token written in the line. -/
def LabelTable.resolveToken (t : LabelTable) (ref : Token) (cur : Nat) : Except AsmErrorKind Nat :=
  match LabelRef.ofToken ref with
  | .ok r => t.resolve r cur
  | .error k => .error k

/-! ## Operands and mnemonics -/

/-- A code of a skip list (R96). -/
inductive CondCode where
  | za
  | pa
  | ma
  | zo
  | pi
deriving DecidableEq, Repr

/-- An operand (R91), without its `&` mark. A label reference stays the token it is written as until it is resolved,
since its syntax is judged there (R105). -/
inductive Operand where
  | imm (n : Int)
  | label (ref : Token)
  | codes (l : List CondCode)
deriving DecidableEq, Repr

/-- The mnemonics the encoder knows (R92 to R98). -/
inductive Mnemonic where
  | and
  | ior
  | xor
  | xct
  | lac
  | lio
  | dac
  | dap
  | dip
  | dio
  | dzm
  | add
  | sub
  | idx
  | isp
  | sad
  | sas
  | mul
  | div
  | jmp
  | jsp
  | cal
  | jda
  | law
  | ral
  | ril
  | rcl
  | sal
  | sil
  | scl
  | rar
  | rir
  | rcr
  | sar
  | sir
  | scr
  | sza
  | snza
  | spa
  | snpa
  | sma
  | snma
  | szo
  | snzo
  | spi
  | snpi
  | skp
  | skpn
  | szs
  | szf
  | nop
  | cla
  | cli
  | cma
  | lap
  | hlt
  | lat
  | stf
  | clf
deriving DecidableEq, Repr

/-- How the memory-reference mnemonics and law are spelled (R92, R93). -/
def referenceNames : List (Token × Mnemonic) :=
  [("and".toList, .and), ("ior".toList, .ior), ("xor".toList, .xor), ("xct".toList, .xct), ("lac".toList, .lac),
    ("lio".toList, .lio), ("dac".toList, .dac), ("dap".toList, .dap), ("dip".toList, .dip), ("dio".toList, .dio),
    ("dzm".toList, .dzm), ("add".toList, .add), ("sub".toList, .sub), ("idx".toList, .idx), ("isp".toList, .isp),
    ("sad".toList, .sad), ("sas".toList, .sas), ("mul".toList, .mul), ("div".toList, .div), ("jmp".toList, .jmp),
    ("jsp".toList, .jsp), ("cal".toList, .cal), ("jda".toList, .jda), ("law".toList, .law)]

/-- How the shift mnemonics are spelled (R94). -/
def shiftNames : List (Token × Mnemonic) :=
  [("ral".toList, .ral), ("ril".toList, .ril), ("rcl".toList, .rcl), ("sal".toList, .sal), ("sil".toList, .sil),
    ("scl".toList, .scl), ("rar".toList, .rar), ("rir".toList, .rir), ("rcr".toList, .rcr), ("sar".toList, .sar),
    ("sir".toList, .sir), ("scr".toList, .scr)]

/-- How the skip mnemonics are spelled (R95 to R97). -/
def skipNames : List (Token × Mnemonic) :=
  [("sza".toList, .sza), ("snza".toList, .snza), ("spa".toList, .spa), ("snpa".toList, .snpa), ("sma".toList, .sma),
    ("snma".toList, .snma), ("szo".toList, .szo), ("snzo".toList, .snzo), ("spi".toList, .spi), ("snpi".toList, .snpi),
    ("skp".toList, .skp), ("skpn".toList, .skpn), ("szs".toList, .szs), ("szf".toList, .szf)]

/-- How the operate mnemonics are spelled (R98). -/
def operateNames : List (Token × Mnemonic) :=
  [("nop".toList, .nop), ("cla".toList, .cla), ("cli".toList, .cli), ("cma".toList, .cma), ("lap".toList, .lap),
    ("hlt".toList, .hlt), ("lat".toList, .lat), ("stf".toList, .stf), ("clf".toList, .clf)]

/-- The mnemonic a token spells. -/
def Mnemonic.ofToken (t : Token) : Option Mnemonic :=
  ((referenceNames ++ shiftNames ++ skipNames ++ operateNames).find? fun e => e.1 == t).map fun e => e.2

/-- The decimal integer a token spells (R91; decision D37): digits, with a minus sign before them if it is negative. -/
def intOfToken : Token → Option Int
  | '-' :: r => if r.isEmpty || !r.all isDigit then none else some (-(numberOf r : Int))
  | r => if r.isEmpty || !r.all isDigit then none else some (numberOf r : Int)

/-- The tokens between the marks `|` of a condition list. -/
def splitCodes : Token → List Token
  | [] => [[]]
  | '|' :: r => [] :: splitCodes r
  | c :: r =>
    match splitCodes r with
    | x :: xs => (c :: x) :: xs
    | [] => [[c]]

/-- The code a token spells (R96). -/
def CondCode.ofToken (t : Token) : Option CondCode :=
  if t = "za".toList then some .za
  else if t = "pa".toList then some .pa
  else if t = "ma".toList then some .ma
  else if t = "zo".toList then some .zo
  else if t = "pi".toList then some .pi
  else none

/-- How a mnemonic is encoded. -/
inductive AsmClass where
  | mem (op : BitVec 6)
  | cal
  | jda
  | law
  | shift (sub : BitVec 9)
  | named (n : Bool) (c : Conds)
  | list (n : Bool)
  | szs
  | szf
  | operate (m : BitVec 12)
  | flag (base : BitVec 9)
deriving DecidableEq, Repr

/-- The class of each mnemonic, with its value of R80 to R83. -/
def Mnemonic.kind : Mnemonic → AsmClass
  | .and => .mem 0o02
  | .ior => .mem 0o04
  | .xor => .mem 0o06
  | .xct => .mem 0o10
  | .lac => .mem 0o20
  | .lio => .mem 0o22
  | .dac => .mem 0o24
  | .dap => .mem 0o26
  | .dip => .mem 0o30
  | .dio => .mem 0o32
  | .dzm => .mem 0o34
  | .add => .mem 0o40
  | .sub => .mem 0o42
  | .idx => .mem 0o44
  | .isp => .mem 0o46
  | .sad => .mem 0o50
  | .sas => .mem 0o52
  | .mul => .mem 0o54
  | .div => .mem 0o56
  | .jmp => .mem 0o60
  | .jsp => .mem 0o62
  | .cal => .cal
  | .jda => .jda
  | .law => .law
  | .ral => .shift 0o661
  | .ril => .shift 0o662
  | .rcl => .shift 0o663
  | .sal => .shift 0o665
  | .sil => .shift 0o666
  | .scl => .shift 0o667
  | .rar => .shift 0o671
  | .rir => .shift 0o672
  | .rcr => .shift 0o673
  | .sar => .shift 0o675
  | .sir => .shift 0o676
  | .scr => .shift 0o677
  | .sza => .named false { za := true }
  | .snza => .named true { za := true }
  | .spa => .named false { pa := true }
  | .snpa => .named true { pa := true }
  | .sma => .named false { ma := true }
  | .snma => .named true { ma := true }
  | .szo => .named false { zo := true }
  | .snzo => .named true { zo := true }
  | .spi => .named false { pi := true }
  | .snpi => .named true { pi := true }
  | .skp => .list false
  | .skpn => .list true
  | .szs => .szs
  | .szf => .szf
  | .nop => .operate 0
  | .cla => .operate 0o0200
  | .cli => .operate 0o4000
  | .cma => .operate 0o1000
  | .lap => .operate 0o0300
  | .hlt => .operate 0o0400
  | .lat => .operate 0o2200
  | .stf => .flag 1
  | .clf => .flag 0

/-- The operand a token spells after a mnemonic (R91, R96): a condition list after skp and skpn alone, an immediate
where `#` leads, else a label reference. A malformed list or immediate is InvalidOperand (log entry 22). -/
def Operand.ofToken (m : Mnemonic) (t : Token) : Except AsmErrorKind Operand :=
  match m.kind, t with
  | .list _, t =>
    match (splitCodes t).mapM CondCode.ofToken with
    | some l => .ok (.codes l)
    | none => .error .invalidOperand
  | _, '#' :: r =>
    match intOfToken r with
    | some n => .ok (.imm n)
    | none => .error .invalidOperand
  | _, t => .ok (.label t)

/-- The `&` mark of an operand token, and what stands after it (R90). -/
def splitMark : Token → Bool × Token
  | '&' :: r => (true, r)
  | t => (false, t)

/-! ## Encoding -/

/-- The 13-bit one's-complement field of an integer from -4095 to 4095 (R93). -/
def oc13 (n : Int) : BitVec 13 :=
  if 0 ≤ n then BitVec.ofNat 13 n.natAbs else 0o17777 - BitVec.ofNat 13 n.natAbs

/-- The OR of the listed condition bits (R96). -/
def condsOfCodes (l : List CondCode) : Conds where
  za := l.contains .za
  pa := l.contains .pa
  ma := l.contains .ma
  zo := l.contains .zo
  pi := l.contains .pi

/-- An index from 0 to 7 (R97, R98). That a missing one is InvalidOperand is the model's choice (log entry 22). -/
def indexOperand : Option Operand → Except AsmErrorKind (BitVec 3)
  | some (.imm n) => if 0 ≤ n ∧ n ≤ 7 then .ok (BitVec.ofNat 3 n.natAbs) else .error .invalidOperand
  | _ => .error .invalidOperand

/-- The 9 address bits of a memory-reference operand: an immediate from 0 to 511, or the low 9 bits of a resolved
address (R92, R108). DESIGN CHOICE (log entry 22): a missing operand, which R92 only calls an error, is
InvalidOperand. -/
def addressOperand (t : LabelTable) (cur : Nat) : Option Operand → Except AsmErrorKind Addr
  | some (.imm n) => if 0 ≤ n ∧ n ≤ 511 then .ok (BitVec.ofNat 12 n.natAbs) else .error .invalidOperand
  | some (.label ref) =>
    match t.resolveToken ref cur with
    | .ok p => .ok (BitVec.ofNat 12 (p % 512))
    | .error e => .error e
  | _ => .error .invalidOperand

/-- A memory-reference word from its operand. -/
def encodeMem (t : LabelTable) (cur : Nat) (op : BitVec 6) (i : Bool) (o : Option Operand) :
    Except AsmErrorKind Word :=
  match addressOperand t cur o with
  | .ok a => .ok (memWord op i a)
  | .error e => .error e

/-- The word of an instruction at position `cur`, from its mnemonic, its `&` mark and its operand (R92 to R98). DESIGN
CHOICE (log entries 16 and 22): InvalidOperand refuses the `&` mark outside the memory-reference mnemonics, and an
operand on a mnemonic that takes none, of which R95 and R98 do not say what happens; a missing required operand is
InvalidOperand too. -/
def encodeInstr (t : LabelTable) (cur : Nat) (m : Mnemonic) (amp : Bool) (o : Option Operand) :
    Except AsmErrorKind Word :=
  match m.kind with
  | .mem op => encodeMem t cur op amp o
  | .jda => encodeMem t cur 0o16 true o
  | .cal => if amp then .error .invalidOperand else encodeMem t cur 0o16 false o
  | .law =>
    match amp, o with
    | false, some (.imm n) => if -4095 ≤ n ∧ n ≤ 4095 then .ok (wideWord 0o70 (oc13 n)) else .error .invalidOperand
    | _, _ => .error .invalidOperand
  | .shift sub =>
    match amp, o with
    | false, some (.imm n) =>
      if 0 ≤ n ∧ n ≤ 9 then .ok (shiftWord sub (BitVec.ofNat 9 (2 ^ n.natAbs - 1))) else .error .invalidOperand
    | _, _ => .error .invalidOperand
  | .named n c =>
    match amp, o with
    | false, none => .ok (skipWord n c 0 0)
    | _, _ => .error .invalidOperand
  | .list n =>
    match amp, o with
    | false, some (.codes (c :: l)) => .ok (skipWord n (condsOfCodes (c :: l)) 0 0)
    | _, _ => .error .invalidOperand
  | .szs =>
    match amp, indexOperand o with
    | false, .ok k => .ok (skipWord false {} k 0)
    | _, _ => .error .invalidOperand
  | .szf =>
    match amp, indexOperand o with
    | false, .ok k => .ok (skipWord false {} 0 k)
    | _, _ => .error .invalidOperand
  | .operate f =>
    match amp, o with
    | false, none => .ok (operateWord f)
    | _, _ => .error .invalidOperand
  | .flag base =>
    match amp, indexOperand o with
    | false, .ok k => .ok (operateWord (base ++ k))
    | _, _ => .error .invalidOperand

/-- The word of an instruction at position `cur`, from its mnemonic and its operand's token. -/
def encodeTokens (t : LabelTable) (cur : Nat) (m : Mnemonic) : Option Token → Except AsmErrorKind Word
  | none => encodeInstr t cur m false none
  | some o =>
    match Operand.ofToken m (splitMark o).2 with
    | .ok x => encodeInstr t cur m (splitMark o).1 (some x)
    | .error k => .error k

/-- The word of a `.fill` literal, from -131071 to 131071. DESIGN CHOICE (log entry 22): a malformed literal or one out
of range is InvalidDirectiveOperands. -/
def fillLiteral : Option Int → Except AsmErrorKind Word
  | some n => if -131071 ≤ n ∧ n ≤ 131071 then .ok (oc n) else .error .invalidDirectiveOperands
  | none => .error .invalidDirectiveOperands

/-- The word of `.fill` from its operand's token: a literal, with or without `#`, or a resolved address, all 18 bits
(R100). -/
def encodeFill (t : LabelTable) (cur : Nat) : Token → Except AsmErrorKind Word
  | '#' :: r => fillLiteral (intOfToken r)
  | o =>
    match intOfToken o with
    | some n => fillLiteral (some n)
    | none =>
      match t.resolveToken o cur with
      | .ok p => .ok (BitVec.ofNat 18 p)
      | .error k => .error k

/-! ## Lines -/

/-- A tokenised line without its label (R90, R102): an instruction line has at most one operand; a directive is given by
its name after the point, the empty name being a bare comment; and an invocation `NAME operand...`, with any number of
operands, is a macro's. An operand's token begins with its `&` mark, if it has one. -/
inductive Stmt where
  | instr (mnemonic : Token) (operand : Option Token)
  | directive (name : Token) (operands : List Token)
  | invocation (name : Token) (operands : List Token)
deriving DecidableEq, Repr

/-- A tokenised line (R90). -/
structure Line where
  label : Option Token := none
  stmt  : Stmt
deriving DecidableEq, Repr

/-- The answer for a line that emits no word of its own: a label on it is refused as InvalidDirective. The spec says so
of `.macro` and `.space` lines (93_implementation_defined.md §1) and names no error; for bare comments, `.endmacro` and
the error it is the model's choice (log entry 21). -/
def unlabelled {α : Type} (l : Line) (answer : Except AsmError α) : Except AsmError α :=
  match l.label with
  | some x => .error ⟨.invalidDirective, x⟩
  | none => answer

/-! ## Macros -/

/-- A macro definition: its parameters, and its body's lines as they stand (R102). -/
structure MacroDef where
  params : List Token
  body   : List Line
deriving DecidableEq, Repr

/-- The definitions made so far, the latest first. -/
abbrev MacroTable := List (Token × MacroDef)

/-- R102: a duplicate definition silently overwrites. -/
def MacroTable.define (t : MacroTable) (name : Token) (d : MacroDef) : MacroTable := (name, d) :: t

/-- The definition of a name. -/
def MacroTable.find (t : MacroTable) (name : Token) : Option MacroDef := (t.find? fun e => e.1 == name).map fun e => e.2

/-- R102: a token of the body, replaced by the positional operand if it is a parameter. DESIGN CHOICE (log entry 21): the
spec does not say what happens where the invocation has more operands than the macro has parameters, or fewer; here
surplus operands are dropped without an error, and a parameter without an operand stays as it stands. -/
def substitute : List Token → List Token → Token → Token
  | p :: ps, a :: as, t => if t = p then a else substitute ps as t
  | _, _, t => t

/-- The substitution in an operand's token: what stands after its `&` mark is the parameter. -/
def substituteOperand (ps as : List Token) : Token → Token
  | '&' :: r => '&' :: substitute ps as r
  | t => substitute ps as t

/-- The substitution in a line: its label, its mnemonic or macro name, and its operands. -/
def Line.substitute (ps as : List Token) (l : Line) : Line where
  label := l.label.map (Machine.substitute ps as)
  stmt :=
    match l.stmt with
    | .instr m o => .instr (Machine.substitute ps as m) (o.map (substituteOperand ps as))
    | .directive n os => .directive n (os.map (substituteOperand ps as))
    | .invocation n os => .invocation (Machine.substitute ps as n) (os.map (substituteOperand ps as))

/-- R102: an invocation emits the body with each parameter token replaced, once and without recursion. An undefined
name is UndefinedMacro. -/
def MacroTable.invoke (t : MacroTable) (name : Token) (args : List Token) : Except AsmError (List Line) :=
  match t.find name with
  | some d => .ok (d.body.map fun l => l.substitute d.params args)
  | none => .error ⟨.undefinedMacro, name⟩

/-- The lines of an expansion with the label of its invocation. DESIGN CHOICE (log entry 21): the spec does not say what
such a label stands for; here it goes to the first line emitted, and is refused as LineParseError where there is none
or it has a label. -/
def labelExpansion : Option Token → List Line → Except AsmError (List Line)
  | none, x => .ok x
  | some t, ⟨none, s⟩ :: r => .ok (⟨some t, s⟩ :: r)
  | some t, _ => .error ⟨.lineParseError, t⟩

/-- A line outside a definition, with the macros defined before it (R102): an invocation is replaced by its expansion,
and so is an instruction line whose mnemonic is a macro name, with its one operand or none; any other line stays. -/
def expandInvocation (t : MacroTable) (l : Line) : Except AsmError (List Line) :=
  let invoked (name : Token) (args : List Token) : Except AsmError (List Line) :=
    match t.invoke name args with
    | .ok x => labelExpansion l.label x
    | .error e => .error e
  match l.stmt with
  | .invocation name os => invoked name os
  | .instr m o => if (t.find m).isSome then invoked m o.toList else .ok [l]
  | .directive _ _ => .ok [l]

/-- R102: the stream without its definitions and with its invocations expanded, in one pass. `opened` is the definition
whose body is being read. DESIGN CHOICE (log entry 21): a `.macro` line without a name and an `.endmacro` line with
operands are InvalidDirectiveOperands, and a definition without its `.endmacro` is InvalidDirective. -/
def expandMacros (t : MacroTable) : Option (Token × MacroDef) → List Line → Except AsmError (List Line)
  | none, [] => .ok []
  | some (name, _), [] => .error ⟨.invalidDirective, name⟩
  | some (name, d), l :: r =>
    match l.stmt with
    | .directive n os =>
      if n = "endmacro".toList then
        match os with
        | [] => unlabelled l (expandMacros (t.define name d) none r)
        | o :: _ => .error ⟨.invalidDirectiveOperands, o⟩
      else expandMacros t (some (name, { d with body := d.body ++ [l] })) r
    | .instr _ _ | .invocation _ _ => expandMacros t (some (name, { d with body := d.body ++ [l] })) r
  | none, l :: r =>
    match l.stmt with
    | .directive n os =>
      if n = "macro".toList then
        match os with
        | name :: params => unlabelled l (expandMacros t (some (name, ⟨params, []⟩)) r)
        | [] => .error ⟨.invalidDirectiveOperands, n⟩
      else appendAnswers (expandInvocation t l) (expandMacros t none r)
    | .instr _ _ | .invocation _ _ => appendAnswers (expandInvocation t l) (expandMacros t none r)

/-! ## Programs -/

/-- The lines of `.space` (R101): an operand that is missing, negative or no number is InvalidDirective, a second one is
a wrong count, InvalidDirectiveOperands (R100). That a `#` may lead the number is log entry 16. -/
def spaceLines (name : Token) : List Token → Except AsmError (List Line)
  | [] => .error ⟨.invalidDirective, name⟩
  | [k] =>
    match intOfToken (match k with | '#' :: r => r | r => r) with
    | some n =>
      if 0 ≤ n then .ok (List.replicate n.natAbs { stmt := .directive "fill".toList ["0".toList] })
      else .error ⟨.invalidDirective, k⟩
    | none => .error ⟨.invalidDirective, k⟩
  | _ :: x :: _ => .error ⟨.invalidDirectiveOperands, x⟩

/-- R100, R101: `.space` expanded in place, bare comments dropped, `.fill` kept; any other directive is an error. -/
def expandDirective (l : Line) : Except AsmError (List Line) :=
  match l.stmt with
  | .directive name os =>
    if name = [] then unlabelled l (.ok [])
    else if name = "space".toList then unlabelled l (spaceLines name os)
    else if name = "fill".toList then .ok [l]
    else .error ⟨.invalidDirective, name⟩
  | .instr _ _ | .invocation _ _ => .ok [l]

/-- The stream of the lines that emit a word; a line's position in it is its word's address (R103). -/
def expandDirectives : List Line → Except AsmError (List Line)
  | [] => .ok []
  | l :: r => appendAnswers (expandDirective l) (expandDirectives r)

/-- The label table of an expanded stream from position `pos` on. -/
def collectLabels (t : LabelTable) (pos : Nat) : List Line → Except AsmError LabelTable
  | [] => .ok t
  | l :: r =>
    match l.label with
    | none => collectLabels t (pos + 1) r
    | some name =>
      match t.add name pos with
      | .ok t' => collectLabels t' (pos + 1) r
      | .error k => .error ⟨k, name⟩

/-- The word of a line of the expanded stream; a mnemonic the encoder does not know is an invalid opcode (R99). DESIGN
CHOICE (log entry 21): an invocation that is left over, which only a macro's body can hold since expansion does not
recur, is LineParseError. -/
def encodeLine (t : LabelTable) (pos : Nat) (l : Line) : Except AsmError Word :=
  match l.stmt with
  | .instr m o =>
    match Mnemonic.ofToken m with
    | some x => naming (o.getD m) (encodeTokens t pos x o)
    | none => .error ⟨.invalidOpcode, m⟩
  | .directive name [o] =>
    if name = "fill".toList then naming o (encodeFill t pos o) else .error ⟨.invalidDirective, name⟩
  | .directive name [] => .error ⟨.invalidDirectiveOperands, name⟩
  | .directive _ (_ :: x :: _) => .error ⟨.invalidDirectiveOperands, x⟩
  | .invocation name _ => .error ⟨.lineParseError, name⟩

/-- The words of an expanded stream from position `pos` on. -/
def encodeLines (t : LabelTable) (pos : Nat) : List Line → Except AsmError (List Word)
  | [] => .ok []
  | l :: r => appendAnswers ((encodeLine t pos l).map fun w => [w]) (encodeLines t (pos + 1) r)

/-- A program's words, from address 0 up (R103). Any error ends the pass, and no words come out (R109). DESIGN CHOICE
(log entry 22): the spec does not say which error a program with several faulty lines reports; here the passes are
macros, directives, labels and encoding, in this order, and the first line at fault in the first pass at fault is
reported. -/
def assemble (ls : List Line) : Except AsmError (List Word) :=
  match expandMacros [] none ls with
  | .error e => .error e
  | .ok ms =>
    match expandDirectives ms with
    | .error e => .error e
    | .ok xs =>
      match collectLabels {} 0 xs with
      | .error e => .error e
      | .ok t => encodeLines t 0 xs

end Sys2Proof.Machine
end

