-- ==== Sys2Proof/Machine/Tape.lean ====
section
/-! DEFINITION. The tape image: the mapping of punches to the bits of a word (20_memory.md R60) and where reading
stops (R61). The header text, the column offsets and the two non-content lines of a block are not in the source
(91_not_in_source.md), so a block here is its content lines (log entry 17). -/

namespace Sys2Proof.Machine

/-- One content line: a punch (true) or a blank in each of its three column groups. -/
structure TapeRow where
  g1 : Bool
  g2 : Bool
  g3 : Bool
deriving DecidableEq, Repr

/-- A tape: whether its header is well formed, and its word blocks, each the list of its content lines from row 6
down. -/
structure Tape where
  headerOk : Bool
  blocks   : List (List TapeRow)
deriving DecidableEq, Repr

/-- R60: row i carries bit i-1 in group 1, bit i+5 in group 2 and bit i+11 in group 3. -/
def wordOfRows (r6 r5 r4 r3 r2 r1 : TapeRow) : Word :=
  BitVec.ofBool r6.g3 ++ BitVec.ofBool r5.g3 ++ BitVec.ofBool r4.g3 ++ BitVec.ofBool r3.g3 ++ BitVec.ofBool r2.g3
    ++ BitVec.ofBool r1.g3
    ++ BitVec.ofBool r6.g2 ++ BitVec.ofBool r5.g2 ++ BitVec.ofBool r4.g2 ++ BitVec.ofBool r3.g2 ++ BitVec.ofBool r2.g2
    ++ BitVec.ofBool r1.g2
    ++ BitVec.ofBool r6.g1 ++ BitVec.ofBool r5.g1 ++ BitVec.ofBool r4.g1 ++ BitVec.ofBool r3.g1 ++ BitVec.ofBool r2.g1
    ++ BitVec.ofBool r1.g1

/-- Row `i` (1 to 6) of a word. -/
def tapeRow (w : Word) (i : Nat) : TapeRow := ⟨w.getLsbD (i - 1), w.getLsbD (i + 5), w.getLsbD (i + 11)⟩

/-- The block of a word, row 6 first. -/
def blockOfWord (w : Word) : List TapeRow :=
  [tapeRow w 6, tapeRow w 5, tapeRow w 4, tapeRow w 3, tapeRow w 2, tapeRow w 1]

/-- R61: reading stops at the first malformed block, which is the end of input and no error. -/
def readBlocks : List (List TapeRow) → List Word
  | [r6, r5, r4, r3, r2, r1] :: rest => wordOfRows r6 r5 r4 r3 r2 r1 :: readBlocks rest
  | _ => []

/-- R61: a malformed header is the end of input too. -/
def readTape (t : Tape) : List Word := if t.headerOk then readBlocks t.blocks else []

/-- The tape of a list of words. -/
def tapeOf (ws : List Word) : Tape := ⟨true, ws.map blockOfWord⟩

end Sys2Proof.Machine
end

