-- ==== Sys2Proof/Machine/Launch.lean ====
section
/-! DEFINITION. Construction, the machine's one reset (70_reset_and_hazards.md R305, R308): the launch state of
10_state.md R36 for every configuration, every launch input and every tape. -/

namespace Sys2Proof.Machine

/-- What the host gives at construction (60_exceptions.md R303) and the launch inputs of 00_scope.md R5. Every
default is the reference value. -/
structure Launch where
  /-- The decision parameters and `P_MEM_WORDS`. -/
  cfg    : Config := Config.default
  /-- `P_EXTEND`. -/
  extend : Bool := false
  /-- `P_SS[1..6]`. -/
  ss     : Six := {}
  /-- `L_AC`. -/
  ac     : Word := 0
  /-- `L_IO`. -/
  io     : Word := 0
  /-- `L_OV`. -/
  ov     : Bool := false
  /-- `L_PF[1..6]`. -/
  pf     : Six := {}
  /-- The words of the tape image, word k for address k. -/
  tape   : List Word := []
  /-- `L_MEM`: the words of the addresses after the tape's, in order; after them the reference value 0 (log entry
  18). -/
  lMem   : List Word := []
deriving DecidableEq, Repr

/-- The canonical memory that holds a list of words from address `a` up. -/
def Memory.ofWords : Nat → List Word → Memory
  | _, [] => []
  | a, w :: r => if w = Memory.unlisted then Memory.ofWords (a + 1) r else (a, w) :: Memory.ofWords (a + 1) r

/-- The words of memory at launch, from address 0, no more than memory holds (R36). -/
def Launch.image (l : Launch) : List Word := l.tape ++ l.lMem.take (l.cfg.memSize.words - l.tape.length)

/-- The launch state (R36); none for a tape of more than S words, which the spec refuses (20_memory.md R61). -/
def Launch.start (l : Launch) : Option State :=
  if l.tape.length ≤ l.cfg.memSize.words then
    some
      { ac := l.ac, io := l.io, pc := 0, ov := l.ov, pf := l.pf, ss := l.ss, ext := l.extend, run := .running,
        mem := Memory.ofWords 0 l.image, cfg := l.cfg }
  else none

end Sys2Proof.Machine
end

