-- ==== Sys2Proof/Safety.lean ====
section
/-! DEFINITION. What claims are stated in: the invariant of every legal state, the four outcomes of a step
(40_execution_cycle.md R120) and the ends of a run (70_reset_and_hazards.md R316). -/

namespace Sys2Proof.Machine

/-- A legal state: core memory in its canonical form and inside the memory the machine was built with, and the PC
below `2^W` (00_scope.md R6, 10_state.md R24, R34). -/
def State.inv (s : State) : Bool :=
  s.mem.wf && s.mem.within s.size && (s.ext || decide (s.pc.toNat < 4096))

/-- The instruction whose effect a step has: an xct's target, any other instruction itself. -/
def effective (j : Instr) (s : State) : Instr :=
  match asXct j with
  | none => j
  | some (i, y) =>
    match xctNest s xctBound i y with
    | .target k => k
    | .never _ => j

/-- The fault is one of the two hangs (40_execution_cycle.md R130). -/
def Fault.isHang : Fault → Bool
  | .hangIndirectCycle | .hangXctCycle => true
  | .illegalOpcode _ _ | .illegalSubop _ _ | .unimplemented _ _ | .fetchOutOfRange _ _ => false

/-- The state a fault leaves (60_exceptions.md R287); a hang leaves none. -/
def Fault.left? : Fault → Option State
  | .illegalOpcode _ s | .illegalSubop _ s | .unimplemented _ s | .fetchOutOfRange _ s => some s
  | .hangIndirectCycle | .hangXctCycle => none

/-- The outcomes of R120. -/
inductive StepEnd where
  | continued
  | idle
  | fault
  | hang
deriving DecidableEq, Repr

/-- The outcome of a step (R120); none for a refusal, which no step of this machine answers. -/
def stepEnd (s : State) : Option StepEnd :=
  match s.run with
  | .halted => some .idle
  | .running =>
    match step s with
    | .next _ => some .continued
    | .fault f => some (if f.isHang then .hang else .fault)
    | .refused _ => none

/-- A run of `n` steps from `s`. -/
def runFor (n : Nat) (s : State) : Result := core.run n s

/-- R316: the halted end, with its final state. -/
def HaltsIn (s t : State) : Prop := ∃ n, runFor n s = .next t ∧ t.run = .halted

/-- R316: the fault end. -/
def FaultsWith (s : State) (f : Fault) : Prop := ∃ n, runFor n s = .fault f ∧ f.isHang = false

/-- R316: the hang. -/
def HangsWith (s : State) (f : Fault) : Prop := ∃ n, runFor n s = .fault f ∧ f.isHang = true

/-- R316: divergence: every step completes with Continue, forever. -/
def Diverges (s : State) : Prop := ∀ n, ∃ t, runFor n s = .next t ∧ t.run = .running

end Sys2Proof.Machine
end

