-- ==== Sys2Proof/Certificates/Slice0/Obligations.lean ====
section
/-! DEFINITION. The statements for the provers. First the words they are said in, then one definition for each. A
statement about a next state gives that state field by field as a record update of the state before, so that it states
the instruction's frame too. "The spec's own decision D<n>" is a row of 92_eei_decisions.md. -/

namespace Sys2Proof.Claims

open Sys2Proof.Machine

/-- `(PC + 1) mod 2^W` (10_state.md R25). -/
def plusOne (s : State) : PcVal := BitVec.ofNat 16 ((s.pc.toNat + 1) % if s.ext then 65536 else 4096)

/-- `cat(OV:1, EXT:1, zext_16(PC))` as a number (10_state.md R33). -/
def returnValue (s : State) : Word :=
  BitVec.ofNat 18 ((if s.ov then 131072 else 0) + (if s.ext then 65536 else 0) + s.pc.toNat)

/-- A memory-reference word from its row's match, its indirect bit and its address (30_encoding.md R69). -/
def refWord (rowMatch : Nat) (i : Bool) (y : Addr) : Word :=
  BitVec.ofNat 18 (rowMatch + (if i then 0o010000 else 0) + y.toNat)

/-- A word with an `n`-bit field in its low bits (30_encoding.md R71, R72, R74). -/
def fieldWord {n : Nat} (rowMatch : Nat) (f : BitVec n) : Word := BitVec.ofNat 18 (rowMatch + f.toNat)

/-- A skip word: its row's match, the condition bits 6 to 10, the switch index at 5..3 and the flag index at 2..0
(30_encoding.md R73, R81). -/
def skipGroupWord (rowMatch : Nat) (c : Conds) (k f : BitVec 3) : Word :=
  BitVec.ofNat 18 (rowMatch + (if c.za then 0o100 else 0) + (if c.pa then 0o200 else 0) + (if c.ma then 0o400 else 0)
    + (if c.zo then 0o1000 else 0) + (if c.pi then 0o2000 else 0) + 8 * k.toNat + f.toNat)

/-- The primary opcode of a word as a number (30_encoding.md R66). -/
def opNumber (w : Word) : Nat := w.toNat / 8192 * 2

/-- The memory-reference instructions of 30_encoding.md R69. -/
def memoryReference : List (Bool → Addr → Instr) :=
  [.and, .ior, .xor, .xct, .lac, .lio, .dac, .dap, .dip, .dio, .dzm, .add, .sub, .idx, .isp, .sad, .sas, .mul, .div,
    .jmp, .jsp]

/-- The memory-reference mnemonics of the assembler, but for cal and jda, with their instructions (30_encoding.md
R92). -/
def assembledReferences : List (Mnemonic × (Bool → Addr → Instr)) :=
  [(.and, .and), (.ior, .ior), (.xor, .xor), (.xct, .xct), (.lac, .lac), (.lio, .lio), (.dac, .dac), (.dap, .dap),
    (.dip, .dip), (.dio, .dio), (.dzm, .dzm), (.add, .add), (.sub, .sub), (.idx, .idx), (.isp, .isp), (.sad, .sad),
    (.sas, .sas), (.mul, .mul), (.div, .div), (.jmp, .jmp), (.jsp, .jsp)]

/-- The operands of 30_encoding.md R92 and the address each puts into the word: `#n` from 0 to 511, or a label reference,
of whose resolved address the low 9 bits. -/
def Addresses (t : LabelTable) (cur : Nat) (o : Operand) (v : Addr) : Prop :=
  (∃ n : Nat, n ≤ 511 ∧ o = .imm n ∧ v = BitVec.ofNat 12 n) ∨
  ∃ ref p, o = .label ref ∧ t.resolveToken ref cur = .ok p ∧ v = BitVec.ofNat 12 (p % 512)

/-- The illegal primary opcodes' rows. -/
def isIllegalOpcode : Instr → Bool
  | .illegalOp00 _ | .illegalOp12 _ | .illegalOp14 _ | .illegalOp36 _ | .illegalOp74 _ => true
  | _ => false

/-- The illegal sub-operations' rows. -/
def isIllegalSubop : Instr → Bool
  | .illegalShift _ _ _ | .illegalSkip _ _ | .illegalOperateBit _ | .illegalOperateField _ => true
  | _ => false

/-- The instructions that write AC (10_state.md R21). -/
def writesAc : Instr → Bool
  | .add _ _ | .sub _ _ | .idx _ _ | .isp _ _ | .and _ _ | .xor _ _ | .ior _ _ | .lac _ _ | .jsp _ _ | .cal _
  | .jda _ | .law _ | .ral _ | .rar _ | .sal _ | .sar _ | .rcl _ | .rcr _ | .scl _ | .scr _ | .lap | .cma | .cla => true
  | _ => false

/-- The instructions that write IO (10_state.md R22). -/
def writesIo : Instr → Bool
  | .lio _ _ | .ril _ | .rir _ | .sil _ | .sir _ | .rcl _ | .rcr _ | .scl _ | .scr _ | .cli => true
  | _ => false

/-- The instructions that write OV: add, sub and the skip words with the zo bit (10_state.md R27). -/
def writesOv : Instr → Bool
  | .add _ _ | .sub _ _ | .szo | .snzo => true
  | .skp c _ _ | .skpn c _ _ => c.zo
  | _ => false

/-- The instructions that write PF (10_state.md R28). -/
def writesPf : Instr → Bool
  | .stf _ | .clf _ => true
  | _ => false

/-- The instructions that write memory (20_memory.md R50). -/
def stores : Instr → Bool
  | .idx _ _ | .isp _ _ | .dac _ _ | .dap _ _ | .dip _ _ | .dio _ _ | .dzm _ _ | .cal _ | .jda _ => true
  | _ => false

/-- Whether an instruction other than xct completes: a memory-reference instruction whose chain ends, law where it
has an execution meaning, and everything that is neither illegal nor unimplemented. -/
def completesPlain (s : State) : Instr → Bool
  | .and i y | .ior i y | .xor i y | .lac i y | .lio i y | .dac i y | .dap i y | .dip i y | .dio i y | .dzm i y
  | .add i y | .sub i y | .idx i y | .isp i y | .sad i y | .sas i y | .jmp i y | .jsp i y => (s.ea i y).isSome
  | .law _ => s.cfg.lawExec == .sext13
  | .xct _ _ | .mul _ _ | .div _ _ | .iot _ | .lat | .illegalOp00 _ | .illegalOp12 _ | .illegalOp14 _ | .illegalOp36 _
  | .illegalOp74 _ | .illegalShift _ _ _ | .illegalSkip _ _ | .illegalOperateBit _ | .illegalOperateField _ => false
  | .cal _ | .jda _ | .ral _ | .ril _ | .rcl _ | .sal _ | .sil _ | .scl _ | .rar _ | .rir _ | .rcr _ | .sar _ | .sir _
  | .scr _ | .sza | .snza | .spa | .snpa | .sma | .snma | .szo | .snzo | .spi | .snpi | .skp _ _ _ | .skpn _ _ _
  | .szs _ | .szf _ | .nop | .cla | .cli | .cma | .lap | .hlt | .stf _ | .clf _ => true

/-- Whether an instruction completes: for an xct, whether its nest ends at an instruction that does. -/
def completes (s : State) (j : Instr) : Bool := completesPlain s (effective j s)

/-- The address after `n` links of an indirect chain from `a` (40_execution_cycle.md R124). -/
def link (m : Memory) : Nat → Addr → Addr
  | 0, a => a
  | n + 1, a => link m n (BitVec.ofNat 12 (m.read a.toNat).toNat)

/-- Bit 12 of the word at an address is set. -/
def linked (m : Memory) (a : Addr) : Prop := (m.read a.toNat).getLsbD 12 = true

/-- The xct after `n` levels of nesting, if there are so many (44_memref_control.md R201). -/
def nested (s : State) : Nat → Bool × Addr → Option (Bool × Addr)
  | 0, p => some p
  | n + 1, p =>
    match s.ea p.1 p.2 with
    | none => none
    | some a =>
      match asXct (decode (s.memRead a)) with
      | none => none
      | some q => nested s n q

/-- The condition of szs and szf, flag by flag (47_skip.md R246, R247). -/
def testsClear (x : Six) (k : Nat) : Prop :=
  (k = 1 ∧ x.f1 = false) ∨ (k = 2 ∧ x.f2 = false) ∨ (k = 3 ∧ x.f3 = false) ∨ (k = 4 ∧ x.f4 = false)
    ∨ (k = 5 ∧ x.f5 = false) ∨ (k = 6 ∧ x.f6 = false)
    ∨ (k = 7 ∧ x.f1 = false ∧ x.f2 = false ∧ x.f3 = false ∧ x.f4 = false ∧ x.f5 = false ∧ x.f6 = false)

/-- The OR of the enabled conditions (47_skip.md R240). -/
def skipHolds (c : Conds) (k f : BitVec 3) (s : State) : Prop :=
  (c.za = true ∧ s.ac = 0) ∨ (c.pa = true ∧ s.ac.getLsbD 17 = false) ∨ (c.ma = true ∧ s.ac.getLsbD 17 = true)
    ∨ (c.zo = true ∧ s.ov = false) ∨ (c.pi = true ∧ s.io.getLsbD 17 = false) ∨ testsClear s.ss k.toNat
    ∨ testsClear s.pf f.toNat

/-- A skip-group word's outcome: a next state with OV cleared where zo is listed and the PC moved on where `p`
holds, all else unchanged. -/
def SkipsWhen (p : Prop) (zo : Bool) (s : State) (r : Result) : Prop :=
  (p → r = .next { s with ov := s.ov && !zo, pc := plusOne s }) ∧ (¬p → r = .next { s with ov := s.ov && !zo })

end Sys2Proof.Claims

open Sys2Proof Sys2Proof.Machine Sys2Proof.Claims

/-! ## Encoding -/

/-- Decoding the word of an instruction in its one spelling gives the instruction back, at every operand. The
spellings are the model's choice (log entry 12). -/
def Obligations.DecodeOfEncodeIsTheInstruction : Prop := ∀ j : Instr, j.wf = true → decode (encode j) = j

/-- Every word decodes to an instruction in its one spelling whose word it is: no bit is dropped (30_encoding.md
R87, which the spec derives; the spellings are log entry 12). -/
def Obligations.EncodeOfDecodeIsTheWord : Prop := ∀ w : Word, encode (decode w) = w ∧ (decode w).wf = true

/-- Which words are illegal: by primary opcode (30_encoding.md R84, decision D22) and by sub-encoding (R85, decisions
D17 and D18). -/
def Obligations.IllegalWordsAreThoseListed : Prop :=
  ∀ w : Word,
    (isIllegalOpcode (decode w) = true ↔ opNumber w ∈ [0o00, 0o12, 0o14, 0o36, 0o74]) ∧
    (isIllegalSubop (decode w) = true ↔
      (opNumber w = 0o66 ∧ w.getLsbD 10 = false ∧ w.getLsbD 9 = false) ∨ (opNumber w = 0o64 ∧ w.getLsbD 11 = true) ∨
      (opNumber w = 0o76 ∧ (w.getLsbD 12 = true ∨
        (0o20 ≤ w.toNat % 4096 ∧ w.toNat % 4096 ∉ [0o0200, 0o0300, 0o0400, 0o1000, 0o2200, 0o4000]))))

/-- Words written out from the spec's encodings decode to the instructions they stand for. -/
def Obligations.SampleWordsDecode : Prop :=
  decode 0o410025 = .add true 0o25 ∧ decode 0o200100 = .lac false 0o100 ∧ decode 0o170300 = .jda 0o300 ∧
  decode 0o717772 = .law 0o17772 ∧ decode 0o677007 = .scr 0o007 ∧ decode 0o651000 = .snzo ∧
  decode 0o640030 = .szs 3 ∧ decode 0o641100 = .skp { za := true, zo := true } 0 0 ∧ decode 0o760013 = .stf 3 ∧
  decode 0o000000 = .illegalOp00 0 ∧ decode 0o764200 = .illegalOperateField 0o4200

/-- An instruction acts as the decoder's spelling of its word acts, so `skp za` is sza, `clf 0` is nop and `szs 0`
never skips. Left out is only the illegal operate word with a field that the table of 30_encoding.md R83 assigns. -/
def Obligations.SpellingsOfOneWordActAlike : Prop :=
  ∀ (j : Instr) (s : State), (∀ m, j = .illegalOperateField m → knownMicroOp m = false) →
    exec (decode (encode j)) s = exec j s

/-! ## The cycle -/

/-- A step in Running with the PC inside memory executes the word at the PC, with the PC advanced modulo `2^W`
(40_execution_cycle.md R121; that the PC advances first is the spec's own decision D32). -/
def Obligations.StepExecutesTheFetchedWord : Prop :=
  ∀ s : State, s.run = .running → s.pc.toNat < s.cfg.memSize.words →
    step s = exec (decode (s.mem.read s.pc.toNat)) { s with pc := plusOne s }

/-- R31: the initial state is Running with PC = 0; a step in Halted changes nothing and is Idle; a step in Running ends in Halted
exactly when it executed hlt. -/
def Obligations.OnlyHltHaltsAndHaltedStays : Prop :=
  (State.reset.run = .running ∧ State.reset.pc = 0) ∧ (∀ s : State, s.run = .halted → step s = .next s ∧ stepEnd s = some .idle) ∧
  ∀ s t : State, s.run = .running → step s = .next t →
    (t.run = .halted ↔ ∃ w, s.fetch = some w ∧ effective (decode w) s.advance = .hlt)

/-- A fetch at or above S faults and changes nothing; a legal state without extend mode never does
(40_execution_cycle.md R122, the spec's own decision D25). -/
def Obligations.FetchOutsideMemoryFaults : Prop :=
  (∀ s : State, s.run = .running → s.cfg.memSize.words ≤ s.pc.toNat → step s = .fault (.fetchOutOfRange s.pc s)) ∧
  ∀ s : State, s.inv = true → s.ext = false → s.pc.toNat < s.cfg.memSize.words

/-- A word placed where the next step fetches is the word the next step executes (log entry 13). -/
def Obligations.PlacedWordRunsNext : Prop :=
  ∀ (s : State) (nbits w : Nat),
    step (s.withFetchWord nbits w) = exec (decode (BitVec.ofNat 18 w)) (s.withFetchWord nbits w).advance

/-- Every step has one of the four outcomes of 40_execution_cycle.md R120: nothing is refused. -/
def Obligations.EveryStepHasAnOutcome : Prop :=
  ∀ s : State, (∀ r, step s ≠ .refused r) ∧ (stepEnd s).isSome = true ∧
    (stepEnd s = some .idle ↔ s.run = .halted) ∧
    (stepEnd s = some .hang ↔ s.run = .running ∧
      (step s = .fault .hangIndirectCycle ∨ step s = .fault .hangXctCycle))

/-- Faults are precise: a fault leaves the state as it was with only the PC advanced, a fetch fault leaves it
unchanged, a hang leaves none (60_exceptions.md R287, R288; decision D30). -/
def Obligations.FaultsArePrecise : Prop :=
  ∀ (s : State) (f : Fault), step s = .fault f →
    (f.isHang = true ∧ f.left? = none) ∨ f = .fetchOutOfRange s.pc s ∨ f.left? = some { s with pc := plusOne s }

/-! ## The whole machine -/

/-- Every step keeps a legal state legal: memory canonical and inside its size, the PC below `2^W`. -/
def Obligations.StepKeepsLegalStates : Prop := ∀ s t : State, s.inv = true → step s = .next t → t.inv = true

/-- The state after reset is legal, and it is the launch state of the reference inputs (10_state.md R36; the
reference values are log entries 3 to 5). -/
def Obligations.ResetIsLegal : Prop := State.reset.inv = true ∧ Launch.start {} = some State.reset

/-- The launch state holds the launch inputs and the tape's words from address 0 up, and is legal; a tape of more
than S words has none (10_state.md R36, decisions D26 and D27; what follows the tape is log entry 18). -/
def Obligations.LaunchHoldsItsInputs : Prop :=
  ∀ l : Launch,
    (l.start = none ↔ l.cfg.memSize.words < l.tape.length) ∧
    ∀ s, l.start = some s →
      s.inv = true ∧ s.run = .running ∧ s.pc = 0 ∧ s.ac = l.ac ∧ s.io = l.io ∧ s.ov = l.ov ∧ s.pf = l.pf ∧
      s.ss = l.ss ∧ s.ext = l.extend ∧ s.cfg = l.cfg ∧
      (∀ k (h : k < l.tape.length), s.mem.read k = l.tape[k]) ∧
      ∀ k, k < l.cfg.memSize.words - l.tape.length →
        s.mem.read (l.tape.length + k) = (l.lMem[k]?).getD Memory.unlisted

/-- No step changes the sense switches, extend mode or the configuration (10_state.md R29, R30, R37; decision
D28). -/
def Obligations.NoStepChangesTheConstruction : Prop :=
  ∀ s t : State, step s = .next t → t.ss = s.ss ∧ t.ext = s.ext ∧ t.cfg = s.cfg

/-- AC, IO, OV, PF and RUN are written only by the instructions 10_state.md R21, R22, R27, R28 and R31 list; under
xct the instruction that counts is the executed one. -/
def Obligations.RegistersHaveTheirListedWriters : Prop :=
  ∀ (j : Instr) (s t : State), exec j s = .next t →
    (t.ac ≠ s.ac → writesAc (effective j s) = true) ∧ (t.io ≠ s.io → writesIo (effective j s) = true) ∧
    (t.ov ≠ s.ov → writesOv (effective j s) = true) ∧ (t.pf ≠ s.pf → writesPf (effective j s) = true) ∧
    (t.run ≠ s.run → effective j s = .hlt)

/-- An instruction changes only words it writes by the access table of 20_memory.md R50 (the order there is the
spec's own decision D35; the list is log entry 14). -/
def Obligations.OnlyListedWritesChangeMemory : Prop :=
  ∀ (j : Instr) (s t : State) (a : Nat), exec j s = .next t → (∀ b, .write b ∈ accesses j s → b.toNat ≠ a) →
    t.mem.read a = s.mem.read a

/-- An instruction depends on memory only through the words it reads by the access table of 20_memory.md R50 (the order
there is the spec's own decision D35; the list is log entry 14, which is DEDUCED): with any other memory that agrees on
them, it completes alike. -/
def Obligations.OnlyListedReadsMatter : Prop :=
  ∀ (j : Instr) (s t : State) (m : Memory), exec j s = .next t →
    (∀ a, .read a ∈ accesses j s → m.read a.toNat = s.mem.read a.toNat) →
    ∃ u, exec j { s with mem := m } = .next u ∧ u.ac = t.ac ∧ u.io = t.io ∧ u.pc = t.pc ∧ u.ov = t.ov ∧
      u.pf = t.pf ∧ u.run = t.run ∧ ∀ a, .write a ∈ accesses j s → u.mem.read a.toNat = t.mem.read a.toNat

/-- R48: a write sets its word and nothing else, and the next read or fetch of it sees it. -/
def Obligations.WriteIsSeenByReadAndFetch : Prop :=
  ∀ (s : State) (a : Addr) (v : Word),
    (s.memWrite a v).memRead a = v ∧ (∀ b, b ≠ a.toNat → (s.memWrite a v).mem.read b = s.mem.read b) ∧
    (s.pc.toNat = a.toNat → (s.memWrite a v).fetch = some v) ∧ s.memWrite a v = { s with mem := (s.memWrite a v).mem }

/-- Canonical memories with the same words are equal data (log entry 1). -/
def Obligations.EqualWordsAreEqualMemories : Prop :=
  ∀ m m' : Memory, m.wf = true → m'.wf = true → (∀ a, m.read a = m'.read a) → m = m'

/-- Self-modifying code works at once: a word deposited at the next instruction's address is what the next step
executes (20_memory.md R59, which the spec derives). -/
def Obligations.DepositedInstructionRunsNext : Prop :=
  ∀ (s t : State) (i : Bool) (y a : Addr), s.run = .running → s.ea i y = some a → s.pc.toNat = a.toNat →
    exec (.dac i y) s = .next t → step t = exec (decode s.ac) { t with pc := plusOne s }

/-- Every run ends in exactly one way: halted, in a fault, in a hang, or never; and a halted end has one final state
(70_reset_and_hazards.md R316; decisions D29 and D30). -/
def Obligations.EveryRunHasOneEnd : Prop :=
  ∀ s : State,
    ((∃ t, HaltsIn s t) ∨ (∃ f, FaultsWith s f) ∨ (∃ f, HangsWith s f) ∨ Diverges s) ∧
    ¬((∃ t, HaltsIn s t) ∧ ∃ f, FaultsWith s f) ∧ ¬((∃ t, HaltsIn s t) ∧ ∃ f, HangsWith s f) ∧
    ¬((∃ t, HaltsIn s t) ∧ Diverges s) ∧ ¬((∃ f, FaultsWith s f) ∧ ∃ f, HangsWith s f) ∧
    ¬((∃ f, FaultsWith s f) ∧ Diverges s) ∧ ¬((∃ f, HangsWith s f) ∧ Diverges s) ∧
    ∀ t u, HaltsIn s t → HaltsIn s u → t = u

/-! ## The ALU -/

/-- R10 and R140: the signed reading and its inverse, the range, the two zeros, the sign bit, and negation by
complement. -/
def Obligations.SignedReadingOfWords : Prop :=
  (∀ w : Word, (w.getLsbD 17 = false → val w = w.toNat) ∧ (w.getLsbD 17 = true → val w = -((~~~w).toNat : Int)) ∧
    sign w = w.getLsbD 17 ∧ -131071 ≤ val w ∧ val w ≤ 131071 ∧ val (~~~w) = -val w) ∧
  (∀ n : Int, -131071 ≤ n → n ≤ 131071 →
    val (oc n) = n ∧ ((oc n).toNat : Int) = if 0 ≤ n then n else 0o777777 - |n|) ∧
  val 0o000000 = 0 ∧ val 0o777777 = 0 ∧ oc 0 = 0o000000

/-- R142: the 19-bit sum with its carry re-entering at bit 0, which never carries again. -/
def Obligations.RawSumIsEndAroundCarry : Prop :=
  ∀ a b : Word,
    (ocAddRaw a b).toNat = (a.toNat + b.toNat) % 262144 + (a.toNat + b.toNat) / 262144 ∧
    (a.toNat + b.toNat) % 262144 + (a.toNat + b.toNat) / 262144 < 262144 ∧
    (262144 ≤ a.toNat + b.toNat → (a.toNat + b.toNat) % 262144 ≤ 0o777776)

/-- The exactness law of addition: overflow exactly when the true sum leaves the range, the true sum otherwise, never
negative zero, and positive zero for every exact zero (41_alu.md R147, R148, which the spec derives; judging overflow
before normalisation is its decision D7). -/
def Obligations.AdditionIsExact : Prop :=
  ∀ a b : Word,
    ((ocAdd a b).2 = true ↔ 131071 < (val a + val b).natAbs) ∧ ((ocAdd a b).2 = false → val (ocAdd a b).1 = val a + val b) ∧
    ((ocAdd a b).2 = true → 0 < val a + val b → val (ocAdd a b).1 = val a + val b - 262143) ∧
    ((ocAdd a b).2 = true → val a + val b < 0 → val (ocAdd a b).1 = val a + val b + 262143) ∧
    (ocAdd a b).1 ≠ 0o777777 ∧ (val a + val b = 0 → ocAdd a b = (0, false))

/-- The exactness law of subtraction (41_alu.md R147; that sub adds the complement is the spec's own decision D6). -/
def Obligations.SubtractionIsExact : Prop :=
  ∀ a b : Word,
    ((ocSub a b).2 = true ↔ 131071 < (val a - val b).natAbs) ∧ ((ocSub a b).2 = false → val (ocSub a b).1 = val a - val b) ∧
    ((ocSub a b).2 = true → 0 < val a - val b → val (ocSub a b).1 = val a - val b - 262143) ∧
    ((ocSub a b).2 = true → val a - val b < 0 → val (ocSub a b).1 = val a - val b + 262143) ∧
    (ocSub a b).1 ≠ 0o777777 ∧ (val a - val b = 0 → ocSub a b = (0, false))

/-- The increment adds one, wraps from +131071 to -131071, and never gives negative zero (41_alu.md R149, the spec's
own decision D8). -/
def Obligations.IncrementAddsOne : Prop :=
  ∀ a : Word, (val a < 131071 → val (ocInc a) = val a + 1) ∧ (val a = 131071 → ocInc a = 0o400000) ∧
    ocInc a ≠ 0o777777

/-- R154: a rotate moves every bit round by its count; one place of a combined rotate left moves AC[17] into IO[0]
and IO[17] into AC[0]; a rotate by 0 changes nothing. -/
def Obligations.RotatesMoveEveryBit : Prop :=
  (∀ (a : Word) (n k : Nat), n ≤ 9 → k < 18 →
    (rotl18 a n).getLsbD ((k + n) % 18) = a.getLsbD k ∧ (rotr18 a n).getLsbD k = a.getLsbD ((k + n) % 18)) ∧
  (∀ (ac io : Word) (n k : Nat), n ≤ 9 → k < 36 →
    (rotl36 (cat36 ac io) n).getLsbD ((k + n) % 36) = (cat36 ac io).getLsbD k ∧
    (rotr36 (cat36 ac io) n).getLsbD k = (cat36 ac io).getLsbD ((k + n) % 36)) ∧
  (∀ (ac io : Word), acHalf (cat36 ac io) = ac ∧ ioHalf (cat36 ac io) = io ∧
    (ioHalf (rotl36 (cat36 ac io) 1)).getLsbD 0 = ac.getLsbD 17 ∧
    (acHalf (rotl36 (cat36 ac io) 1)).getLsbD 0 = io.getLsbD 17) ∧
  (∀ a : Word, rotl18 a 0 = a ∧ rotr18 a 0 = a) ∧ ∀ c : BitVec 36, rotl36 c 0 = c ∧ rotr36 c 0 = c

/-- The arithmetic shifts halve and double: a right shift divides the magnitude and keeps the sign, a left shift
multiplies while the magnitude fits (41_alu.md R160, which the spec derives from its own decision D13). -/
def Obligations.ShiftsDivideAndMultiply : Prop :=
  ∀ (a : Word) (n : Nat), n ≤ 9 →
    sign (sar a n) = sign a ∧ (val (sar a n)).natAbs = (val a).natAbs / 2 ^ n ∧ sign (sal a n) = sign a ∧
    ((val a).natAbs < 2 ^ (17 - n) → val (sal a n) = val a * 2 ^ n)

/-! ## Operands -/

/-- The indirect chain is decided exactly: it hangs if and only if no word on it has bit 12 clear; else the EA is the
address of the first such word under SOURCE, and that word's address field under PDP1 (40_execution_cycle.md R124 to
R126; the two settings are the spec's own decision D4). -/
def Obligations.IndirectChainsAreDecidedExactly : Prop :=
  ∀ (s : State) (y : Addr),
    (s.ea true y = none ↔ ∀ n, linked s.mem (link s.mem n y)) ∧
    ∀ n, (∀ k, k < n → linked s.mem (link s.mem k y)) → ¬linked s.mem (link s.mem n y) →
      (s.cfg.indirect = .source → s.ea true y = some (link s.mem n y)) ∧
      (s.cfg.indirect = .pdp1 → s.ea true y = some (link s.mem (n + 1) y))

/-- The nest of an xct is decided exactly: it is the xct cycle if and only if every level is another xct
(44_memref_control.md R201, which the spec derives). -/
def Obligations.XctCyclesAreDecidedExactly : Prop :=
  ∀ (s : State) (i : Bool) (y : Addr),
    exec (.xct i y) s = .fault .hangXctCycle ↔ ∀ n, (nested s n (i, y)).isSome = true

/-- Every memory-reference instruction hangs on a cyclic chain, and the direct form never does
(40_execution_cycle.md R124, R126, R127; for mul and div the spec's own decision D21). -/
def Obligations.CyclicChainHangsEveryMemoryReference : Prop :=
  ∀ c ∈ memoryReference, ∀ (i : Bool) (y : Addr) (s : State),
    (s.ea i y = none → exec (c i y) s = .fault .hangIndirectCycle) ∧ s.ea false y = some y

/-- R78: the shift count is the number of 1 bits of the mask, 0 to 9, whichever they are; the assembler writes
`(1 << N) - 1`. -/
def Obligations.ShiftCountIsThePopulationCount : Prop :=
  (∀ m : BitVec 9, shiftCount m = ((List.range 9).filter fun k => m.getLsbD k).length ∧ shiftCount m ≤ 9) ∧
  ∀ (t : LabelTable) (cur N : Nat) (mn : Mnemonic) (sub : BitVec 9), mn.kind = .shift sub → N ≤ 9 →
    encodeInstr t cur mn false (some (.imm N)) = .ok (shiftWord sub (BitVec.ofNat 9 (2 ^ N - 1))) ∧
    shiftCount (BitVec.ofNat 9 (2 ^ N - 1)) = N

/-! ## What each instruction does -/

/-- R165: add. The numeric opcode is the spec's own decision D2. -/
def Obligations.AddResult : Prop :=
  (∀ i y, decode (refWord 0o400000 i y) = .add i y) ∧
  (∀ (s : State) (i : Bool) (y a : Addr), s.ea i y = some a →
    exec (.add i y) s = .next
      { s with
        ac := (ocAdd s.ac (s.mem.read a.toNat)).1
        ov := if (ocAdd s.ac (s.mem.read a.toNat)).2 then true else if s.cfg.ovSticky then s.ov else false }) ∧
  (∀ (s : State) (i : Bool) (y : Addr), s.ea i y = none → exec (.add i y) s = .fault .hangIndirectCycle) ∧
  (∀ a b : Word, (ocAdd a b).1 ≠ 0o777777) ∧ ocAdd 0o377777 0o000001 = (0o400000, true) ∧
  ocAdd 0o777777 0o777777 = (0, false) ∧ ocAdd 0o000005 0o777772 = (0, false)

/-- sub, with its words (42_memref_arith.md R166; the spec's own decisions D2 and D6). -/
def Obligations.SubResult : Prop :=
  (∀ i y, decode (refWord 0o420000 i y) = .sub i y) ∧
  ∀ (s : State) (i : Bool) (y a : Addr), s.ea i y = some a →
    exec (.sub i y) s = .next
      { s with
        ac := (ocAdd s.ac (~~~(s.mem.read a.toNat))).1
        ov := if (ocAdd s.ac (~~~(s.mem.read a.toNat))).2 then true else if s.cfg.ovSticky then s.ov else false }

/-- mul and div, with their words, stop on every path: in the Unimplemented fault with their word, after their chain
(42_memref_arith.md R167, R168; the spec's own decisions D2 and D21). -/
def Obligations.MulAndDivFaultAfterTheirChain : Prop :=
  (∀ i y, decode (refWord 0o540000 i y) = .mul i y ∧ decode (refWord 0o560000 i y) = .div i y) ∧
  ∀ (s : State) (i : Bool) (y a : Addr), s.ea i y = some a →
    exec (.mul i y) s = .fault (.unimplemented (refWord 0o540000 i y) s) ∧
    exec (.div i y) s = .fault (.unimplemented (refWord 0o560000 i y) s)

/-- idx and isp, with their words: the increment goes to the word at EA and to AC, and isp skips when its bit 17 is 0
(42_memref_arith.md R169, R170; the spec's own decisions D2 and D8). -/
def Obligations.IdxAndIspResults : Prop :=
  (∀ i y, decode (refWord 0o440000 i y) = .idx i y ∧ decode (refWord 0o460000 i y) = .isp i y) ∧
  ∀ (s : State) (i : Bool) (y a : Addr), s.ea i y = some a →
    exec (.idx i y) s = .next
      { s with ac := ocInc (s.mem.read a.toNat), mem := s.mem.write a.toNat (ocInc (s.mem.read a.toNat)) } ∧
    exec (.isp i y) s = .next
      { s with
        ac := ocInc (s.mem.read a.toNat)
        mem := s.mem.write a.toNat (ocInc (s.mem.read a.toNat))
        pc := if (ocInc (s.mem.read a.toNat)).getLsbD 17 then s.pc else plusOne s }

/-- R180 to R184: and, xor, ior, lac, lio. The numeric opcodes are the spec's own decision D2. -/
def Obligations.LogicAndLoadResults : Prop :=
  (∀ i y, decode (refWord 0o020000 i y) = .and i y ∧ decode (refWord 0o060000 i y) = .xor i y ∧
    decode (refWord 0o040000 i y) = .ior i y ∧ decode (refWord 0o200000 i y) = .lac i y ∧
    decode (refWord 0o220000 i y) = .lio i y) ∧
  (∀ (s : State) (i : Bool) (y a : Addr), s.ea i y = some a →
    exec (.and i y) s = .next { s with ac := s.ac &&& s.mem.read a.toNat } ∧
    exec (.xor i y) s = .next { s with ac := s.ac ^^^ s.mem.read a.toNat } ∧
    exec (.ior i y) s = .next { s with ac := s.ac ||| s.mem.read a.toNat } ∧
    exec (.lac i y) s = .next { s with ac := s.mem.read a.toNat } ∧
    exec (.lio i y) s = .next { s with io := s.mem.read a.toNat }) ∧
  (∀ (s : State) (i : Bool) (y : Addr), s.ea i y = none →
    exec (.and i y) s = .fault .hangIndirectCycle ∧ exec (.xor i y) s = .fault .hangIndirectCycle ∧
    exec (.ior i y) s = .fault .hangIndirectCycle ∧ exec (.lac i y) s = .fault .hangIndirectCycle ∧
    exec (.lio i y) s = .fault .hangIndirectCycle) ∧
  (0o777777#18 &&& 0o777777#18 = 0o777777#18 ∧ (∀ w : Word, w ^^^ 0o777777 = ~~~w ∧ w ^^^ w = 0) ∧
    0o707070#18 &&& 0o770077#18 = 0o700070#18 ∧ 0o707070#18 ^^^ 0o770077#18 = 0o077007#18 ∧
    0o707070#18 ||| 0o770077#18 = 0o777077#18) ∧
  ∀ n : Nat, n ≤ 511 →
    encodeInstr {} 0 .lac false (some (.imm n)) = .ok (refWord 0o200000 false (BitVec.ofNat 12 n))

/-- R185, R186, R188, R189: dac, dap, dio, dzm. The numeric opcodes are the spec's own decision D2. -/
def Obligations.DepositResults : Prop :=
  (∀ i y, decode (refWord 0o240000 i y) = .dac i y ∧ decode (refWord 0o260000 i y) = .dap i y ∧
    decode (refWord 0o320000 i y) = .dio i y ∧ decode (refWord 0o340000 i y) = .dzm i y) ∧
  (∀ (s : State) (i : Bool) (y a : Addr), s.ea i y = some a →
    exec (.dac i y) s = .next { s with mem := s.mem.write a.toNat s.ac } ∧
    exec (.dap i y) s = .next
      { s with mem := s.mem.write a.toNat ((s.mem.read a.toNat &&& 0o770000) ||| (s.ac &&& 0o007777)) } ∧
    exec (.dio i y) s = .next { s with mem := s.mem.write a.toNat s.io } ∧
    exec (.dzm i y) s = .next { s with mem := s.mem.write a.toNat 0 }) ∧
  (∀ (s : State) (i : Bool) (y : Addr), s.ea i y = none →
    exec (.dac i y) s = .fault .hangIndirectCycle ∧ exec (.dap i y) s = .fault .hangIndirectCycle ∧
    exec (.dio i y) s = .fault .hangIndirectCycle ∧ exec (.dzm i y) s = .fault .hangIndirectCycle) ∧
  (∀ (s t : State) (i : Bool) (y a : Addr), s.ea i y = some a → s.pc.toNat = a.toNat →
    (exec (.dac i y) s = .next t → t.fetch = some s.ac) ∧ (exec (.dio i y) s = .next t → t.fetch = some s.io)) ∧
  ((0o600000#18 &&& 0o770000#18) ||| (0o400123#18 &&& 0o007777#18) = 0o600123#18 ∧ decode 0o000000 = .illegalOp00 0)

/-- dip, with its words, replaces the bits of `P_DIP_MASK`, 0o760000 or 0o770000 (43_memref_logic_transfer.md R187; the
spec's own decisions D2 and D33). -/
def Obligations.DipResult : Prop :=
  (∀ i y, decode (refWord 0o300000 i y) = .dip i y) ∧
  ∀ (s : State) (i : Bool) (y a : Addr), s.ea i y = some a →
    (s.cfg.dipMask = .high5 → exec (.dip i y) s = .next
      { s with mem := s.mem.write a.toNat ((s.mem.read a.toNat &&& 0o017777) ||| (s.ac &&& 0o760000)) }) ∧
    (s.cfg.dipMask = .high6 → exec (.dip i y) s = .next
      { s with mem := s.mem.write a.toNat ((s.mem.read a.toNat &&& 0o007777) ||| (s.ac &&& 0o770000)) })

/-- R202: jmp. The PC's bits 15..12 become 0; a jmp to its own address completes. The numeric opcode is the spec's own
decision D2. -/
def Obligations.JmpResult : Prop :=
  (∀ i y, decode (refWord 0o600000 i y) = .jmp i y) ∧
  (∀ (s : State) (i : Bool) (y a : Addr), s.ea i y = some a →
    exec (.jmp i y) s = .next { s with pc := BitVec.ofNat 16 a.toNat }) ∧
  (∀ (s : State) (i : Bool) (y : Addr), s.ea i y = none → exec (.jmp i y) s = .fault .hangIndirectCycle) ∧
  ∀ (s : State) (y : Addr), s.run = .running → s.pc = BitVec.ofNat 16 y.toNat →
    s.mem.read y.toNat = refWord 0o600000 false y → step s = .next s

/-- jsp, cal and jda, with their words: the return value goes to AC, from the PC before the jump; cal and jda save AC in their cell and
continue after it (44_memref_control.md R203 to R205; the spec's own decisions D2, D10 and D39; for cal's wrap, log
entry 11). -/
def Obligations.CallResults : Prop :=
  (∀ i y, decode (refWord 0o620000 i y) = .jsp i y ∧ decode (refWord 0o160000 false y) = .cal y ∧
    decode (refWord 0o160000 true y) = .jda y) ∧
  (∀ (s : State) (i : Bool) (y a : Addr), s.ea i y = some a →
    exec (.jsp i y) s = .next { s with ac := returnValue s, pc := BitVec.ofNat 16 a.toNat }) ∧
  ∀ (s : State) (y : Addr),
    exec (.cal y) s = .next
      { s with
        ac := returnValue s
        mem := s.mem.write s.cfg.calBase.toNat s.ac
        pc := BitVec.ofNat 16 ((s.cfg.calBase.toNat + 1) % 4096) } ∧
    exec (.jda y) s = .next
      { s with
        ac := returnValue s
        mem := s.mem.write y.toNat s.ac
        pc := BitVec.ofNat 16 ((y.toNat + 1) % 4096) }

/-- sad and sas, with their words: sad skips when the 18 bits differ, sas when they are the same (44_memref_control.md
R206, R207; the spec's own decisions D2 and D9). -/
def Obligations.SadAndSasResults : Prop :=
  (∀ i y, decode (refWord 0o500000 i y) = .sad i y ∧ decode (refWord 0o520000 i y) = .sas i y) ∧
  ∀ (s : State) (i : Bool) (y a : Addr), s.ea i y = some a →
    SkipsWhen (s.ac ≠ s.mem.read a.toNat) false s (exec (.sad i y) s) ∧
    SkipsWhen (s.ac = s.mem.read a.toNat) false s (exec (.sas i y) s)

/-- xct, with its words, runs the word at EA in place, with the PC as it is, and a nested xct runs its own target
(44_memref_control.md R200, R201; the spec's own decisions D2 and D31). -/
def Obligations.XctRunsItsTargetInPlace : Prop :=
  (∀ i y, decode (refWord 0o100000 i y) = .xct i y) ∧
  ∀ (s : State) (i : Bool) (y a : Addr), s.ea i y = some a →
    exec (.xct i y) s = exec (decode (s.mem.read a.toNat)) s

/-- An instruction completes exactly when its chain ends and it is neither unimplemented nor illegal; an xct, when the
instruction its nest ends at completes. -/
def Obligations.InstructionsCompleteExactlyWhen : Prop :=
  ∀ (j : Instr) (s : State), (∃ t, exec j s = .next t) ↔ completes s j = true

/-- law loads its sign-extended immediate, or faults when `P_LAW_EXEC = FAULT`; the word the assembler writes for
`law #n` loads `oc(n)` (45_law.md R215, R216; the spec's own decision D11). The law words are those of 30_encoding.md
R71. -/
def Obligations.LawResult : Prop :=
  (∀ n : BitVec 13, decode (fieldWord 0o700000 n) = .law n) ∧
  (∀ (s : State) (n : BitVec 13), s.cfg.lawExec = .sext13 →
    exec (.law n) s = .next { s with ac := BitVec.ofNat 18 (n.toNat + if n.getLsbD 12 then 0o760000 else 0) }) ∧
  (∀ (s : State) (n : BitVec 13), s.cfg.lawExec = .fault →
    exec (.law n) s = .fault (.unimplemented (BitVec.ofNat 18 (0o700000 + n.toNat)) s)) ∧
  ∀ (s : State) (t : LabelTable) (cur : Nat) (n : Int), s.cfg.lawExec = .sext13 → -4095 ≤ n → n ≤ 4095 →
    ∃ w, encodeInstr t cur .law false (some (.imm n)) = .ok w ∧ exec (decode w) s = .next { s with ac := oc n }

/-- R221 to R223 and R227 to R229: the rotates, by the population count of the mask. The numeric sub-operations are
the spec's own decision D12. -/
def Obligations.RotateResults : Prop :=
  (∀ m : BitVec 9,
    decode (BitVec.ofNat 18 (0o661000 + m.toNat)) = .ral m ∧ decode (BitVec.ofNat 18 (0o662000 + m.toNat)) = .ril m ∧
    decode (BitVec.ofNat 18 (0o663000 + m.toNat)) = .rcl m ∧ decode (BitVec.ofNat 18 (0o671000 + m.toNat)) = .rar m ∧
    decode (BitVec.ofNat 18 (0o672000 + m.toNat)) = .rir m ∧ decode (BitVec.ofNat 18 (0o673000 + m.toNat)) = .rcr m ∧
    shiftCount m < 18) ∧
  (∀ (s : State) (m : BitVec 9),
    exec (.ral m) s = .next { s with ac := s.ac.rotateLeft (shiftCount m) } ∧
    exec (.ril m) s = .next { s with io := s.io.rotateLeft (shiftCount m) } ∧
    exec (.rcl m) s = .next
      { s with
        ac := ((s.ac ++ s.io : BitVec 36).rotateLeft (shiftCount m)).extractLsb' 18 18
        io := ((s.ac ++ s.io : BitVec 36).rotateLeft (shiftCount m)).extractLsb' 0 18 } ∧
    exec (.rar m) s = .next { s with ac := s.ac.rotateRight (shiftCount m) } ∧
    exec (.rir m) s = .next { s with io := s.io.rotateRight (shiftCount m) } ∧
    exec (.rcr m) s = .next
      { s with
        ac := ((s.ac ++ s.io : BitVec 36).rotateRight (shiftCount m)).extractLsb' 18 18
        io := ((s.ac ++ s.io : BitVec 36).rotateRight (shiftCount m)).extractLsb' 0 18 }) ∧
  (rotl18 0o400001 1 = 0o000003 ∧ rotl18 0o700000 3 = 0o000007 ∧ rotr18 0o000003 1 = 0o400001 ∧
    rotr18 0o000007 3 = 0o700000 ∧ rotl36 (cat36 0o400000 0o400000) 1 = cat36 0o000001 0o000001 ∧
    rotr36 (cat36 0o000001 0o000001) 1 = cat36 0o400000 0o400000) ∧
  ∀ ac io : Word,
    (ioHalf (rotl36 (cat36 ac io) 1)).getLsbD 0 = ac.getLsbD 17 ∧ (acHalf (rotl36 (cat36 ac io) 1)).getLsbD 0 = io.getLsbD 17 ∧
    (acHalf (rotr36 (cat36 ac io) 1)).getLsbD 17 = io.getLsbD 0 ∧ (ioHalf (rotr36 (cat36 ac io) 1)).getLsbD 17 = ac.getLsbD 0

/-- The arithmetic shifts, with their words, apply their one-place step as often as the population count says, and what
the step does to each bit (46_shift.md R224 to R226, R230 to R232; 41_alu.md R155 to R158; the spec's own decisions D12
and D13). -/
def Obligations.ArithmeticShiftResults : Prop :=
  (∀ m : BitVec 9,
    decode (fieldWord 0o665000 m) = .sal m ∧ decode (fieldWord 0o666000 m) = .sil m ∧ decode (fieldWord 0o667000 m) = .scl m ∧
    decode (fieldWord 0o675000 m) = .sar m ∧ decode (fieldWord 0o676000 m) = .sir m ∧ decode (fieldWord 0o677000 m) = .scr m) ∧
  (∀ (s : State) (m : BitVec 9),
    exec (.sal m) s = .next { s with ac := sal1^[shiftCount m] s.ac } ∧
    exec (.sil m) s = .next { s with io := sal1^[shiftCount m] s.io } ∧
    exec (.scl m) s = .next
      { s with ac := (scl1^[shiftCount m] (s.ac, s.io)).1, io := (scl1^[shiftCount m] (s.ac, s.io)).2 } ∧
    exec (.sar m) s = .next { s with ac := sar1^[shiftCount m] s.ac } ∧
    exec (.sir m) s = .next { s with io := sar1^[shiftCount m] s.io } ∧
    exec (.scr m) s = .next
      { s with ac := (scr1^[shiftCount m] (s.ac, s.io)).1, io := (scr1^[shiftCount m] (s.ac, s.io)).2 }) ∧
  ∀ (a b : Word) (k : Nat), k < 18 →
    (sal1 a).getLsbD k = (if k = 17 ∨ k = 0 then a.getLsbD 17 else a.getLsbD (k - 1)) ∧
    (sar1 a).getLsbD k = (if k = 17 then a.getLsbD 17 else a.getLsbD (k + 1)) ∧
    (scl1 (a, b)).1.getLsbD k = (if k = 17 then a.getLsbD 17 else if k = 0 then b.getLsbD 17 else a.getLsbD (k - 1)) ∧
    (scl1 (a, b)).2.getLsbD k = (if k = 0 then a.getLsbD 17 else b.getLsbD (k - 1)) ∧
    (scr1 (a, b)).1.getLsbD k = (if k = 17 then a.getLsbD 17 else a.getLsbD (k + 1)) ∧
    (scr1 (a, b)).2.getLsbD k = (if k = 17 then a.getLsbD 0 else b.getLsbD (k + 1))

/-- R241 to R245: the named skips and their negations, with their words; szo and snzo clear OV always. The bit
positions are the spec's own decision D15. -/
def Obligations.NamedSkipResults : Prop :=
  (decode 0o640100 = .sza ∧ decode 0o650100 = .snza ∧ decode 0o640200 = .spa ∧ decode 0o650200 = .snpa ∧
    decode 0o641000 = .szo ∧ decode 0o651000 = .snzo ∧ decode 0o640400 = .sma ∧ decode 0o650400 = .snma ∧
    decode 0o642000 = .spi ∧ decode 0o652000 = .snpi) ∧
  ∀ s : State,
    SkipsWhen (s.ac = 0) false s (exec .sza s) ∧ SkipsWhen (s.ac ≠ 0) false s (exec .snza s) ∧
    SkipsWhen (s.ac.getLsbD 17 = false) false s (exec .spa s) ∧ SkipsWhen (s.ac.getLsbD 17 = true) false s (exec .snpa s) ∧
    SkipsWhen (s.ov = false) true s (exec .szo s) ∧ SkipsWhen (s.ov = true) true s (exec .snzo s) ∧
    SkipsWhen (s.ac.getLsbD 17 = true) false s (exec .sma s) ∧ SkipsWhen (s.ac.getLsbD 17 = false) false s (exec .snma s) ∧
    SkipsWhen (s.io.getLsbD 17 = false) false s (exec .spi s) ∧ SkipsWhen (s.io.getLsbD 17 = true) false s (exec .snpi s) ∧
    (∀ t, exec .szo s = .next t → SkipsWhen True true t (exec .szo t)) ∧
    ∀ (c : Conds) (k f : BitVec 3) (t : State), c.zo = true →
      exec (.skp c k f) s = .next t ∨ exec (.skpn c k f) s = .next t → t.ov = false

/-- The skip group: skp on the OR of its conditions, skpn on the negation, szs and szf on their index, at every
operand; and the same of the words, with the condition bits at 6 to 10, the switch index at 5..3 and the flag index at
2..0 (47_skip.md R240, R246 to R248; 30_encoding.md R73, R81, R97; the spec's own decisions D15 and D16). That the word
of szs 0 and szf 0 decodes to skp without conditions is log entry 12. -/
def Obligations.SkipGroupResults : Prop :=
  (∀ k : BitVec 3,
    decode (skipGroupWord 0o640000 {} k 0) = (if k = 0 then .skp {} 0 0 else .szs k) ∧
    decode (skipGroupWord 0o640000 {} 0 k) = (if k = 0 then .skp {} 0 0 else .szf k)) ∧
  ∀ (s : State) (c : Conds) (k f : BitVec 3),
    SkipsWhen (skipHolds c k f s) c.zo s (exec (decode (skipGroupWord 0o640000 c k f)) s) ∧
    SkipsWhen (¬skipHolds c k f s) c.zo s (exec (decode (skipGroupWord 0o650000 c k f)) s) ∧
    SkipsWhen (skipHolds c k f s) c.zo s (exec (.skp c k f) s) ∧
    SkipsWhen (¬skipHolds c k f s) c.zo s (exec (.skpn c k f) s) ∧
    SkipsWhen (testsClear s.ss k.toNat) false s (exec (.szs k) s) ∧
    SkipsWhen (testsClear s.pf f.toNat) false s (exec (.szf f) s)

/-- R261 to R263: nop, cla, cli, with their words. The numeric values are the spec's own decision D18. -/
def Obligations.NopClaCliResults : Prop :=
  (decode 0o760000 = .nop ∧ decode 0o760200 = .cla ∧ decode 0o764000 = .cli ∧ decode 0o000000 = .illegalOp00 0) ∧
  ∀ s : State, exec .nop s = .next s ∧ exec .cla s = .next { s with ac := 0o000000 } ∧
    exec .cli s = .next { s with io := 0o000000 }

/-- cma, lap and hlt, with their words (48_operate.md R264 to R266; the spec's own decisions D38, D18, D39 and D29). -/
def Obligations.CmaLapHltResults : Prop :=
  (decode 0o761000 = .cma ∧ decode 0o760300 = .lap ∧ decode 0o760400 = .hlt) ∧
  ∀ s : State, exec .cma s = .next { s with ac := ~~~s.ac } ∧ exec .lap s = .next { s with ac := returnValue s } ∧
    exec .hlt s = .next { s with run := .halted }

/-- stf and clf, with their words: index 1 to 6 one flag, 7 all six, 0 none (48_operate.md R268, R269; the spec's own
decision D20). The word of clf 0 is nop's, which is log entry 12. -/
def Obligations.FlagInstructionResults : Prop :=
  (∀ k : BitVec 3, decode (fieldWord 0o760010 k) = .stf k ∧
    decode (fieldWord 0o760000 k) = (if k = 0 then .nop else .clf k)) ∧
  ∀ (s : State) (k : BitVec 3) (b : Bool), ∃ p : Six,
    exec (if b then .stf k else .clf k) s = .next { s with pf := p } ∧
    p.f1 = (if k = 1 ∨ k = 7 then b else s.pf.f1) ∧ p.f2 = (if k = 2 ∨ k = 7 then b else s.pf.f2) ∧
    p.f3 = (if k = 3 ∨ k = 7 then b else s.pf.f3) ∧ p.f4 = (if k = 4 ∨ k = 7 then b else s.pf.f4) ∧
    p.f5 = (if k = 5 ∨ k = 7 then b else s.pf.f5) ∧ p.f6 = (if k = 6 ∨ k = 7 then b else s.pf.f6)

/-- lat, iot and the illegal words stop on every path, in the fault the spec names, with the whole word and the state
as it is (48_operate.md R267, 49_iot_illegal.md R280 to R282; the spec's own decisions D17 to D19, D21, D22). -/
def Obligations.StopsCarryTheirWord : Prop :=
  ∀ (w : Word) (s : State),
    ((opNumber w = 0o72 ∨ w = 0o762200) → exec (decode w) s = .fault (.unimplemented w s)) ∧
    (isIllegalOpcode (decode w) = true → exec (decode w) s = .fault (.illegalOpcode w s)) ∧
    (isIllegalSubop (decode w) = true → exec (decode w) s = .fault (.illegalSubop w s))

/-! ## Frames over memory -/

/-- An instruction that is not in the list of storing instructions leaves every word of memory as it was; under xct
the instruction that counts is the executed one (20_memory.md R50, decision D35). -/
def Obligations.OthersLeaveMemoryUnchanged : Prop :=
  ∀ (j : Instr) (s t : State), stores (effective j s) = false → exec j s = .next t →
    ∀ a, t.mem.read a = s.mem.read a

/-- The storing instructions write the one word their rule names, at EA, at `P_CAL_BASE` or at Y, and leave every other
word of memory, IO, the flags, RUN and the construction as they were; AC changes under idx, isp, cal and jda alone, the
PC under isp, cal and jda alone (42_memref_arith.md R169, R170; 43_memref_logic_transfer.md; 44_memref_control.md
R204, R205). -/
def Obligations.StoresChangeOneWord : Prop :=
  ∀ (j : Instr) (s t : State) (a : Addr), exec j s = .next t →
    (∃ i y, (j = .dac i y ∨ j = .dap i y ∨ j = .dip i y ∨ j = .dio i y ∨ j = .dzm i y ∨ j = .idx i y ∨ j = .isp i y) ∧
      s.ea i y = some a) ∨ (∃ y, j = .cal y ∧ a = s.cfg.calBase) ∨ j = .jda a →
    (∀ b, b ≠ a.toNat → t.mem.read b = s.mem.read b) ∧
    t.io = s.io ∧ t.ov = s.ov ∧ t.pf = s.pf ∧ t.run = s.run ∧ t.ss = s.ss ∧ t.ext = s.ext ∧ t.cfg = s.cfg ∧
    (writesAc j = false → t.ac = s.ac ∧ t.pc = s.pc) ∧ ((∃ i y, j = .idx i y) → t.pc = s.pc)

/-! ## Around the block -/

/-- A return works: the return value deposited with dap into a jmp word makes it a jmp to the PC's low 12 bits, under
every configuration (60_exceptions.md R294, which the spec derives). -/
def Obligations.DapIntoJmpReturns : Prop :=
  ∀ (s : State) (y c d : Addr) (u : State), s.mem.read d.toNat = refWord 0o600000 false y →
    exec (.dap false d) { s with ac := returnValue s, pc := BitVec.ofNat 16 c.toNat } = .next u →
    decode (u.mem.read d.toNat) = .jmp false (BitVec.ofNat 12 s.pc.toNat)

/-- The tape's bit mapping: row i of a word's block is its bits i-1, i+5 and i+11, nothing is lost, a tape made of words
reads back as them, and reading stops at the first malformed block or header (20_memory.md R60, R61; what a block is,
log entry 17). -/
def Obligations.TapeReadsBack : Prop :=
  (∀ (r6 r5 r4 r3 r2 r1 r : TapeRow) (i : Nat), 1 ≤ i → [r1, r2, r3, r4, r5, r6][i - 1]? = some r →
    (wordOfRows r6 r5 r4 r3 r2 r1).getLsbD (i - 1) = r.g1 ∧ (wordOfRows r6 r5 r4 r3 r2 r1).getLsbD (i + 5) = r.g2 ∧
    (wordOfRows r6 r5 r4 r3 r2 r1).getLsbD (i + 11) = r.g3) ∧
  (∀ r6 r5 r4 r3 r2 r1 : TapeRow, blockOfWord (wordOfRows r6 r5 r4 r3 r2 r1) = [r6, r5, r4, r3, r2, r1]) ∧
  (∀ ws : List Word, readTape (tapeOf ws) = ws) ∧
  ∀ (ws : List Word) (bad : List TapeRow) (rest : List (List TapeRow)), bad.length ≠ 6 →
    readTape ⟨true, ws.map blockOfWord ++ bad :: rest⟩ = ws ∧ readTape ⟨false, ws.map blockOfWord⟩ = []

/-- Numeric label references: `Nf` is the first entry after the line; `Nb`, on positions in increasing order, the last
entry before it (30_encoding.md R106, and R107, which the spec derives). -/
def Obligations.NumericLabelsResolve : Prop :=
  ∀ (t : LabelTable) (n cur p : Nat),
    (t.resolve (.forward n) cur = .ok p ↔
      ∃ l r, t.positions n = l ++ p :: r ∧ (∀ q ∈ l, q ≤ cur) ∧ cur < p) ∧
    ((t.positions n).Pairwise (· < ·) →
      (t.resolve (.backward n) cur = .ok p ↔
        p ∈ t.positions n ∧ p < cur ∧ ∀ q ∈ t.positions n, q < cur → q ≤ p))

/-- The word the assembler writes for a memory-reference line, with an immediate or a label reference, has the mnemonic's
opcode and the line's indirect mark, and decodes to the mnemonic's instruction; jda's bit 12 is set whatever the mark,
and cal with the mark is refused (30_encoding.md R92; the ranges and cal's refusal are the spec's own decisions D37 and
D40). A missing operand and an immediate out of range are errors. -/
def Obligations.AssembledReferencesDecode : Prop :=
  (∀ (t : LabelTable) (cur : Nat) (o : Operand) (v : Addr), Addresses t cur o v →
    (∀ (mn : Mnemonic) (op : BitVec 6) (amp : Bool), mn.kind = .mem op →
      ∃ w, encodeInstr t cur mn amp (some o) = .ok w ∧
        w = BitVec.ofNat 18 (op.toNat * 4096 + (if amp then 0o010000 else 0) + v.toNat) ∧ opNumber w = op.toNat ∧
        w.getLsbD 12 = amp ∧ low12 w = v) ∧
    (∀ p ∈ assembledReferences, ∀ amp : Bool,
      ∃ w, encodeInstr t cur p.1 amp (some o) = .ok w ∧ decode w = p.2 amp v) ∧
    (∀ amp : Bool, ∃ w, encodeInstr t cur .jda amp (some o) = .ok w ∧ decode w = .jda v) ∧
    (∃ w, encodeInstr t cur .cal false (some o) = .ok w ∧ decode w = .cal v) ∧
    encodeInstr t cur .cal true (some o) = .error .invalidOperand) ∧
  ∀ (t : LabelTable) (cur : Nat) (mn : Mnemonic) (amp : Bool),
    mn = .cal ∨ mn = .jda ∨ (∃ c, (mn, c) ∈ assembledReferences) →
      (∀ w, encodeInstr t cur mn amp none ≠ .ok w) ∧
      ∀ n : Int, n < 0 ∨ 511 < n → encodeInstr t cur mn amp (some (.imm n)) = .error .invalidOperand
end

