-- ==== Sys2Proof/Laws/State.lean ====
section
/-! SUPPORT. One lemma for each field and each update of the state, so that no proof unfolds a record update. -/

namespace Sys2Proof.Machine

@[simp] theorem State.setAc_ac (s : State) (v : Word) : (s.setAc v).ac = v := rfl
@[simp] theorem State.setAc_io (s : State) (v : Word) : (s.setAc v).io = s.io := rfl
@[simp] theorem State.setAc_pc (s : State) (v : Word) : (s.setAc v).pc = s.pc := rfl
@[simp] theorem State.setAc_ov (s : State) (v : Word) : (s.setAc v).ov = s.ov := rfl
@[simp] theorem State.setAc_pf (s : State) (v : Word) : (s.setAc v).pf = s.pf := rfl
@[simp] theorem State.setAc_ss (s : State) (v : Word) : (s.setAc v).ss = s.ss := rfl
@[simp] theorem State.setAc_ext (s : State) (v : Word) : (s.setAc v).ext = s.ext := rfl
@[simp] theorem State.setAc_run (s : State) (v : Word) : (s.setAc v).run = s.run := rfl
@[simp] theorem State.setAc_mem (s : State) (v : Word) : (s.setAc v).mem = s.mem := rfl
@[simp] theorem State.setAc_cfg (s : State) (v : Word) : (s.setAc v).cfg = s.cfg := rfl

@[simp] theorem State.setIo_ac (s : State) (v : Word) : (s.setIo v).ac = s.ac := rfl
@[simp] theorem State.setIo_io (s : State) (v : Word) : (s.setIo v).io = v := rfl
@[simp] theorem State.setIo_pc (s : State) (v : Word) : (s.setIo v).pc = s.pc := rfl
@[simp] theorem State.setIo_ov (s : State) (v : Word) : (s.setIo v).ov = s.ov := rfl
@[simp] theorem State.setIo_pf (s : State) (v : Word) : (s.setIo v).pf = s.pf := rfl
@[simp] theorem State.setIo_ss (s : State) (v : Word) : (s.setIo v).ss = s.ss := rfl
@[simp] theorem State.setIo_ext (s : State) (v : Word) : (s.setIo v).ext = s.ext := rfl
@[simp] theorem State.setIo_run (s : State) (v : Word) : (s.setIo v).run = s.run := rfl
@[simp] theorem State.setIo_mem (s : State) (v : Word) : (s.setIo v).mem = s.mem := rfl
@[simp] theorem State.setIo_cfg (s : State) (v : Word) : (s.setIo v).cfg = s.cfg := rfl

@[simp] theorem State.setOv_ac (s : State) (b : Bool) : (s.setOv b).ac = s.ac := rfl
@[simp] theorem State.setOv_io (s : State) (b : Bool) : (s.setOv b).io = s.io := rfl
@[simp] theorem State.setOv_pc (s : State) (b : Bool) : (s.setOv b).pc = s.pc := rfl
@[simp] theorem State.setOv_ov (s : State) (b : Bool) : (s.setOv b).ov = b := rfl
@[simp] theorem State.setOv_pf (s : State) (b : Bool) : (s.setOv b).pf = s.pf := rfl
@[simp] theorem State.setOv_ss (s : State) (b : Bool) : (s.setOv b).ss = s.ss := rfl
@[simp] theorem State.setOv_ext (s : State) (b : Bool) : (s.setOv b).ext = s.ext := rfl
@[simp] theorem State.setOv_run (s : State) (b : Bool) : (s.setOv b).run = s.run := rfl
@[simp] theorem State.setOv_mem (s : State) (b : Bool) : (s.setOv b).mem = s.mem := rfl
@[simp] theorem State.setOv_cfg (s : State) (b : Bool) : (s.setOv b).cfg = s.cfg := rfl

@[simp] theorem State.setPf_ac (s : State) (p : Six) : (s.setPf p).ac = s.ac := rfl
@[simp] theorem State.setPf_io (s : State) (p : Six) : (s.setPf p).io = s.io := rfl
@[simp] theorem State.setPf_pc (s : State) (p : Six) : (s.setPf p).pc = s.pc := rfl
@[simp] theorem State.setPf_ov (s : State) (p : Six) : (s.setPf p).ov = s.ov := rfl
@[simp] theorem State.setPf_pf (s : State) (p : Six) : (s.setPf p).pf = p := rfl
@[simp] theorem State.setPf_ss (s : State) (p : Six) : (s.setPf p).ss = s.ss := rfl
@[simp] theorem State.setPf_ext (s : State) (p : Six) : (s.setPf p).ext = s.ext := rfl
@[simp] theorem State.setPf_run (s : State) (p : Six) : (s.setPf p).run = s.run := rfl
@[simp] theorem State.setPf_mem (s : State) (p : Six) : (s.setPf p).mem = s.mem := rfl
@[simp] theorem State.setPf_cfg (s : State) (p : Six) : (s.setPf p).cfg = s.cfg := rfl

@[simp] theorem State.setRun_ac (s : State) (r : Run) : (s.setRun r).ac = s.ac := rfl
@[simp] theorem State.setRun_io (s : State) (r : Run) : (s.setRun r).io = s.io := rfl
@[simp] theorem State.setRun_pc (s : State) (r : Run) : (s.setRun r).pc = s.pc := rfl
@[simp] theorem State.setRun_ov (s : State) (r : Run) : (s.setRun r).ov = s.ov := rfl
@[simp] theorem State.setRun_pf (s : State) (r : Run) : (s.setRun r).pf = s.pf := rfl
@[simp] theorem State.setRun_ss (s : State) (r : Run) : (s.setRun r).ss = s.ss := rfl
@[simp] theorem State.setRun_ext (s : State) (r : Run) : (s.setRun r).ext = s.ext := rfl
@[simp] theorem State.setRun_run (s : State) (r : Run) : (s.setRun r).run = r := rfl
@[simp] theorem State.setRun_mem (s : State) (r : Run) : (s.setRun r).mem = s.mem := rfl
@[simp] theorem State.setRun_cfg (s : State) (r : Run) : (s.setRun r).cfg = s.cfg := rfl

@[simp] theorem State.setPc_ac (s : State) (v : PcVal) : (s.setPc v).ac = s.ac := rfl
@[simp] theorem State.setPc_io (s : State) (v : PcVal) : (s.setPc v).io = s.io := rfl
@[simp] theorem State.setPc_pc (s : State) (v : PcVal) : (s.setPc v).pc = wrapPc s.ext v := rfl
@[simp] theorem State.setPc_ov (s : State) (v : PcVal) : (s.setPc v).ov = s.ov := rfl
@[simp] theorem State.setPc_pf (s : State) (v : PcVal) : (s.setPc v).pf = s.pf := rfl
@[simp] theorem State.setPc_ss (s : State) (v : PcVal) : (s.setPc v).ss = s.ss := rfl
@[simp] theorem State.setPc_ext (s : State) (v : PcVal) : (s.setPc v).ext = s.ext := rfl
@[simp] theorem State.setPc_run (s : State) (v : PcVal) : (s.setPc v).run = s.run := rfl
@[simp] theorem State.setPc_mem (s : State) (v : PcVal) : (s.setPc v).mem = s.mem := rfl
@[simp] theorem State.setPc_cfg (s : State) (v : PcVal) : (s.setPc v).cfg = s.cfg := rfl

@[simp] theorem State.memWrite_ac (s : State) (a : Addr) (v : Word) : (s.memWrite a v).ac = s.ac := rfl
@[simp] theorem State.memWrite_io (s : State) (a : Addr) (v : Word) : (s.memWrite a v).io = s.io := rfl
@[simp] theorem State.memWrite_pc (s : State) (a : Addr) (v : Word) : (s.memWrite a v).pc = s.pc := rfl
@[simp] theorem State.memWrite_ov (s : State) (a : Addr) (v : Word) : (s.memWrite a v).ov = s.ov := rfl
@[simp] theorem State.memWrite_pf (s : State) (a : Addr) (v : Word) : (s.memWrite a v).pf = s.pf := rfl
@[simp] theorem State.memWrite_ss (s : State) (a : Addr) (v : Word) : (s.memWrite a v).ss = s.ss := rfl
@[simp] theorem State.memWrite_ext (s : State) (a : Addr) (v : Word) : (s.memWrite a v).ext = s.ext := rfl
@[simp] theorem State.memWrite_run (s : State) (a : Addr) (v : Word) : (s.memWrite a v).run = s.run := rfl
@[simp] theorem State.memWrite_mem (s : State) (a : Addr) (v : Word) : (s.memWrite a v).mem = s.mem.write a.toNat v := rfl
@[simp] theorem State.memWrite_cfg (s : State) (a : Addr) (v : Word) : (s.memWrite a v).cfg = s.cfg := rfl

@[simp] theorem State.advance_ac (s : State) : (s.advance).ac = s.ac := rfl
@[simp] theorem State.advance_io (s : State) : (s.advance).io = s.io := rfl
@[simp] theorem State.advance_pc (s : State) : (s.advance).pc = wrapPc s.ext (s.pc + 1) := rfl
@[simp] theorem State.advance_ov (s : State) : (s.advance).ov = s.ov := rfl
@[simp] theorem State.advance_pf (s : State) : (s.advance).pf = s.pf := rfl
@[simp] theorem State.advance_ss (s : State) : (s.advance).ss = s.ss := rfl
@[simp] theorem State.advance_ext (s : State) : (s.advance).ext = s.ext := rfl
@[simp] theorem State.advance_run (s : State) : (s.advance).run = s.run := rfl
@[simp] theorem State.advance_mem (s : State) : (s.advance).mem = s.mem := rfl
@[simp] theorem State.advance_cfg (s : State) : (s.advance).cfg = s.cfg := rfl

@[simp] theorem State.jump_ac (s : State) (a : Addr) : (s.jump a).ac = s.ac := rfl
@[simp] theorem State.jump_io (s : State) (a : Addr) : (s.jump a).io = s.io := rfl
@[simp] theorem State.jump_pc (s : State) (a : Addr) : (s.jump a).pc = wrapPc s.ext (a.zeroExtend 16) := rfl
@[simp] theorem State.jump_ov (s : State) (a : Addr) : (s.jump a).ov = s.ov := rfl
@[simp] theorem State.jump_pf (s : State) (a : Addr) : (s.jump a).pf = s.pf := rfl
@[simp] theorem State.jump_ss (s : State) (a : Addr) : (s.jump a).ss = s.ss := rfl
@[simp] theorem State.jump_ext (s : State) (a : Addr) : (s.jump a).ext = s.ext := rfl
@[simp] theorem State.jump_run (s : State) (a : Addr) : (s.jump a).run = s.run := rfl
@[simp] theorem State.jump_mem (s : State) (a : Addr) : (s.jump a).mem = s.mem := rfl
@[simp] theorem State.jump_cfg (s : State) (a : Addr) : (s.jump a).cfg = s.cfg := rfl

@[simp] theorem State.setSum_ac (s : State) (r : Word × Bool) : (s.setSum r).ac = r.1 := rfl
@[simp] theorem State.setSum_io (s : State) (r : Word × Bool) : (s.setSum r).io = s.io := rfl
@[simp] theorem State.setSum_pc (s : State) (r : Word × Bool) : (s.setSum r).pc = s.pc := rfl
@[simp] theorem State.setSum_ov (s : State) (r : Word × Bool) : (s.setSum r).ov = ovAfter s.cfg.ovSticky s.ov r.2 := rfl
@[simp] theorem State.setSum_pf (s : State) (r : Word × Bool) : (s.setSum r).pf = s.pf := rfl
@[simp] theorem State.setSum_ss (s : State) (r : Word × Bool) : (s.setSum r).ss = s.ss := rfl
@[simp] theorem State.setSum_ext (s : State) (r : Word × Bool) : (s.setSum r).ext = s.ext := rfl
@[simp] theorem State.setSum_run (s : State) (r : Word × Bool) : (s.setSum r).run = s.run := rfl
@[simp] theorem State.setSum_mem (s : State) (r : Word × Bool) : (s.setSum r).mem = s.mem := rfl
@[simp] theorem State.setSum_cfg (s : State) (r : Word × Bool) : (s.setSum r).cfg = s.cfg := rfl

@[simp] theorem State.setChained_ac (s : State) (c : BitVec 36) : (s.setChained c).ac = acHalf c := rfl
@[simp] theorem State.setChained_io (s : State) (c : BitVec 36) : (s.setChained c).io = ioHalf c := rfl
@[simp] theorem State.setChained_pc (s : State) (c : BitVec 36) : (s.setChained c).pc = s.pc := rfl
@[simp] theorem State.setChained_ov (s : State) (c : BitVec 36) : (s.setChained c).ov = s.ov := rfl
@[simp] theorem State.setChained_pf (s : State) (c : BitVec 36) : (s.setChained c).pf = s.pf := rfl
@[simp] theorem State.setChained_ss (s : State) (c : BitVec 36) : (s.setChained c).ss = s.ss := rfl
@[simp] theorem State.setChained_ext (s : State) (c : BitVec 36) : (s.setChained c).ext = s.ext := rfl
@[simp] theorem State.setChained_run (s : State) (c : BitVec 36) : (s.setChained c).run = s.run := rfl
@[simp] theorem State.setChained_mem (s : State) (c : BitVec 36) : (s.setChained c).mem = s.mem := rfl
@[simp] theorem State.setChained_cfg (s : State) (c : BitVec 36) : (s.setChained c).cfg = s.cfg := rfl

@[simp] theorem State.setPair_ac (s : State) (p : Word × Word) : (s.setPair p).ac = p.1 := rfl
@[simp] theorem State.setPair_io (s : State) (p : Word × Word) : (s.setPair p).io = p.2 := rfl
@[simp] theorem State.setPair_pc (s : State) (p : Word × Word) : (s.setPair p).pc = s.pc := rfl
@[simp] theorem State.setPair_ov (s : State) (p : Word × Word) : (s.setPair p).ov = s.ov := rfl
@[simp] theorem State.setPair_pf (s : State) (p : Word × Word) : (s.setPair p).pf = s.pf := rfl
@[simp] theorem State.setPair_ss (s : State) (p : Word × Word) : (s.setPair p).ss = s.ss := rfl
@[simp] theorem State.setPair_ext (s : State) (p : Word × Word) : (s.setPair p).ext = s.ext := rfl
@[simp] theorem State.setPair_run (s : State) (p : Word × Word) : (s.setPair p).run = s.run := rfl
@[simp] theorem State.setPair_mem (s : State) (p : Word × Word) : (s.setPair p).mem = s.mem := rfl
@[simp] theorem State.setPair_cfg (s : State) (p : Word × Word) : (s.setPair p).cfg = s.cfg := rfl

@[simp] theorem State.index_ac (s : State) (a : Addr) : (s.index a).ac = ocInc (s.memRead a) := rfl
@[simp] theorem State.index_io (s : State) (a : Addr) : (s.index a).io = s.io := rfl
@[simp] theorem State.index_pc (s : State) (a : Addr) : (s.index a).pc = s.pc := rfl
@[simp] theorem State.index_ov (s : State) (a : Addr) : (s.index a).ov = s.ov := rfl
@[simp] theorem State.index_pf (s : State) (a : Addr) : (s.index a).pf = s.pf := rfl
@[simp] theorem State.index_ss (s : State) (a : Addr) : (s.index a).ss = s.ss := rfl
@[simp] theorem State.index_ext (s : State) (a : Addr) : (s.index a).ext = s.ext := rfl
@[simp] theorem State.index_run (s : State) (a : Addr) : (s.index a).run = s.run := rfl
@[simp] theorem State.index_mem (s : State) (a : Addr) : (s.index a).mem = s.mem.write a.toNat (ocInc (s.memRead a)) := rfl
@[simp] theorem State.index_cfg (s : State) (a : Addr) : (s.index a).cfg = s.cfg := rfl

@[simp] theorem State.callThrough_ac (s : State) (c : Addr) : (s.callThrough c).ac = s.retval := rfl
@[simp] theorem State.callThrough_io (s : State) (c : Addr) : (s.callThrough c).io = s.io := rfl
@[simp] theorem State.callThrough_pc (s : State) (c : Addr) : (s.callThrough c).pc = wrapPc s.ext ((c + 1).zeroExtend 16) := rfl
@[simp] theorem State.callThrough_ov (s : State) (c : Addr) : (s.callThrough c).ov = s.ov := rfl
@[simp] theorem State.callThrough_pf (s : State) (c : Addr) : (s.callThrough c).pf = s.pf := rfl
@[simp] theorem State.callThrough_ss (s : State) (c : Addr) : (s.callThrough c).ss = s.ss := rfl
@[simp] theorem State.callThrough_ext (s : State) (c : Addr) : (s.callThrough c).ext = s.ext := rfl
@[simp] theorem State.callThrough_run (s : State) (c : Addr) : (s.callThrough c).run = s.run := rfl
@[simp] theorem State.callThrough_mem (s : State) (c : Addr) : (s.callThrough c).mem = s.mem.write c.toNat s.ac := rfl
@[simp] theorem State.callThrough_cfg (s : State) (c : Addr) : (s.callThrough c).cfg = s.cfg := rfl

@[simp] theorem State.placeWord_ac (s : State) (w : Word) : (s.placeWord w).ac = s.ac := rfl
@[simp] theorem State.placeWord_io (s : State) (w : Word) : (s.placeWord w).io = s.io := rfl
@[simp] theorem State.placeWord_pc (s : State) (w : Word) : (s.placeWord w).pc = s.fetchAddr := rfl
@[simp] theorem State.placeWord_ov (s : State) (w : Word) : (s.placeWord w).ov = s.ov := rfl
@[simp] theorem State.placeWord_pf (s : State) (w : Word) : (s.placeWord w).pf = s.pf := rfl
@[simp] theorem State.placeWord_ss (s : State) (w : Word) : (s.placeWord w).ss = s.ss := rfl
@[simp] theorem State.placeWord_ext (s : State) (w : Word) : (s.placeWord w).ext = s.ext := rfl
@[simp] theorem State.placeWord_run (s : State) (w : Word) : (s.placeWord w).run = .running := rfl
@[simp] theorem State.placeWord_mem (s : State) (w : Word) : (s.placeWord w).mem = s.mem.write s.fetchAddr.toNat w := rfl
@[simp] theorem State.placeWord_cfg (s : State) (w : Word) : (s.placeWord w).cfg = s.cfg := rfl

/-! A skip writes the PC alone. -/

@[simp] theorem State.skipIf_ac (s : State) (c : Bool) : (s.skipIf c).ac = s.ac := by cases c <;> rfl
@[simp] theorem State.skipIf_io (s : State) (c : Bool) : (s.skipIf c).io = s.io := by cases c <;> rfl
@[simp] theorem State.skipIf_ov (s : State) (c : Bool) : (s.skipIf c).ov = s.ov := by cases c <;> rfl
@[simp] theorem State.skipIf_pf (s : State) (c : Bool) : (s.skipIf c).pf = s.pf := by cases c <;> rfl
@[simp] theorem State.skipIf_ss (s : State) (c : Bool) : (s.skipIf c).ss = s.ss := by cases c <;> rfl
@[simp] theorem State.skipIf_ext (s : State) (c : Bool) : (s.skipIf c).ext = s.ext := by cases c <;> rfl
@[simp] theorem State.skipIf_run (s : State) (c : Bool) : (s.skipIf c).run = s.run := by cases c <;> rfl
@[simp] theorem State.skipIf_mem (s : State) (c : Bool) : (s.skipIf c).mem = s.mem := by cases c <;> rfl
@[simp] theorem State.skipIf_cfg (s : State) (c : Bool) : (s.skipIf c).cfg = s.cfg := by cases c <;> rfl
@[simp] theorem State.skipIf_pc (s : State) (c : Bool) :
    (s.skipIf c).pc = if c then wrapPc s.ext (s.pc + 1) else s.pc := by cases c <;> rfl

/-! A skip-group instruction writes the PC, and OV where zo is listed. -/

@[simp] theorem skipGroup_ac (n : Bool) (c : Conds) (k f : BitVec 3) (s : State) :
    (skipGroup n c k f s).ac = s.ac := by unfold skipGroup; split <;> simp
@[simp] theorem skipGroup_io (n : Bool) (c : Conds) (k f : BitVec 3) (s : State) :
    (skipGroup n c k f s).io = s.io := by unfold skipGroup; split <;> simp
@[simp] theorem skipGroup_pf (n : Bool) (c : Conds) (k f : BitVec 3) (s : State) :
    (skipGroup n c k f s).pf = s.pf := by unfold skipGroup; split <;> simp
@[simp] theorem skipGroup_ss (n : Bool) (c : Conds) (k f : BitVec 3) (s : State) :
    (skipGroup n c k f s).ss = s.ss := by unfold skipGroup; split <;> simp
@[simp] theorem skipGroup_ext (n : Bool) (c : Conds) (k f : BitVec 3) (s : State) :
    (skipGroup n c k f s).ext = s.ext := by unfold skipGroup; split <;> simp
@[simp] theorem skipGroup_run (n : Bool) (c : Conds) (k f : BitVec 3) (s : State) :
    (skipGroup n c k f s).run = s.run := by unfold skipGroup; split <;> simp
@[simp] theorem skipGroup_mem (n : Bool) (c : Conds) (k f : BitVec 3) (s : State) :
    (skipGroup n c k f s).mem = s.mem := by unfold skipGroup; split <;> simp
@[simp] theorem skipGroup_cfg (n : Bool) (c : Conds) (k f : BitVec 3) (s : State) :
    (skipGroup n c k f s).cfg = s.cfg := by unfold skipGroup; split <;> simp
@[simp] theorem skipGroup_ov (n : Bool) (c : Conds) (k f : BitVec 3) (s : State) :
    (skipGroup n c k f s).ov = (s.ov && !c.zo) := by unfold skipGroup; cases hz : c.zo <;> simp
@[simp] theorem skipGroup_pc (n : Bool) (c : Conds) (k f : BitVec 3) (s : State) :
    (skipGroup n c k f s).pc = if skipCondition c k f s != n then wrapPc s.ext (s.pc + 1) else s.pc := by
  unfold skipGroup; cases hz : c.zo <;> simp

/-- Two states with equal fields are equal. -/
theorem State.ext_fields {s t : State} (hac : s.ac = t.ac) (hio : s.io = t.io) (hpc : s.pc = t.pc) (hov : s.ov = t.ov)
    (hpf : s.pf = t.pf) (hss : s.ss = t.ss) (hext : s.ext = t.ext) (hrun : s.run = t.run) (hmem : s.mem = t.mem)
    (hcfg : s.cfg = t.cfg) : s = t := by
  cases s; cases t; simp_all

end Sys2Proof.Machine
end

