-- ==== Sys2Proof/Laws/Words.lean ====
section
/-! SUPPORT. Words as numbers and the fields of an encoded word: what the decoder reads back from the encoder's formats,
and what the program-counter operations store. -/

namespace Sys2Proof

/-- A concatenation as a number. -/
theorem toNat_concat {m n : Nat} (a : BitVec m) (b : BitVec n) : (a ++ b).toNat = a.toNat * 2 ^ n + b.toNat := by
  rw [BitVec.toNat_append, ← Nat.shiftLeft_add_eq_or_of_lt b.isLt, Nat.shiftLeft_eq]

/-- The fields the decoder reads from a memory-reference word. -/
theorem fields_memWord (op : BitVec 6) (h : op.getLsbD 0 = false) (i : Bool) (y : Addr) :
    primaryOp (memWord op i y) = op ∧ bit12 (memWord op i y) = i ∧ low12 (memWord op i y) = y := by
  have h' : op[0] = false := by simpa using h
  refine ⟨BitVec.eq_of_getLsbD_eq fun k hk => ?_, ?_, BitVec.eq_of_getLsbD_eq fun k hk => ?_⟩
  · simp only [primaryOp, memWord, BitVec.getLsbD_and, BitVec.getLsbD_append, BitVec.getLsbD_extractLsb']
    interval_cases k <;> simp [h']
  · simp only [bit12, memWord, BitVec.getLsbD_append]
    simp
  · simp only [low12, memWord, BitVec.getLsbD_append, BitVec.getLsbD_extractLsb']
    interval_cases k <;> simp

/-- The fields the decoder reads from a word of 13 free bits. -/
theorem fields_wideWord (op : BitVec 6) (h : op.getLsbD 0 = false) (n : BitVec 13) :
    primaryOp (wideWord op n) = op ∧ low13 (wideWord op n) = n := by
  have h' : op[0] = false := by simpa using h
  refine ⟨?_, ?_⟩ <;> apply BitVec.eq_of_getLsbD_eq <;> intro k hk
  · simp only [primaryOp, wideWord, BitVec.getLsbD_and, BitVec.getLsbD_append, BitVec.getLsbD_extractLsb']
    interval_cases k <;> simp [h']
  · simp only [low13, wideWord, BitVec.getLsbD_append, BitVec.getLsbD_extractLsb']
    interval_cases k <;> simp

namespace Machine

/-- A PC write as a number (10_state.md R25). -/
theorem wrapPc_toNat (e : Bool) (v : PcVal) : (wrapPc e v).toNat = v.toNat % if e then 65536 else 4096 := by
  have hv := v.isLt
  cases e
  · simp only [wrapPc, Bool.false_eq_true, if_false, BitVec.toNat_and]
    exact Nat.and_two_pow_sub_one_eq_mod v.toNat 12
  · simp only [wrapPc, if_true]
    omega

/-- The advance of the PC as a number. -/
theorem advance_pc_toNat (s : State) : s.advance.pc.toNat = (s.pc.toNat + 1) % if s.ext then 65536 else 4096 := by
  have hp := s.pc.isLt
  show (wrapPc s.ext (s.pc + 1)).toNat = _
  rw [wrapPc_toNat, BitVec.toNat_add, show BitVec.toNat (1 : PcVal) = 1 from rfl]
  cases s.ext
  · simp only [Bool.false_eq_true, if_false]
    omega
  · simp

/-- A jump stores its 12-bit target (10_state.md R25). -/
theorem jump_pc_toNat (s : State) (a : Addr) : (s.jump a).pc.toNat = a.toNat := by
  have ha := a.isLt
  show (wrapPc s.ext (a.zeroExtend 16)).toNat = _
  rw [wrapPc_toNat, BitVec.toNat_setWidth]
  cases s.ext
  · simp only [Bool.false_eq_true, if_false]
    omega
  · simp only [if_true]
    omega

/-- The return value as a number (10_state.md R33). -/
theorem retval_toNat (s : State) :
    s.retval.toNat = s.ov.toNat * 131072 + s.ext.toNat * 65536 + s.pc.toNat := by
  unfold State.retval
  rw [toNat_concat, toNat_concat]
  cases s.ov <;> cases s.ext <;> simp

end Machine

end Sys2Proof
end

