-- ==== Sys2Proof/Laws/Assembler.lean ====
section
/-! SUPPORT. What the assembler's shared operations can do, said once: the two ways answers are put together, the word of
a memory-reference operand, and how many words a program gives. -/

namespace Sys2Proof.Machine

/-- An answer that names a token completes exactly when the answer does. -/
theorem naming_ok {α : Type} {t : Token} {r : Except AsmErrorKind α} {a : α} : naming t r = .ok a ↔ r = .ok a := by
  cases r <;> simp [naming]

/-- Two answers together complete exactly when both do. -/
theorem appendAnswers_ok {α : Type} {x y : Except AsmError (List α)} {l : List α} :
    appendAnswers x y = .ok l ↔ ∃ a b, x = .ok a ∧ y = .ok b ∧ l = a ++ b := by
  cases x <;> cases y <;> simp [appendAnswers, eq_comm]

/-- The first answer's error is the one reported. -/
theorem appendAnswers_error {α : Type} (e : AsmError) (y : Except AsmError (List α)) :
    appendAnswers (.error e) y = .error e := rfl

/-- R103: an expanded stream gives one word for each of its lines. -/
theorem encodeLines_length {t : LabelTable} {ls : List Line} {pos : Nat} {ws : List Word}
    (h : encodeLines t pos ls = .ok ws) : ws.length = ls.length := by
  induction ls generalizing pos ws with
  | nil => cases h; rfl
  | cons l r ih =>
    obtain ⟨a, b, ha, hb, rfl⟩ := appendAnswers_ok.1 h
    cases hl : encodeLine t pos l with
    | error e => rw [hl] at ha; cases ha
    | ok w => rw [hl] at ha; cases ha; simp [ih hb]

/-- The address of an immediate operand. -/
theorem addressOperand_imm (t : LabelTable) (cur : Nat) {n : Nat} (h : n ≤ 511) :
    addressOperand t cur (some (.imm n)) = .ok (BitVec.ofNat 12 n) := by
  simp only [addressOperand]
  rw [if_pos ⟨by omega, by omega⟩]
  rfl

/-- The address of a label operand: the low 9 bits of what it resolves to. -/
theorem addressOperand_label {t : LabelTable} {cur p : Nat} {ref : Token} (h : t.resolveToken ref cur = .ok p) :
    addressOperand t cur (some (.label ref)) = .ok (BitVec.ofNat 12 (p % 512)) := by simp [addressOperand, h]

/-- A memory-reference word from the address of its operand. -/
theorem encodeMem_ok {t : LabelTable} {cur : Nat} {o : Option Operand} {v : Addr} (op : BitVec 6) (i : Bool)
    (h : addressOperand t cur o = .ok v) : encodeMem t cur op i o = .ok (memWord op i v) := by simp [encodeMem, h]

/-- A stream without definitions and invocations, and with no macro defined, stays as it is. -/
theorem expandMacros_plain (ls : List Line) (h : ∀ l ∈ ls, ∀ n os,
    (l.stmt = .directive n os → n ≠ "macro".toList) ∧ l.stmt ≠ .invocation n os) : expandMacros [] none ls = .ok ls := by
  induction ls with
  | nil => rfl
  | cons l r ih =>
    have hr := ih fun k hk => h k (List.mem_cons_of_mem _ hk)
    have hl := h l (List.mem_cons_self ..)
    unfold expandMacros
    cases hs : l.stmt with
    | instr m o => simp [hr, expandInvocation, hs, MacroTable.find, appendAnswers]
    | directive n os => simp only [if_neg ((hl n os).1 hs), hr, expandInvocation, hs, appendAnswers]; rfl
    | invocation n os => exact absurd hs (hl n os).2

end Sys2Proof.Machine
end

