-- ==== Sys2Proof/Laws/Memory.lean ====
section
/-! SUPPORT. The laws of core memory: a read after a write, the canonical form that every operation keeps, and that
equal contents are equal data. -/

namespace Sys2Proof.Machine

@[simp] theorem Memory.read_nil (a : Nat) : Memory.read [] a = Memory.unlisted := rfl

theorem Memory.read_erase (m : Memory) (a b : Nat) :
    (m.erase a).read b = if b = a then Memory.unlisted else m.read b := by
  induction m with
  | nil => simp [Memory.erase]
  | cons c r ih =>
    obtain ⟨k, v⟩ := c
    by_cases hk : k = a <;> by_cases hb : b = a <;> simp_all [Memory.erase, Memory.read]
    intro h; exact absurd h.symm hb

theorem Memory.read_put (m : Memory) (a b : Nat) (v : Word) (hm : ∀ c ∈ m, c.1 ≠ a) :
    (m.put a v).read b = if b = a then v else m.read b := by
  induction m with
  | nil =>
    by_cases hb : b = a
    · simp [Memory.put, Memory.read, hb]
    · have hb' : ¬a = b := fun h => hb h.symm
      simp [Memory.put, Memory.read, hb, hb']
  | cons c r ih =>
    obtain ⟨k, w⟩ := c
    have hk : k ≠ a := hm (k, w) (by simp)
    have ih := ih fun c hc => hm c (by simp [hc])
    by_cases hb : b = a
    · subst hb
      by_cases hlt : b < k <;> simp [Memory.put, Memory.read, hlt, hk, ih]
    · have hb' : ¬a = b := fun h => hb h.symm
      by_cases hlt : a < k <;> simp [Memory.put, Memory.read, hlt, hb, hb', ih]

theorem Memory.erase_ne (m : Memory) (a : Nat) : ∀ c ∈ m.erase a, c.1 ≠ a := by
  induction m with
  | nil => simp [Memory.erase]
  | cons c r ih =>
    obtain ⟨k, v⟩ := c
    by_cases hk : k = a
    · simpa only [Memory.erase, hk, if_true] using ih
    · simp only [Memory.erase, hk, if_false, List.mem_cons]
      rintro c (rfl | hc)
      · exact hk
      · exact ih c hc

/-- A read after a write: the word written there, every other word as before. -/
theorem Memory.read_write (m : Memory) (a b : Nat) (v : Word) :
    (m.write a v).read b = if b = a then v else m.read b := by
  unfold Memory.write
  split
  · next h => simp [Memory.read_erase, h]
  · rw [Memory.read_put _ _ _ _ (Memory.erase_ne m a), Memory.read_erase]
    split <;> simp_all

@[simp] theorem Memory.read_write_same (m : Memory) (a : Nat) (v : Word) : (m.write a v).read a = v := by
  simp [Memory.read_write]

theorem Memory.read_write_other (m : Memory) {a b : Nat} (v : Word) (h : b ≠ a) : (m.write a v).read b = m.read b := by
  simp [Memory.read_write, h]

/-- The canonical form as a proposition about the head and the rest. -/
theorem Memory.wf_cons (k : Nat) (v : Word) (r : Memory) :
    Memory.wf ((k, v) :: r) = true ↔ v ≠ Memory.unlisted ∧ (∀ c ∈ r, k < c.1) ∧ r.wf = true := by
  simp [Memory.wf, and_assoc]

theorem Memory.mem_of_erase {m : Memory} {a : Nat} {c : Cell} (h : c ∈ m.erase a) : c ∈ m := by
  induction m with
  | nil => simp [Memory.erase] at h
  | cons d r ih =>
    obtain ⟨k, v⟩ := d
    by_cases hk : k = a <;> simp_all [Memory.erase]
    exact h.imp id ih

theorem Memory.mem_of_put {m : Memory} {a : Nat} {v : Word} {c : Cell} (h : c ∈ m.put a v) : c = (a, v) ∨ c ∈ m := by
  induction m with
  | nil => simpa [Memory.put] using h
  | cons d r ih =>
    obtain ⟨k, w⟩ := d
    by_cases hk : a < k
    · simpa [Memory.put, hk] using h
    · simp only [Memory.put, hk, if_false, List.mem_cons] at h
      rcases h with h | h
      · simp [h]
      · rcases ih h with h | h <;> simp [h]

theorem Memory.wf_erase {m : Memory} (h : m.wf = true) (a : Nat) : (m.erase a).wf = true := by
  induction m with
  | nil => rfl
  | cons c r ih =>
    obtain ⟨k, v⟩ := c
    rw [Memory.wf_cons] at h
    by_cases hk : k = a
    · simpa [Memory.erase, hk] using ih h.2.2
    · simp only [Memory.erase, hk, if_false, Memory.wf_cons]
      exact ⟨h.1, fun c hc => h.2.1 c (Memory.mem_of_erase hc), ih h.2.2⟩

theorem Memory.wf_put {m : Memory} (h : m.wf = true) {a : Nat} {v : Word} (hv : v ≠ Memory.unlisted)
    (ha : ∀ c ∈ m, c.1 ≠ a) : (m.put a v).wf = true := by
  induction m with
  | nil => simp [Memory.put, Memory.wf, hv]
  | cons c r ih =>
    obtain ⟨k, w⟩ := c
    have h' := (Memory.wf_cons k w r).1 h
    have hk : k ≠ a := ha (k, w) (by simp)
    by_cases hlt : a < k
    · simp only [Memory.put, hlt, if_true, Memory.wf_cons]
      refine ⟨hv, fun c hc => ?_, h'⟩
      rcases List.mem_cons.1 hc with rfl | hc
      · exact hlt
      · exact lt_trans hlt (h'.2.1 c hc)
    · simp only [Memory.put, hlt, if_false, Memory.wf_cons]
      refine ⟨h'.1, fun c hc => ?_, ih h'.2.2 fun c hc => ha c (by simp [hc])⟩
      rcases Memory.mem_of_put hc with rfl | hc
      · omega
      · exact h'.2.1 c hc

/-- A write keeps the canonical form. -/
theorem Memory.wf_write {m : Memory} (h : m.wf = true) (a : Nat) (v : Word) : (m.write a v).wf = true := by
  unfold Memory.write
  split
  · exact Memory.wf_erase h a
  · exact Memory.wf_put (Memory.wf_erase h a) ‹_› (Memory.erase_ne m a)

/-- A write below the size keeps every listed address below it. -/
theorem Memory.within_write {m : Memory} {size : Nat} (h : m.within size = true) {a : Nat} (ha : a < size) (v : Word) :
    (m.write a v).within size = true := by
  simp only [Memory.within, List.all_eq_true, decide_eq_true_eq] at *
  unfold Memory.write
  split
  · exact fun c hc => h c (Memory.mem_of_erase hc)
  · intro c hc
    rcases Memory.mem_of_put hc with rfl | hc
    · exact ha
    · exact h c (Memory.mem_of_erase hc)

theorem Memory.wf_ofWords (ws : List Word) (a : Nat) : (Memory.ofWords a ws).wf = true ∧
    ∀ c ∈ Memory.ofWords a ws, a ≤ c.1 ∧ c.1 < a + ws.length := by
  induction ws generalizing a with
  | nil => simp [Memory.ofWords, Memory.wf]
  | cons w r ih =>
    have h := ih (a + 1)
    simp only [Memory.ofWords, List.length_cons]
    split
    · exact ⟨h.1, fun c hc => by have := h.2 c hc; omega⟩
    · refine ⟨(Memory.wf_cons _ _ _).2 ⟨‹_›, fun c hc => by have := h.2 c hc; omega, h.1⟩, fun c hc => ?_⟩
      rcases List.mem_cons.1 hc with rfl | hc
      · simp
      · have := h.2 c hc; omega

/-- The word at an address of a loaded list, and past its end what an unlisted address reads as. -/
theorem Memory.read_ofWords (ws : List Word) (a b : Nat) :
    (Memory.ofWords a ws).read b = if a ≤ b then ws.getD (b - a) Memory.unlisted else Memory.unlisted := by
  induction ws generalizing a with
  | nil => simp [Memory.ofWords]
  | cons w r ih =>
    have hsub : a < b → b - a = (b - (a + 1)) + 1 := by omega
    simp only [Memory.ofWords]
    split
    · next hw =>
      rw [ih]
      rcases lt_trichotomy a b with hlt | rfl | hgt
      · rw [if_pos (by omega), if_pos (by omega), hsub hlt]; simp
      · simp [hw]
      · rw [if_neg (by omega), if_neg (by omega)]
    · rw [Memory.read, ih]
      rcases lt_trichotomy a b with hlt | rfl | hgt
      · rw [if_neg (by omega), if_pos (by omega), if_pos (by omega), hsub hlt]; simp
      · simp
      · rw [if_neg (by omega), if_neg (by omega), if_neg (by omega)]

/-- Every memory size holds the 12-bit address space, so a data access always meets its precondition (20_memory.md
R47). -/
theorem addr_lt_size (s : State) (a : Addr) : a.toNat < s.size := by
  have : 4096 ≤ s.size := by unfold State.size; cases s.cfg.memSize <;> decide
  have := a.isLt
  omega

@[simp] theorem memRead_memWrite_same (s : State) (a : Addr) (v : Word) : (s.memWrite a v).memRead a = v := by
  simp [State.memRead, State.memWrite]

theorem memRead_memWrite_other (s : State) {a b : Addr} (v : Word) (h : b ≠ a) :
    (s.memWrite a v).memRead b = s.memRead b := by
  have : b.toNat ≠ a.toNat := fun e => h (BitVec.eq_of_toNat_eq e)
  simp [State.memRead, State.memWrite, Memory.read_write, this]

/-- The memory right after reset is in its canonical form. -/
theorem reset_mem_wf : State.reset.mem.wf = true := rfl

end Sys2Proof.Machine
end

