-- ==== Sys2Proof/Laws/Operands.lean ====
section
/-! SUPPORT. One lemma for each shared operation, saying once what it answers. -/

namespace Sys2Proof.Machine

@[simp] theorem ea_direct (s : State) (y : Addr) : s.ea false y = some y := rfl

theorem ea_indirect (s : State) (y : Addr) : s.ea true y =
    match s.cfg.indirect with
    | .source => chainSource s.mem chainBound y
    | .pdp1 => chainPdp1 s.mem chainBound y := rfl

/-- A memory-reference instruction with a terminating chain is its continuation at the EA. -/
theorem withEa_some {i : Bool} {y a : Addr} {s : State} (h : s.ea i y = some a) (k : Addr → Result) :
    withEa i y s k = k a := by simp [withEa, h]

/-- A memory-reference instruction with a cyclic chain hangs. -/
theorem withEa_none {i : Bool} {y : Addr} {s : State} (h : s.ea i y = none) (k : Addr → Result) :
    withEa i y s k = .fault .hangIndirectCycle := by simp [withEa, h]

/-- All that a memory-reference instruction can do: hang, or go on at the EA. -/
theorem withEa_cases (i : Bool) (y : Addr) (s : State) (k : Addr → Result) :
    (s.ea i y = none ∧ withEa i y s k = .fault .hangIndirectCycle) ∨ ∃ a, s.ea i y = some a ∧ withEa i y s k = k a := by
  cases h : s.ea i y with
  | none => exact .inl ⟨rfl, withEa_none h k⟩
  | some a => exact .inr ⟨a, rfl, withEa_some h k⟩

/-- A next state of a loading instruction comes from its operand. -/
theorem withOperand_next {i : Bool} {y : Addr} {s t : State} {k : Word → State} (h : withOperand i y s k = .next t) :
    ∃ a, s.ea i y = some a ∧ t = k (s.memRead a) := by
  rcases withEa_cases i y s fun a => .next (k (s.memRead a)) with ⟨-, e⟩ | ⟨a, ha, e⟩
  · rw [withOperand, e] at h; cases h
  · rw [withOperand, e] at h; cases h; exact ⟨a, ha, rfl⟩

/-- A next state of a storing instruction differs in the word at the EA alone. -/
theorem storeAtEa_next {i : Bool} {y : Addr} {s t : State} {v : Addr → Word} (h : storeAtEa i y s v = .next t) :
    ∃ a, s.ea i y = some a ∧ t = s.memWrite a (v a) := by
  rcases withEa_cases i y s fun a => .next (s.memWrite a (v a)) with ⟨-, e⟩ | ⟨a, ha, e⟩
  · rw [storeAtEa, e] at h; cases h
  · rw [storeAtEa, e] at h; cases h; exact ⟨a, ha, rfl⟩

/-- A raised fault is no next state. -/
theorem raise_ne_next (code : Word → State → Fault) (i : Instr) (s t : State) : raise code i s ≠ .next t := by
  simp [raise]

/-- Repeating a step is iterating it. -/
theorem times_eq_iterate {α : Type} (f : α → α) (n : Nat) (a : α) : times f n a = f^[n] a := by
  induction n generalizing a with
  | zero => rfl
  | succ n ih => exact ih _

/-- A level of a nest whose chain never ends. -/
theorem xctNest_hang {s : State} {n : Nat} {i : Bool} {y : Addr} (h : s.ea i y = none) :
    xctNest s (n + 1) i y = .never .hangIndirectCycle := by rw [xctNest]; simp only [h]

/-- A level of a nest that reads an instruction other than xct. -/
theorem xctNest_found {s : State} {n : Nat} {i : Bool} {y a : Addr} (h : s.ea i y = some a)
    (hx : asXct (decode (s.memRead a)) = none) : xctNest s (n + 1) i y = .target (decode (s.memRead a)) := by
  rw [xctNest]; simp only [h, hx]

/-- A level of a nest that reads another xct. -/
theorem xctNest_deeper {s : State} {n : Nat} {i i' : Bool} {y y' a : Addr} (h : s.ea i y = some a)
    (hx : asXct (decode (s.memRead a)) = some (i', y')) : xctNest s (n + 1) i y = xctNest s n i' y' := by
  rw [xctNest]; simp only [h, hx]

/-- The nest of an xct ends at an instruction that is not an xct, or hangs. -/
theorem xctNest_target {s : State} {n : Nat} {i : Bool} {y : Addr} {j : Instr} (h : xctNest s n i y = .target j) :
    asXct j = none := by
  induction n generalizing i y with
  | zero => simp [xctNest] at h
  | succ n ih =>
    rw [xctNest] at h
    split at h
    · cases h
    · split at h
      · next hx => cases h; exact hx
      · exact ih h

/-- A nest that does not end is one of the two hangs. -/
theorem xctNest_never {s : State} {n : Nat} {i : Bool} {y : Addr} {f : Fault} (h : xctNest s n i y = .never f) :
    f = .hangXctCycle ∨ f = .hangIndirectCycle := by
  induction n generalizing i y with
  | zero => cases h; exact .inl rfl
  | succ n ih =>
    rw [xctNest] at h
    split at h
    · cases h; exact .inr rfl
    · split at h
      · cases h
      · exact ih h

/-- An instruction that is not an xct runs in a nest as it runs by itself. -/
theorem runTarget_eq_exec {j : Instr} (h : asXct j = none) (s : State) : runTarget j s = exec j s := by
  cases j <;> first | rfl | cases h

/-- All that an xct can do: hang, or run the instruction its nest ends at. -/
theorem exec_xct_cases (i : Bool) (y : Addr) (s : State) :
    (∃ f, xctNest s xctBound i y = .never f ∧ exec (.xct i y) s = .fault f) ∨
      ∃ j, xctNest s xctBound i y = .target j ∧ asXct j = none ∧ exec (.xct i y) s = exec j s := by
  cases h : xctNest s xctBound i y with
  | never f => exact .inl ⟨f, rfl, by simp [exec, execXct, h]⟩
  | target j =>
    have hj := xctNest_target h
    exact .inr ⟨j, rfl, hj, by simp [exec, execXct, h, runTarget_eq_exec hj]⟩

/-- A step in Running whose fetch succeeds executes the fetched word. -/
theorem step_running {s : State} {w : Word} (hr : s.run = .running) (hf : s.fetch = some w) :
    step s = exec (decode w) s.advance := by simp [step, hr, hf]

/-- A step in Halted changes nothing. -/
theorem step_halted {s : State} (hr : s.run = .halted) : step s = .next s := by simp [step, hr]

/-- All that a step can do. -/
theorem step_cases (s : State) :
    (s.run = .halted ∧ step s = .next s) ∨ (s.run = .running ∧ s.fetch = none ∧ step s = .fault (.fetchOutOfRange s.pc s)) ∨
      ∃ w, s.run = .running ∧ s.fetch = some w ∧ step s = exec (decode w) s.advance := by
  cases hr : s.run with
  | halted => exact .inl ⟨rfl, step_halted hr⟩
  | running =>
    cases hf : s.fetch with
    | none => exact .inr (.inl ⟨rfl, rfl, by simp [step, hr, hf]⟩)
    | some w => exact .inr (.inr ⟨w, rfl, rfl, step_running hr hf⟩)

end Sys2Proof.Machine
end

