-- ==== Sys2Proof/Laws/Exec.lean ====
section
/-! SUPPORT. What an instruction can do, said once: hang, fault with its state as it is, or go to the one next state
that `nextOf` gives. The lemmas about a completed instruction are derived from it by cases on the constructor. -/

namespace Sys2Proof.Machine

/-- The next state of an instruction that completes, with `a` its effective address where it has one; an instruction
that never completes stands for itself. -/
def nextOf (s : State) (a : Addr) : Instr → State
  | .add _ _ => s.setSum (ocAdd s.ac (s.memRead a))
  | .sub _ _ => s.setSum (ocSub s.ac (s.memRead a))
  | .and _ _ => s.setAc (s.ac &&& s.memRead a)
  | .xor _ _ => s.setAc (s.ac ^^^ s.memRead a)
  | .ior _ _ => s.setAc (s.ac ||| s.memRead a)
  | .lac _ _ => s.setAc (s.memRead a)
  | .lio _ _ => s.setIo (s.memRead a)
  | .dac _ _ => s.memWrite a s.ac
  | .dap _ _ => s.memWrite a (replaceBits 0o007777 (s.memRead a) s.ac)
  | .dip _ _ => s.memWrite a (replaceBits s.cfg.dipMask.word (s.memRead a) s.ac)
  | .dio _ _ => s.memWrite a s.io
  | .dzm _ _ => s.memWrite a 0
  | .idx _ _ => s.index a
  | .isp _ _ => (s.index a).skipIf (!sign (ocInc (s.memRead a)))
  | .jmp _ _ => s.jump a
  | .jsp _ _ => (s.setAc s.retval).jump a
  | .sad _ _ => s.skipIf (s.ac != s.memRead a)
  | .sas _ _ => s.skipIf (s.ac == s.memRead a)
  | .cal _ => s.callThrough s.cfg.calBase
  | .jda y => s.callThrough y
  | .law n => s.setAc (lawValue n)
  | .ral m => s.setAc (rotl18 s.ac (shiftCount m))
  | .ril m => s.setIo (rotl18 s.io (shiftCount m))
  | .rcl m => s.setChained (rotl36 (cat36 s.ac s.io) (shiftCount m))
  | .sal m => s.setAc (sal s.ac (shiftCount m))
  | .sil m => s.setIo (sal s.io (shiftCount m))
  | .scl m => s.setPair (times scl1 (shiftCount m) (s.ac, s.io))
  | .rar m => s.setAc (rotr18 s.ac (shiftCount m))
  | .rir m => s.setIo (rotr18 s.io (shiftCount m))
  | .rcr m => s.setChained (rotr36 (cat36 s.ac s.io) (shiftCount m))
  | .sar m => s.setAc (sar s.ac (shiftCount m))
  | .sir m => s.setIo (sar s.io (shiftCount m))
  | .scr m => s.setPair (times scr1 (shiftCount m) (s.ac, s.io))
  | .sza => skipGroup false { za := true } 0 0 s
  | .snza => skipGroup true { za := true } 0 0 s
  | .spa => skipGroup false { pa := true } 0 0 s
  | .snpa => skipGroup true { pa := true } 0 0 s
  | .sma => skipGroup false { ma := true } 0 0 s
  | .snma => skipGroup true { ma := true } 0 0 s
  | .szo => skipGroup false { zo := true } 0 0 s
  | .snzo => skipGroup true { zo := true } 0 0 s
  | .spi => skipGroup false { pi := true } 0 0 s
  | .snpi => skipGroup true { pi := true } 0 0 s
  | .skp c k f => skipGroup false c k f s
  | .skpn c k f => skipGroup true c k f s
  | .szs k => skipGroup false {} k 0 s
  | .szf f => skipGroup false {} 0 f s
  | .cla => s.setAc 0
  | .cli => s.setIo 0
  | .cma => s.setAc (~~~s.ac)
  | .lap => s.setAc s.retval
  | .hlt => s.setRun .halted
  | .stf k => s.setPf (putFlag s.pf k true)
  | .clf k => s.setPf (putFlag s.pf k false)
  | .nop | .xct _ _ | .mul _ _ | .div _ _ | .iot _ | .lat | .illegalOp00 _ | .illegalOp12 _ | .illegalOp14 _
  | .illegalOp36 _ | .illegalOp74 _ | .illegalShift _ _ _ | .illegalSkip _ _ | .illegalOperateBit _
  | .illegalOperateField _ => s

/-- The indirect bit and address of an instruction that runs an indirect chain; xct's is run by its nest. -/
def chainOf : Instr → Option (Bool × Addr)
  | .and i y | .ior i y | .xor i y | .lac i y | .lio i y | .dac i y | .dap i y | .dip i y | .dio i y | .dzm i y
  | .add i y | .sub i y | .idx i y | .isp i y | .sad i y | .sas i y | .jmp i y | .jsp i y | .mul i y | .div i y => some (i, y)
  | .xct _ _ | .cal _ | .jda _ | .law _ | .ral _ | .ril _ | .rcl _ | .sal _ | .sil _ | .scl _ | .rar _ | .rir _
  | .rcr _ | .sar _ | .sir _ | .scr _ | .sza | .snza | .spa | .snpa | .sma | .snma | .szo | .snzo | .spi | .snpi
  | .skp _ _ _ | .skpn _ _ _ | .szs _ | .szf _ | .nop | .cla | .cli | .cma | .lap | .hlt | .lat | .stf _ | .clf _
  | .iot _ | .illegalOp00 _ | .illegalOp12 _ | .illegalOp14 _ | .illegalOp36 _ | .illegalOp74 _
  | .illegalShift _ _ _ | .illegalSkip _ _ | .illegalOperateBit _ | .illegalOperateField _ => none

/-- `a` is the effective address of an instruction that has one. -/
def eaIs (s : State) (j : Instr) (a : Addr) : Prop :=
  match chainOf j with
  | none => True
  | some (i, y) => s.ea i y = some a

/-- The instructions that never complete. -/
def neverCompletes : Instr → Bool
  | .mul _ _ | .div _ _ | .iot _ | .lat | .illegalOp00 _ | .illegalOp12 _ | .illegalOp14 _ | .illegalOp36 _
  | .illegalOp74 _ | .illegalShift _ _ _ | .illegalSkip _ _ | .illegalOperateBit _ | .illegalOperateField _ => true
  | .and _ _ | .ior _ _ | .xor _ _ | .xct _ _ | .lac _ _ | .lio _ _ | .dac _ _ | .dap _ _ | .dip _ _ | .dio _ _
  | .dzm _ _ | .add _ _ | .sub _ _ | .idx _ _ | .isp _ _ | .sad _ _ | .sas _ _ | .jmp _ _ | .jsp _ _ | .cal _
  | .jda _ | .law _ | .ral _ | .ril _ | .rcl _ | .sal _ | .sil _ | .scl _ | .rar _ | .rir _ | .rcr _ | .sar _
  | .sir _ | .scr _ | .sza | .snza | .spa | .snpa | .sma | .snma | .szo | .snzo | .spi | .snpi | .skp _ _ _
  | .skpn _ _ _ | .szs _ | .szf _ | .nop | .cla | .cli | .cma | .lap | .hlt | .stf _ | .clf _ => false

/-- All that an instruction other than xct can do. -/
theorem exec_plain_cases (j : Instr) (s : State) (hx : asXct j = none) :
    (∃ i y, chainOf j = some (i, y) ∧ s.ea i y = none ∧ exec j s = .fault .hangIndirectCycle) ∨
    (∃ f, exec j s = .fault f ∧ f.left? = some s ∧ f.isHang = false ∧
      (neverCompletes j = true ∨ ((∃ n, j = .law n) ∧ s.cfg.lawExec = .fault)) ∧ ∃ a, eaIs s j a) ∨
    (∃ a, eaIs s j a ∧ neverCompletes j = false ∧ ((∃ n, j = .law n) → s.cfg.lawExec = .sext13) ∧
      exec j s = .next (nextOf s a j)) := by
  cases j
  case xct => cases hx
  case law n =>
    cases hl : s.cfg.lawExec with
    | sext13 => exact .inr (.inr ⟨0, trivial, rfl, fun _ => rfl, by simp only [exec, execLaw, hl]; rfl⟩)
    | fault => exact .inr (.inl ⟨_, by simp only [exec, execLaw, hl]; rfl, rfl, rfl, .inr ⟨⟨n, rfl⟩, rfl⟩, 0, trivial⟩)
  case mul i y =>
    rcases h : s.ea i y with _ | a
    · exact .inl ⟨i, y, rfl, h, withEa_none h _⟩
    · exact .inr (.inl ⟨_, withEa_some h _, rfl, rfl, .inl rfl, a, h⟩)
  case div i y =>
    rcases h : s.ea i y with _ | a
    · exact .inl ⟨i, y, rfl, h, withEa_none h _⟩
    · exact .inr (.inl ⟨_, withEa_some h _, rfl, rfl, .inl rfl, a, h⟩)
  all_goals first
    | exact .inr (.inl ⟨_, rfl, rfl, rfl, .inl rfl, 0, trivial⟩)
    | exact .inr (.inr ⟨0, trivial, rfl, (fun ⟨_, h⟩ => by cases h), rfl⟩)
    | (rename_i i y
       rcases h : s.ea i y with _ | a
       · exact .inl ⟨i, y, rfl, h, withEa_none h _⟩
       · exact .inr (.inr ⟨a, h, rfl, (fun ⟨_, h⟩ => by cases h), withEa_some h _⟩))

/-- An instruction acts as its effective instruction, which is no xct, or it is an xct whose nest hangs. -/
theorem exec_effective (j : Instr) (s : State) :
    (asXct (effective j s) = none ∧ exec j s = exec (effective j s) s) ∨
      (effective j s = j ∧ ∃ i y f, j = .xct i y ∧ xctNest s xctBound i y = .never f ∧ exec j s = .fault f) := by
  unfold effective
  cases hx : asXct j with
  | none => exact .inl ⟨hx, rfl⟩
  | some p =>
    obtain ⟨i, y⟩ := p
    have hj : j = .xct i y := by
      cases j <;> first
        | (simp only [asXct, reduceCtorEq] at hx; done)
        | (simp only [asXct, Option.some.injEq, Prod.mk.injEq] at hx; simp [hx])
    subst hj
    rcases exec_xct_cases i y s with ⟨f, hf, e⟩ | ⟨k, hk, hkx, e⟩
    · right; refine ⟨?_, i, y, f, rfl, hf, e⟩; simp only [hf]
    · left; simp only [hk]; exact ⟨hkx, e⟩

/-- A completed instruction: its effective instruction went to the state `nextOf` gives. -/
theorem exec_next {j : Instr} {s t : State} (h : exec j s = .next t) :
    ∃ a, asXct (effective j s) = none ∧ eaIs s (effective j s) a ∧ neverCompletes (effective j s) = false ∧
      t = nextOf s a (effective j s) := by
  rcases exec_effective j s with ⟨h1, h2⟩ | ⟨-, i, y, f, -, -, h3⟩
  · rw [h2] at h
    rcases exec_plain_cases _ s h1 with ⟨i, y, -, -, e⟩ | ⟨f, e, -⟩ | ⟨a, ha, hf, -, e⟩
    · rw [e] at h; cases h
    · rw [e] at h; cases h
    · rw [e] at h; cases h; exact ⟨a, h1, ha, hf, rfl⟩
  · rw [h3] at h; cases h

/-- A fault of an instruction is a hang, which leaves no state, or leaves the state the instruction ran in. -/
theorem exec_fault {j : Instr} {s : State} {f : Fault} (h : exec j s = .fault f) :
    (f.isHang = true ∧ f.left? = none) ∨ (f.isHang = false ∧ f.left? = some s) := by
  rcases exec_effective j s with ⟨h1, h2⟩ | ⟨-, i, y, f', -, hn, h3⟩
  · rw [h2] at h
    rcases exec_plain_cases _ s h1 with ⟨i, y, -, -, e⟩ | ⟨f, e, hl, hh, -⟩ | ⟨a, -, -, -, e⟩ <;> rw [e] at h <;> cases h
    · exact .inl ⟨rfl, rfl⟩
    · exact .inr ⟨hh, hl⟩
  · rw [h3] at h
    cases h
    rcases xctNest_never hn with rfl | rfl <;> exact .inl ⟨rfl, rfl⟩

/-- No instruction is refused. -/
theorem exec_ne_refused (j : Instr) (s : State) (r : Refusal) : exec j s ≠ .refused r := by
  intro h
  rcases exec_effective j s with ⟨h1, h2⟩ | ⟨-, i, y, f, -, -, h3⟩
  · rw [h2] at h
    rcases exec_plain_cases _ s h1 with ⟨i, y, -, -, e⟩ | ⟨f, e, -⟩ | ⟨a, -, -, -, e⟩ <;> rw [e] at h <;> cases h
  · rw [h3] at h
    cases h

end Sys2Proof.Machine
end

