-- ==== Sys2Proof/Laws/PerInstr.lean ====
section
/-! SUPPORT. The family TableRow: the word of every instruction has its row's match under its row's mask
(spec/opcode_table.json), whatever its operands. -/

namespace Sys2Proof.Laws

/-- The mask and the match of an instruction's row in spec/opcode_table.json. -/
def tableRow : Instr → Word × Word
  | .and _ _ => (0o760000, 0o020000)
  | .ior _ _ => (0o760000, 0o040000)
  | .xor _ _ => (0o760000, 0o060000)
  | .xct _ _ => (0o760000, 0o100000)
  | .lac _ _ => (0o760000, 0o200000)
  | .lio _ _ => (0o760000, 0o220000)
  | .dac _ _ => (0o760000, 0o240000)
  | .dap _ _ => (0o760000, 0o260000)
  | .dip _ _ => (0o760000, 0o300000)
  | .dio _ _ => (0o760000, 0o320000)
  | .dzm _ _ => (0o760000, 0o340000)
  | .add _ _ => (0o760000, 0o400000)
  | .sub _ _ => (0o760000, 0o420000)
  | .idx _ _ => (0o760000, 0o440000)
  | .isp _ _ => (0o760000, 0o460000)
  | .sad _ _ => (0o760000, 0o500000)
  | .sas _ _ => (0o760000, 0o520000)
  | .mul _ _ => (0o760000, 0o540000)
  | .div _ _ => (0o760000, 0o560000)
  | .jmp _ _ => (0o760000, 0o600000)
  | .jsp _ _ => (0o760000, 0o620000)
  | .cal _ => (0o770000, 0o160000)
  | .jda _ => (0o770000, 0o170000)
  | .law _ => (0o760000, 0o700000)
  | .ral _ => (0o777000, 0o661000)
  | .ril _ => (0o777000, 0o662000)
  | .rcl _ => (0o777000, 0o663000)
  | .sal _ => (0o777000, 0o665000)
  | .sil _ => (0o777000, 0o666000)
  | .scl _ => (0o777000, 0o667000)
  | .rar _ => (0o777000, 0o671000)
  | .rir _ => (0o777000, 0o672000)
  | .rcr _ => (0o777000, 0o673000)
  | .sar _ => (0o777000, 0o675000)
  | .sir _ => (0o777000, 0o676000)
  | .scr _ => (0o777000, 0o677000)
  | .sza => (0o777777, 0o640100)
  | .snza => (0o777777, 0o650100)
  | .spa => (0o777777, 0o640200)
  | .snpa => (0o777777, 0o650200)
  | .sma => (0o777777, 0o640400)
  | .snma => (0o777777, 0o650400)
  | .szo => (0o777777, 0o641000)
  | .snzo => (0o777777, 0o651000)
  | .spi => (0o777777, 0o642000)
  | .snpi => (0o777777, 0o652000)
  | .skp _ _ _ => (0o774000, 0o640000)
  | .skpn _ _ _ => (0o774000, 0o650000)
  | .szs _ => (0o777707, 0o640000)
  | .szf _ => (0o777770, 0o640000)
  | .nop => (0o777777, 0o760000)
  | .cla => (0o777777, 0o760200)
  | .cli => (0o777777, 0o764000)
  | .cma => (0o777777, 0o761000)
  | .lap => (0o777777, 0o760300)
  | .hlt => (0o777777, 0o760400)
  | .lat => (0o777777, 0o762200)
  | .stf _ => (0o777770, 0o760010)
  | .clf _ => (0o777770, 0o760000)
  | .iot _ => (0o760000, 0o720000)
  | .illegalOp00 _ => (0o760000, 0o000000)
  | .illegalOp12 _ => (0o760000, 0o120000)
  | .illegalOp14 _ => (0o760000, 0o140000)
  | .illegalOp36 _ => (0o760000, 0o360000)
  | .illegalOp74 _ => (0o760000, 0o740000)
  | .illegalShift _ _ _ => (0o763000, 0o660000)
  | .illegalSkip _ _ => (0o764000, 0o644000)
  | .illegalOperateBit _ => (0o770000, 0o770000)
  | .illegalOperateField _ => (0o770000, 0o760000)

/-- The instruction's word has its row's match under its row's mask. -/
def TableRow.Statement (i : Instr) : Prop := encode i &&& (tableRow i).1 = (tableRow i).2

/-! What the row's mask keeps of each format. -/

theorem memWord_and (op : BitVec 6) (i : Bool) (y : Addr) :
    memWord op i y &&& 0o760000 = (op.extractLsb' 1 5 ++ 0#13 : Word) := by
  apply BitVec.eq_of_getLsbD_eq
  intro j hj
  simp only [memWord, BitVec.getLsbD_and, BitVec.getLsbD_append]
  interval_cases j <;> simp

theorem callWord_and (i : Bool) (y : Addr) :
    memWord 0o16 i y &&& 0o770000 = memWord 0o16 i 0 := by
  apply BitVec.eq_of_getLsbD_eq
  intro j hj
  simp only [memWord, BitVec.getLsbD_and, BitVec.getLsbD_append]
  interval_cases j <;> simp

theorem wideWord_and (op : BitVec 6) (n : BitVec 13) :
    wideWord op n &&& 0o760000 = (op.extractLsb' 1 5 ++ 0#13 : Word) := by
  apply BitVec.eq_of_getLsbD_eq
  intro j hj
  simp only [wideWord, BitVec.getLsbD_and, BitVec.getLsbD_append]
  interval_cases j <;> simp

theorem shiftWord_and (sub m : BitVec 9) : shiftWord sub m &&& 0o777000 = shiftWord sub 0 := by
  apply BitVec.eq_of_getLsbD_eq
  intro j hj
  simp only [shiftWord, BitVec.getLsbD_and, BitVec.getLsbD_append]
  interval_cases j <;> simp

theorem skipWord_and (n : Bool) (c : Conds) (k f : BitVec 3) :
    skipWord n c k f &&& 0o774000 = skipWord n {} 0 0 := by
  apply BitVec.eq_of_getLsbD_eq
  intro j hj
  simp only [skipWord, BitVec.getLsbD_and, BitVec.getLsbD_append]
  interval_cases j <;> simp

theorem operateFlag_and (b : BitVec 9) (k : BitVec 3) :
    operateWord (b ++ k) &&& 0o777770 = operateWord (b ++ 0#3) := by
  apply BitVec.eq_of_getLsbD_eq
  intro j hj
  simp only [operateWord, BitVec.getLsbD_and, BitVec.getLsbD_append]
  interval_cases j <;> simp

theorem operateField_and (m : BitVec 12) : operateWord m &&& 0o770000 = 0o760000 := by
  apply BitVec.eq_of_getLsbD_eq
  intro j hj
  simp only [operateWord, BitVec.getLsbD_and, BitVec.getLsbD_append]
  interval_cases j <;> simp

theorem illegalShift_and (d k : Bool) (m : BitVec 9) :
    encode (.illegalShift d k m) &&& 0o763000 = 0o660000 := by
  apply BitVec.eq_of_getLsbD_eq
  intro j hj
  simp only [encode, BitVec.getLsbD_and, BitVec.getLsbD_append]
  interval_cases j <;> simp

theorem illegalSkip_and (n : Bool) (x : BitVec 11) : encode (.illegalSkip n x) &&& 0o764000 = 0o644000 := by
  apply BitVec.eq_of_getLsbD_eq
  intro j hj
  simp only [encode, BitVec.getLsbD_and, BitVec.getLsbD_append]
  interval_cases j <;> simp

theorem illegalOperateBit_and (m : BitVec 12) : encode (.illegalOperateBit m) &&& 0o770000 = 0o770000 := by
  apply BitVec.eq_of_getLsbD_eq
  intro j hj
  simp only [encode, BitVec.getLsbD_and, BitVec.getLsbD_append]
  interval_cases j <;> simp

/-! One lemma for each instruction. -/

theorem TableRow.and (i : Bool) (y : Addr) : TableRow.Statement (.and i y) := memWord_and _ i y
theorem TableRow.ior (i : Bool) (y : Addr) : TableRow.Statement (.ior i y) := memWord_and _ i y
theorem TableRow.xor (i : Bool) (y : Addr) : TableRow.Statement (.xor i y) := memWord_and _ i y
theorem TableRow.xct (i : Bool) (y : Addr) : TableRow.Statement (.xct i y) := memWord_and _ i y
theorem TableRow.lac (i : Bool) (y : Addr) : TableRow.Statement (.lac i y) := memWord_and _ i y
theorem TableRow.lio (i : Bool) (y : Addr) : TableRow.Statement (.lio i y) := memWord_and _ i y
theorem TableRow.dac (i : Bool) (y : Addr) : TableRow.Statement (.dac i y) := memWord_and _ i y
theorem TableRow.dap (i : Bool) (y : Addr) : TableRow.Statement (.dap i y) := memWord_and _ i y
theorem TableRow.dip (i : Bool) (y : Addr) : TableRow.Statement (.dip i y) := memWord_and _ i y
theorem TableRow.dio (i : Bool) (y : Addr) : TableRow.Statement (.dio i y) := memWord_and _ i y
theorem TableRow.dzm (i : Bool) (y : Addr) : TableRow.Statement (.dzm i y) := memWord_and _ i y
theorem TableRow.add (i : Bool) (y : Addr) : TableRow.Statement (.add i y) := memWord_and _ i y
theorem TableRow.sub (i : Bool) (y : Addr) : TableRow.Statement (.sub i y) := memWord_and _ i y
theorem TableRow.idx (i : Bool) (y : Addr) : TableRow.Statement (.idx i y) := memWord_and _ i y
theorem TableRow.isp (i : Bool) (y : Addr) : TableRow.Statement (.isp i y) := memWord_and _ i y
theorem TableRow.sad (i : Bool) (y : Addr) : TableRow.Statement (.sad i y) := memWord_and _ i y
theorem TableRow.sas (i : Bool) (y : Addr) : TableRow.Statement (.sas i y) := memWord_and _ i y
theorem TableRow.mul (i : Bool) (y : Addr) : TableRow.Statement (.mul i y) := memWord_and _ i y
theorem TableRow.div (i : Bool) (y : Addr) : TableRow.Statement (.div i y) := memWord_and _ i y
theorem TableRow.jmp (i : Bool) (y : Addr) : TableRow.Statement (.jmp i y) := memWord_and _ i y
theorem TableRow.jsp (i : Bool) (y : Addr) : TableRow.Statement (.jsp i y) := memWord_and _ i y
theorem TableRow.cal (y : Addr) : TableRow.Statement (.cal y) := callWord_and false y
theorem TableRow.jda (y : Addr) : TableRow.Statement (.jda y) := callWord_and true y
theorem TableRow.law (n : BitVec 13) : TableRow.Statement (.law n) := wideWord_and _ n
theorem TableRow.ral (m : BitVec 9) : TableRow.Statement (.ral m) := shiftWord_and _ m
theorem TableRow.ril (m : BitVec 9) : TableRow.Statement (.ril m) := shiftWord_and _ m
theorem TableRow.rcl (m : BitVec 9) : TableRow.Statement (.rcl m) := shiftWord_and _ m
theorem TableRow.sal (m : BitVec 9) : TableRow.Statement (.sal m) := shiftWord_and _ m
theorem TableRow.sil (m : BitVec 9) : TableRow.Statement (.sil m) := shiftWord_and _ m
theorem TableRow.scl (m : BitVec 9) : TableRow.Statement (.scl m) := shiftWord_and _ m
theorem TableRow.rar (m : BitVec 9) : TableRow.Statement (.rar m) := shiftWord_and _ m
theorem TableRow.rir (m : BitVec 9) : TableRow.Statement (.rir m) := shiftWord_and _ m
theorem TableRow.rcr (m : BitVec 9) : TableRow.Statement (.rcr m) := shiftWord_and _ m
theorem TableRow.sar (m : BitVec 9) : TableRow.Statement (.sar m) := shiftWord_and _ m
theorem TableRow.sir (m : BitVec 9) : TableRow.Statement (.sir m) := shiftWord_and _ m
theorem TableRow.scr (m : BitVec 9) : TableRow.Statement (.scr m) := shiftWord_and _ m
theorem TableRow.sza : TableRow.Statement .sza := rfl
theorem TableRow.snza : TableRow.Statement .snza := rfl
theorem TableRow.spa : TableRow.Statement .spa := rfl
theorem TableRow.snpa : TableRow.Statement .snpa := rfl
theorem TableRow.sma : TableRow.Statement .sma := rfl
theorem TableRow.snma : TableRow.Statement .snma := rfl
theorem TableRow.szo : TableRow.Statement .szo := rfl
theorem TableRow.snzo : TableRow.Statement .snzo := rfl
theorem TableRow.spi : TableRow.Statement .spi := rfl
theorem TableRow.snpi : TableRow.Statement .snpi := rfl
theorem TableRow.skp (c : Conds) (k f : BitVec 3) : TableRow.Statement (.skp c k f) := skipWord_and false c k f
theorem TableRow.skpn (c : Conds) (k f : BitVec 3) : TableRow.Statement (.skpn c k f) := skipWord_and true c k f
theorem TableRow.szs (k : BitVec 3) : TableRow.Statement (.szs k) := by
  apply BitVec.eq_of_getLsbD_eq
  intro j hj
  simp only [encode, tableRow, skipWord, BitVec.getLsbD_and, BitVec.getLsbD_append]
  interval_cases j <;> simp
theorem TableRow.szf (f : BitVec 3) : TableRow.Statement (.szf f) := by
  apply BitVec.eq_of_getLsbD_eq
  intro j hj
  simp only [encode, tableRow, skipWord, BitVec.getLsbD_and, BitVec.getLsbD_append]
  interval_cases j <;> simp
theorem TableRow.nop : TableRow.Statement .nop := rfl
theorem TableRow.cla : TableRow.Statement .cla := rfl
theorem TableRow.cli : TableRow.Statement .cli := rfl
theorem TableRow.cma : TableRow.Statement .cma := rfl
theorem TableRow.lap : TableRow.Statement .lap := rfl
theorem TableRow.hlt : TableRow.Statement .hlt := rfl
theorem TableRow.lat : TableRow.Statement .lat := rfl
theorem TableRow.stf (k : BitVec 3) : TableRow.Statement (.stf k) := operateFlag_and _ k
theorem TableRow.clf (k : BitVec 3) : TableRow.Statement (.clf k) := operateFlag_and _ k
theorem TableRow.iot (n : BitVec 13) : TableRow.Statement (.iot n) := wideWord_and _ n
theorem TableRow.illegalOp00 (n : BitVec 13) : TableRow.Statement (.illegalOp00 n) := wideWord_and _ n
theorem TableRow.illegalOp12 (n : BitVec 13) : TableRow.Statement (.illegalOp12 n) := wideWord_and _ n
theorem TableRow.illegalOp14 (n : BitVec 13) : TableRow.Statement (.illegalOp14 n) := wideWord_and _ n
theorem TableRow.illegalOp36 (n : BitVec 13) : TableRow.Statement (.illegalOp36 n) := wideWord_and _ n
theorem TableRow.illegalOp74 (n : BitVec 13) : TableRow.Statement (.illegalOp74 n) := wideWord_and _ n
theorem TableRow.illegalShift (d k : Bool) (m : BitVec 9) : TableRow.Statement (.illegalShift d k m) := illegalShift_and d k m
theorem TableRow.illegalSkip (n : Bool) (x : BitVec 11) : TableRow.Statement (.illegalSkip n x) := illegalSkip_and n x
theorem TableRow.illegalOperateBit (m : BitVec 12) : TableRow.Statement (.illegalOperateBit m) := illegalOperateBit_and m
theorem TableRow.illegalOperateField (m : BitVec 12) : TableRow.Statement (.illegalOperateField m) := operateField_and m

end Sys2Proof.Laws
end

