-- ==== Sys2Proof/Laws/Run.lean ====
section
/-! SUPPORT. Runs of several steps: one step more, the sum of two runs, and a halted state that every run keeps. -/

namespace Sys2Proof.Machine

theorem runFor_zero (s : State) : runFor 0 s = .next s := rfl

theorem runFor_succ (n : Nat) (s : State) : runFor (n + 1) s =
    match step s with
    | .next t => runFor n t
    | .fault f => .fault f
    | .refused r => .refused r := by
  cases h : step s with
  | next t => simp only [runFor, Host.Core.run, show core.step s = .next t from h]; rfl
  | fault f => simp only [runFor, Host.Core.run, show core.step s = .fault f from h]; rfl
  | refused r => simp only [runFor, Host.Core.run, show core.step s = .refused r from h]; rfl

/-- A run of `n + m` steps is a run of `n` steps and then one of `m`. -/
theorem runFor_add (n m : Nat) (s : State) : runFor (n + m) s =
    match runFor n s with
    | .next t => runFor m t
    | .fault f => .fault f
    | .refused r => .refused r := by
  induction n generalizing s with
  | zero => rw [Nat.zero_add]; rfl
  | succ n ih =>
    rw [Nat.succ_add, runFor_succ, runFor_succ]
    cases step s with
    | next t => exact ih t
    | fault f => rfl
    | refused r => rfl

/-- A run from a halted state stays in it. -/
theorem runFor_halted {s : State} (h : s.run = .halted) (n : Nat) : runFor n s = .next s := by
  induction n with
  | zero => rfl
  | succ n ih => rw [runFor_succ, step_halted h]; exact ih

/-- No step is refused. -/
theorem step_ne_refused (s : State) (r : Refusal) : step s ≠ .refused r := by
  rcases step_cases s with ⟨-, e⟩ | ⟨-, -, e⟩ | ⟨w, -, -, e⟩ <;> rw [e]
  · simp
  · simp
  · exact exec_ne_refused _ _ r

end Sys2Proof.Machine
end

