-- ==== Sys2Proof/Tests/Slice0.lean ====
section
/-! SUPPORT. The model's own tests. Every expected word, outcome and value is taken from the spec: the encodings of
30_encoding.md §3 and §5 and the vectors of 95_test_vectors.md, whose conventions `at10` follows: one step, the word at
0o10, all else 0. The last part holds, for each statement with hypotheses, a witness that meets them. -/

namespace Sys2Proof.Tests

open Sys2Proof.Machine Sys2Proof.Claims

/-! ## Helpers -/

/-- The start state of a vector: the word at the PC and the listed memory words. -/
def place (s : State) (w : Word) (cells : List (Nat × Word)) : State :=
  { s with mem := Memory.write (cells.foldl (fun m c => m.write c.1 c.2) []) s.pc.toNat w }

/-- The vectors' state: PC = 0o10, all else as after reset. -/
def at10 : State := { State.reset with pc := 0o10 }

/-- A next state with a property. -/
def after (r : Result) (p : State → Bool) : Bool :=
  match r with
  | .next t => p t
  | .fault _ => false
  | .refused _ => false

/-- A fault with a property. -/
def faults (r : Result) (p : Fault → Bool) : Bool :=
  match r with
  | .fault f => p f
  | .next _ => false
  | .refused _ => false

/-- The next state of an answer, for the witnesses. -/
def nextState (r : Result) : State :=
  match r with
  | .next t => t
  | .fault _ => State.reset
  | .refused _ => State.reset

theorem nextState_of {r : Result} (h : after r (fun _ => true) = true) : r = .next (nextState r) := by
  cases r <;> first | rfl | cases h

/-- The fault of an answer, for the witnesses. -/
theorem fault_of {r : Result} {f : Fault} (h : faults r (fun g => decide (g = f)) = true) : r = .fault f := by
  cases r <;> first | (simp [faults] at h; rw [h]) | cases h

/-! ## WellFormed refuses an ill-formed term -/

theorem smoke_named_skip : Instr.wf (.skp { za := true } 0 0) = false := by decide

theorem smoke_named_skip_negated : Instr.wf (.skpn { pi := true } 0 0) = false := by decide

theorem smoke_index_only_skip : Instr.wf (.skp {} 3 0) = false ∧ Instr.wf (.skp {} 0 5) = false := by decide

theorem smoke_szs_zero : Instr.wf (.szs 0) = false := by decide

theorem smoke_szf_zero : Instr.wf (.szf 0) = false := by decide

theorem smoke_clf_zero : Instr.wf (.clf 0) = false := by decide

theorem smoke_operate_field : Instr.wf (.illegalOperateField 0o0200) = false := by decide

/-! ## Decoding, each constructor by a word written out from its encoding -/

/-- 30_encoding.md R69, R80: bits 17..13 the opcode, bit 12 i, bits 11..0 Y. -/
theorem decode_memory_reference_1 :
    decode 0b000010000001000000 = .and false 0o100 ∧ decode 0b000101000000000111 = .ior true 0o007 ∧
    decode 0b000110111111111111 = .xor false 0o7777 ∧ decode 0b001001000010000000 = .xct true 0o200 ∧
    decode 0b010000000001000000 = .lac false 0o100 ∧ decode 0b010011000000000001 = .lio true 0o001 ∧
    decode 0b010100000000001000 = .dac false 0o010 ∧ decode 0b010111000010000000 = .dap true 0o200 ∧
    decode 0b011000000010000000 = .dip false 0o200 ∧ decode 0b011011000010000000 = .dio true 0o200 := by decide

/-- 30_encoding.md R69, R80. -/
theorem decode_memory_reference_2 :
    decode 0b011101000000000101 = .dzm true 0o005 ∧ decode 0b100001000000010101 = .add true 0o025 ∧
    decode 0b100010000001000000 = .sub false 0o100 ∧ decode 0b100101000000001100 = .idx true 0o014 ∧
    decode 0b100110000000001011 = .isp false 0o013 ∧ decode 0b101001000001000000 = .sad true 0o100 ∧
    decode 0b101010000001000000 = .sas false 0o100 ∧ decode 0b101101000001000000 = .mul true 0o100 ∧
    decode 0b101110000001000000 = .div false 0o100 ∧ decode 0b110000000111111111 = .jmp false 0o777 ∧
    decode 0b110011000010000000 = .jsp true 0o200 := by decide

/-- 30_encoding.md R70: op 0o16, bit 12 selects cal or jda. -/
theorem decode_cal_jda :
    decode 0b001110000000111111 = .cal 0o077 ∧ decode 0b001111000011000000 = .jda 0o300 := by decide

/-- 30_encoding.md R71. -/
theorem decode_law : decode 0b111001111111111010 = .law 0o17772 ∧ decode 0b111000000000000101 = .law 5 := by decide

/-- 30_encoding.md R72, R82: 0o33, d, k, r, mask. -/
theorem decode_shift :
    decode 0b110110001000000001 = .ral 0o001 ∧ decode 0b110110010000000111 = .ril 0o007 ∧
    decode 0b110110011111111111 = .rcl 0o777 ∧ decode 0b110110101000000011 = .sal 0o003 ∧
    decode 0b110110110001010100 = .sil 0o124 ∧ decode 0b110110111000000000 = .scl 0o000 ∧
    decode 0b110111001000000001 = .rar 0o001 ∧ decode 0b110111010000000111 = .rir 0o007 ∧
    decode 0b110111011100000000 = .rcr 0o400 ∧ decode 0b110111101000000001 = .sar 0o001 ∧
    decode 0b110111110000000001 = .sir 0o001 ∧ decode 0b110111111000000001 = .scr 0o001 := by decide

/-- 30_encoding.md R73, R81, R95: the named skips. -/
theorem decode_named_skip :
    decode 0b110100000001000000 = .sza ∧ decode 0b110101000001000000 = .snza ∧ decode 0b110100000010000000 = .spa ∧
    decode 0b110101000010000000 = .snpa ∧ decode 0b110100000100000000 = .sma ∧
    decode 0b110101000100000000 = .snma ∧ decode 0b110100001000000000 = .szo ∧
    decode 0b110101001000000000 = .snzo ∧ decode 0b110100010000000000 = .spi ∧
    decode 0b110101010000000000 = .snpi := by decide

/-- 30_encoding.md R73, R96, R97: the lists and the indices. -/
theorem decode_skip_list :
    decode 0b110100000101000000 = .skp { za := true, ma := true } 0 0 ∧
    decode 0b110101000101000000 = .skpn { za := true, ma := true } 0 0 ∧
    decode 0b110100001000010011 = .skp { zo := true } 2 3 ∧ decode 0b110101000000000000 = .skpn {} 0 0 ∧
    decode 0b110100000000000000 = .skp {} 0 0 ∧ decode 0b110100000000011000 = .szs 3 ∧
    decode 0b110100000000000010 = .szf 2 ∧ decode 0b110100000000111111 = .skp {} 7 7 := by decide

/-- 30_encoding.md R74, R83. -/
theorem decode_operate :
    decode 0b111110000000000000 = .nop ∧ decode 0b111110000010000000 = .cla ∧ decode 0b111110100000000000 = .cli ∧
    decode 0b111110001000000000 = .cma ∧ decode 0b111110000011000000 = .lap ∧ decode 0b111110000100000000 = .hlt ∧
    decode 0b111110010010000000 = .lat ∧ decode 0b111110000000001011 = .stf 3 ∧
    decode 0b111110000000001000 = .stf 0 ∧ decode 0b111110000000000011 = .clf 3 := by decide

/-- 30_encoding.md R75, R84. -/
theorem decode_iot_and_illegal_opcodes :
    decode 0b111011001010011100 = .iot 0o11234 ∧ decode 0b000001111111111111 = .illegalOp00 0o17777 ∧
    decode 0b001010000000000000 = .illegalOp12 0 ∧ decode 0b001101111111111111 = .illegalOp14 0o17777 ∧
    decode 0b011110000000000000 = .illegalOp36 0 ∧ decode 0b111101111111111111 = .illegalOp74 0o17777 := by decide

/-- 30_encoding.md R85. -/
theorem decode_illegal_subops :
    decode 0b110110000000000001 = .illegalShift false false 0o001 ∧
    decode 0b110111100111111111 = .illegalShift true true 0o777 ∧
    decode 0b110100100001000000 = .illegalSkip false 0o100 ∧ decode 0b111111000010000000 = .illegalOperateBit 0o200 ∧
    decode 0b111110100010000000 = .illegalOperateField 0o4200 ∧
    decode 0b111110000000010000 = .illegalOperateField 0o0020 := by decide

/-- A number of more than 18 bits is no word. -/
theorem decode_table_word : decodeTableWord 18 0o200100 = some (.lac false 0o100) ∧ decodeTableWord 18 262144 = none := by
  decide

/-! ## Memory-reference arithmetic (95_test_vectors.md §1.7, §2.1, §2.2) -/

theorem test_add_overflow :
    after (step (place { at10 with ac := 0o400000 } 0o400100 [(0o100, 0o777776)]))
      (fun t => t.ac == 0o377777 && t.ov && t.pc == 0o11) = true := by decide

theorem test_add_negative_zero :
    after (step (place { at10 with ac := 0o777777 } 0o400100 [(0o100, 0o777777)]))
      (fun t => t.ac == 0 && !t.ov) = true := by decide

theorem test_sub_difference :
    after (step (place { at10 with ac := 0o000005, ov := true } 0o420100 [(0o100, 0o000007)]))
      (fun t => t.ac == 0o777775 && t.ov) = true := by decide

theorem test_sub_not_sticky :
    after (step (place { at10 with ac := 0o000003, ov := true, cfg := { Config.default with ovSticky := false } }
      0o420100 [(0o100, 0o777774)])) (fun t => t.ac == 0o000006 && !t.ov) = true := by decide

theorem test_idx_wraps :
    after (step (place at10 0o440100 [(0o100, 0o377777)]))
      (fun t => t.ac == 0o400000 && t.memRead 0o100 == 0o400000 && !t.ov) = true := by decide

theorem test_isp_skips_on_zero :
    after (step (place at10 0o460100 [(0o100, 0o777776)]))
      (fun t => t.ac == 0 && t.memRead 0o100 == 0 && t.pc == 0o12) = true := by decide

theorem test_isp_increments_itself :
    after (step (place at10 0o460010 [])) (fun t => t.ac == 0o460011 && t.memRead 0o10 == 0o460011 && t.pc == 0o11) = true := by
  decide

theorem test_mul_faults :
    faults (step (place at10 0o540100 [])) (fun f => decide (f = .unimplemented 0o540100
      { place at10 0o540100 [] with pc := 0o11 })) = true := by decide

theorem test_mul_hangs :
    faults (step (place at10 0o550100 [(0o100, 0o010100)])) (fun f => decide (f = .hangIndirectCycle)) = true := by
  decide +kernel

theorem test_div_faults_after_its_chain :
    faults (step (place at10 0o570100 [(0o100, 5)])) (fun f => decide (f.left? =
      some { place at10 0o570100 [(0o100, 5)] with pc := 0o11 })) = true := by decide

/-! ## Logic and transfer (95_test_vectors.md §2.3, §2.4) -/

theorem test_and_indirect :
    after (step (place { at10 with ac := 0o777777 } 0o030100 [(0o100, 0o010200), (0o200, 0o000017)]))
      (fun t => t.ac == 0o000017) = true := by decide

theorem test_xor_negative_zero :
    after (step (place at10 0o060100 [(0o100, 0o777777)])) (fun t => t.ac == 0o777777) = true := by decide

theorem test_ior :
    after (step (place { at10 with ac := 0o707070 } 0o040100 [(0o100, 0o770077)])) (fun t => t.ac == 0o777077) = true := by
  decide

theorem test_lac_two_links :
    after (step (place at10 0o210100 [(0o100, 0o010200), (0o200, 0o010300), (0o300, 0o001300)]))
      (fun t => t.ac == 0o001300) = true := by decide

theorem test_lac_pdp1 :
    after (step (place { at10 with cfg := { Config.default with indirect := .pdp1 } } 0o210100
      [(0o100, 0o010200), (0o200, 0o010300), (0o300, 0o001300), (0o1300, 0o005555)])) (fun t => t.ac == 0o005555) = true := by
  decide

theorem test_lio :
    after (step (place at10 0o220100 [(0o100, 0o123456)])) (fun t => t.io == 0o123456 && t.ac == 0) = true := by decide

theorem test_dac_next_instruction :
    after (step (place { at10 with ac := 0o760400 } 0o240011 [])) (fun t => t.fetch == some 0o760400) = true := by decide

theorem test_dap :
    after (step (place { at10 with ac := 0o400123 } 0o260200 [(0o200, 0o600000)]))
      (fun t => t.memRead 0o200 == 0o600123) = true := by decide

theorem test_dip_high5 :
    after (step (place { at10 with ac := 0o654321 } 0o300200 [(0o200, 0o002345)]))
      (fun t => t.memRead 0o200 == 0o642345) = true := by decide

theorem test_dip_high6 :
    after (step (place { at10 with ac := 0o654321, cfg := { Config.default with dipMask := .high6 } } 0o300200
      [(0o200, 0o002345)])) (fun t => t.memRead 0o200 == 0o652345) = true := by decide

theorem test_dio :
    after (step (place { at10 with io := 0o777777 } 0o320200 [])) (fun t => t.memRead 0o200 == 0o777777) = true := by decide

theorem test_dzm_itself :
    after (step (place at10 0o340010 [])) (fun t => t.memRead 0o10 == 0 && decide (t.mem = [])) = true := by decide

/-! ## Control (95_test_vectors.md §2.5) -/

theorem test_xct_skip :
    after (step (place at10 0o100200 [(0o200, 0o640100)])) (fun t => t.pc == 0o12) = true := by decide +kernel

theorem test_xct_nested :
    after (step (place at10 0o100200 [(0o200, 0o100201), (0o201, 0o760300)])) (fun t => t.ac == 0o000011) = true := by
  decide +kernel

theorem test_xct_cycle :
    faults (step (place at10 0o100010 [])) (fun f => decide (f = .hangXctCycle)) = true := by decide +kernel

theorem test_jmp_indirect :
    after (step (place at10 0o610100 [(0o100, 0o000200)])) (fun t => t.pc == 0o100) = true := by decide

theorem test_jmp_extend :
    after (step (place { at10 with pc := 0x1008, ext := true, cfg := { Config.default with memSize := .w8192 } } 0o600100 []))
      (fun t => t.pc == 0o100) = true := by decide

theorem test_jsp :
    after (step (place { at10 with ac := 0o123456, ov := true } 0o620200 []))
      (fun t => t.ac == 0o400011 && t.pc == 0o200 && t.ov) = true := by decide

theorem test_jsp_extend :
    after (step (place { at10 with ext := true } 0o620200 [])) (fun t => t.ac == 0o200011) = true := by decide

theorem test_cal :
    after (step (place { at10 with ac := 0o000007, ov := true } 0o160077 []))
      (fun t => t.ac == 0o400011 && t.memRead 0o100 == 0o000007 && t.pc == 0o101) = true := by decide

theorem test_cal_base :
    after (step (place { at10 with ac := 0o000007, cfg := { Config.default with calBase := 0o200 } } 0o160000 []))
      (fun t => t.memRead 0o200 == 0o000007 && t.pc == 0o201) = true := by decide

theorem test_jda_wraps :
    after (step (place { at10 with ac := 0o000042 } 0o177777 []))
      (fun t => t.ac == 0o000011 && t.memRead 0o7777 == 0o000042 && t.pc == 0) = true := by decide

theorem test_jda_has_no_chain :
    after (step (place { at10 with ac := 0o000001 } 0o170100 [(0o100, 0o010100)]))
      (fun t => t.memRead 0o100 == 0o000001 && t.pc == 0o101) = true := by decide

theorem test_sad_two_zeros :
    after (step (place at10 0o500100 [(0o100, 0o777777)])) (fun t => t.pc == 0o12) = true := by decide

theorem test_sas_two_zeros :
    after (step (place at10 0o520100 [(0o100, 0o777777)])) (fun t => t.pc == 0o11) = true := by decide

theorem test_sas_same :
    after (step (place { at10 with ac := 5 } 0o520100 [(0o100, 5)])) (fun t => t.pc == 0o12) = true := by decide

/-! ## law (95_test_vectors.md §2.7) -/

theorem test_law_negative :
    after (step (place { at10 with ac := 0o123456 } 0o717772 [])) (fun t => t.ac == 0o777772) = true := by decide

theorem test_law_fault :
    faults (step (place { at10 with cfg := { Config.default with lawExec := .fault } } 0o700005 []))
      (fun f => match f with | .unimplemented w t => w == 0o700005 && t.pc == 0o11 | _ => false) = true := by decide

/-! ## Shift group (95_test_vectors.md §2.8) -/

theorem test_ral : after (step (place { at10 with ac := 0o123456 } 0o661007 [])) (fun t => t.ac == 0o234561) = true := by decide

theorem test_ral_counts_bits :
    after (step (place { at10 with ac := 0o000001 } 0o661124 [])) (fun t => t.ac == 0o000010) = true := by decide

theorem test_ril : after (step (place { at10 with io := 0o654321 } 0o662007 [])) (fun t => t.io == 0o543216) = true := by decide

theorem test_rcl :
    after (step (place { at10 with ac := 0o777774, io := 0o000005 } 0o663777 []))
      (fun t => t.ac == 0o774000 && t.io == 0o005777) = true := by decide

theorem test_sal : after (step (place { at10 with ac := 0o777774 } 0o665777 [])) (fun t => t.ac == 0o774777) = true := by decide

theorem test_sal_loses_bit_16 :
    after (step (place { at10 with ac := 0o200000 } 0o665001 [])) (fun t => t.ac == 0 && !t.ov) = true := by decide

theorem test_sil : after (step (place { at10 with io := 0o654321 } 0o666007 [])) (fun t => t.io == 0o543217) = true := by decide

theorem test_scl :
    after (step (place { at10 with ac := 0o123456, io := 0o654321 } 0o667007 []))
      (fun t => t.ac == 0o234566 && t.io == 0o543210) = true := by decide

theorem test_rar : after (step (place { at10 with ac := 0o123456 } 0o671007 [])) (fun t => t.ac == 0o612345) = true := by decide

theorem test_rir : after (step (place { at10 with io := 0o654321 } 0o672007 [])) (fun t => t.io == 0o165432) = true := by decide

theorem test_rcr :
    after (step (place { at10 with ac := 0o123456, io := 0o654321 } 0o673007 []))
      (fun t => t.ac == 0o112345 && t.io == 0o665432) = true := by decide

theorem test_sar : after (step (place { at10 with ac := 0o777776 } 0o675001 [])) (fun t => t.ac == 0o777777) = true := by decide

theorem test_sir : after (step (place { at10 with io := 0o654321 } 0o676007 [])) (fun t => t.io == 0o765432) = true := by decide

theorem test_scr :
    after (step (place { at10 with ac := 0o777774, io := 0o000005 } 0o677777 []))
      (fun t => t.ac == 0o777777 && t.io == 0o774000) = true := by decide

/-! ## Skip group (95_test_vectors.md §2.9) -/

theorem test_sza_negative_zero :
    after (step (place { at10 with ac := 0o777777 } 0o640100 [])) (fun t => t.pc == 0o11) = true := by decide

theorem test_sza_wraps :
    after (step (place { at10 with pc := 0o7777 } 0o640100 [])) (fun t => t.pc == 1) = true := by decide

theorem test_snza : after (step (place { at10 with ac := 0o777777 } 0o650100 [])) (fun t => t.pc == 0o12) = true := by decide

theorem test_spa : after (step (place { at10 with ac := 0o777777 } 0o640200 [])) (fun t => t.pc == 0o11) = true := by decide

theorem test_snpa : after (step (place { at10 with ac := 0o400000 } 0o650200 [])) (fun t => t.pc == 0o12) = true := by decide

theorem test_sma : after (step (place { at10 with ac := 0o777777 } 0o640400 [])) (fun t => t.pc == 0o12) = true := by decide

theorem test_snma : after (step (place { at10 with ac := 5 } 0o650400 [])) (fun t => t.pc == 0o12) = true := by decide

theorem test_szo : after (step (place { at10 with ov := true } 0o641000 [])) (fun t => t.pc == 0o11 && !t.ov) = true := by decide

theorem test_snzo : after (step (place { at10 with ov := true } 0o651000 [])) (fun t => t.pc == 0o12 && !t.ov) = true := by decide

theorem test_spi : after (step (place { at10 with io := 0o400000 } 0o642000 [])) (fun t => t.pc == 0o11) = true := by decide

theorem test_snpi : after (step (place { at10 with io := 0o400000 } 0o652000 [])) (fun t => t.pc == 0o12) = true := by decide

theorem test_skp_clears_ov :
    after (step (place { at10 with ov := true } 0o641100 [])) (fun t => t.pc == 0o12 && !t.ov) = true := by decide

theorem test_skp_none : after (step (place at10 0o640000 [])) (fun t => t.pc == 0o11) = true := by decide

theorem test_skpn : after (step (place { at10 with ac := 3 } 0o650500 [])) (fun t => t.pc == 0o12) = true := by decide

theorem test_skpn_none : after (step (place at10 0o650000 [])) (fun t => t.pc == 0o12) = true := by decide

theorem test_szs :
    after (step (place { at10 with ss := ⟨true, true, false, true, true, true⟩ } 0o640030 [])) (fun t => t.pc == 0o12) = true := by
  decide

theorem test_szs_all :
    after (step (place { at10 with ss := ⟨false, false, false, false, false, true⟩ } 0o640070 []))
      (fun t => t.pc == 0o11) = true := by decide

theorem test_szf :
    after (step (place { at10 with pf := ⟨true, false, true, true, true, true⟩ } 0o640002 [])) (fun t => t.pc == 0o12) = true := by
  decide

theorem test_szf_all : after (step (place at10 0o640007 [])) (fun t => t.pc == 0o12) = true := by decide

/-! ## Operate group (95_test_vectors.md §2.10) -/

theorem test_nop :
    after (step (place { at10 with ac := 0o123456, io := 0o654321 } 0o760000 [])) (fun t =>
      decide (t = { place { at10 with ac := 0o123456, io := 0o654321 } 0o760000 [] with pc := 0o11 })) = true := by decide

theorem test_cla : after (step (place { at10 with ac := 0o123456, io := 1 } 0o760200 [])) (fun t => t.ac == 0 && t.io == 1) = true := by
  decide

theorem test_cli : after (step (place { at10 with ac := 1, io := 0o777777 } 0o764000 [])) (fun t => t.ac == 1 && t.io == 0) = true := by
  decide

theorem test_cma : after (step (place at10 0o761000 [])) (fun t => t.ac == 0o777777) = true := by decide

theorem test_lap :
    after (step (place { at10 with pc := 0o40, ext := true } 0o760300 [])) (fun t => t.ac == 0o200041 && t.pc == 0o41) = true := by
  decide

theorem test_hlt : after (step (place at10 0o760400 [])) (fun t => decide (t.run = .halted) && t.pc == 0o11) = true := by decide

theorem test_lat_faults :
    faults (step (place at10 0o762200 []))
      (fun f => match f with | .unimplemented w t => w == 0o762200 && t.pc == 0o11 | _ => false) = true := by decide

theorem test_stf : after (step (place at10 0o760013 [])) (fun t => decide (t.pf = ⟨false, false, true, false, false, false⟩)) = true := by
  decide

theorem test_stf_all :
    after (step (place at10 0o760017 [])) (fun t => decide (t.pf = ⟨true, true, true, true, true, true⟩)) = true := by decide

theorem test_clf :
    after (step (place { at10 with pf := ⟨true, true, true, true, true, true⟩ } 0o760003 []))
      (fun t => decide (t.pf = ⟨true, true, false, true, true, true⟩)) = true := by decide

theorem test_clf_all :
    after (step (place { at10 with pf := ⟨true, true, true, true, true, true⟩ } 0o760007 [])) (fun t => decide (t.pf = {})) = true := by
  decide

/-! ## Stops and the cycle (95_test_vectors.md §2.11) -/

theorem test_iot_faults :
    faults (step (place at10 0o731234 []))
      (fun f => match f with | .unimplemented w t => w == 0o731234 && t.pc == 0o11 | _ => false) = true := by decide

theorem test_illegal_opcodes_fault :
    [0o000000, 0o017777, 0o120000, 0o137777, 0o140000, 0o157777, 0o360000, 0o377777, 0o740000, 0o757777].all
      (fun w => faults (step (place { at10 with ac := 1 } w []))
        (fun f => match f with | .illegalOpcode v t => v == w && t.pc == 0o11 && t.ac == 1 | _ => false)) = true := by
  decide +kernel

theorem test_illegal_subops_fault :
    [0o660001, 0o674777, 0o644100, 0o764200, 0o770200].all
      (fun w => faults (step (place { at10 with ac := 5 } w []))
        (fun f => match f with | .illegalSubop v t => v == w && t.pc == 0o11 && t.ac == 5 | _ => false)) = true := by
  decide +kernel

theorem test_pc_wraps : after (step (place { at10 with pc := 0o7777 } 0o760000 [])) (fun t => t.pc == 0) = true := by decide

theorem test_pc_extend :
    after (step (place { at10 with pc := 0o7777, ext := true } 0o760000 []))
      (fun t => t.pc == 0o10000 && faults (step t) (fun f => decide (f = .fetchOutOfRange 0o10000 t))) = true := by decide

theorem test_idle :
    after (step { at10 with run := .halted }) (fun t => decide (t = { at10 with run := .halted })) = true := by decide

theorem test_word_placed : step (State.reset.withFetchWord 18 0o760200) = .next { place State.reset 0o760200 [] with pc := 1 } := rfl

/-! ## Around the block (95_test_vectors.md §1; 20_memory.md R60) -/

theorem test_launch :
    (Launch.start { tape := [0o200003, 0o240012, 0o760400, 0o000005] }).map (fun s => s.mem) =
      some [(0, 0o200003), (1, 0o240012), (2, 0o760400), (3, 0o000005)] := by decide

theorem test_tape_row_six : blockOfWord 0o404040 = ⟨true, true, true⟩ :: List.replicate 5 ⟨false, false, false⟩ := by decide

theorem test_numeric_labels :
    let t : LabelTable := { numeric := [(5, 2), (5, 7), (5, 20)] }
    t.resolve (.forward 5) 10 = .ok 20 ∧ t.resolve (.backward 5) 10 = .ok 7 ∧
    t.resolve (.backward 5) 1 = .error .undefinedLabel ∧ t.resolve (.backward 5) 25 = .ok 20 ∧
    t.resolve (.forward 5) 20 = .error .undefinedLabel ∧ t.resolve (.backward 5) 7 = .ok 2 ∧
    t.resolve (.forward 5) 1 = .ok 2 := by decide

/-- An instruction line without a label. -/
def line (m : String) (o : Option String := none) : Line := { stmt := .instr m.toList (o.map String.toList) }

/-- A directive line without a label. -/
def dirLine (n : String) (os : List String := []) : Line := { stmt := .directive n.toList (os.map String.toList) }

theorem test_assemble :
    assemble [line "lac" "#3", line "dac" "#10", line "hlt", dirLine "fill" ["5"]] =
      .ok [0o200003, 0o240012, 0o760400, 0o000005] := by decide

theorem test_assemble_bare_number :
    assemble [line "lac" "#5", line "dac" "10", line "hlt"] = .error ⟨.invalidLabelFormat, "10".toList⟩ := by decide

theorem test_assembled_words :
    assemble [line "lac" "&#64", line "add" "&#21", line "cal" "#0", line "jda" "#192", line "law" "#-5",
      line "skpn" "za|zo"] = .ok [0o210100, 0o410025, 0o160000, 0o170300, 0o717772, 0o651100] := by decide

theorem test_cal_marked_refused : assemble [line "cal" "&#1"] = .error ⟨.invalidOperand, "&#1".toList⟩ := by decide

theorem test_space : assemble [dirLine "space" ["3"]] = .ok [0, 0, 0] := by decide

theorem test_macro :
    assemble [dirLine "macro" ["INC", "X"], line "add" "X", dirLine "endmacro", line "INC" "#5"] = .ok [0o400005] ∧
    expandMacros [] none [dirLine "macro" ["INC", "X"], line "add" "X", dirLine "endmacro", line "INC" "foo"] =
      .ok [line "add" "foo"] := by decide

theorem test_macro_overwritten :
    expandMacros [] none [dirLine "macro" ["INC", "X"], line "add" "X", dirLine "endmacro", dirLine "macro" ["INC", "X"],
      line "sub" "X", dirLine "endmacro", line "INC" "foo"] = .ok [line "sub" "foo"] := by decide

theorem test_undefined_macro :
    assemble [line "hlt", { stmt := .invocation "INC".toList ["foo".toList] }] = .error ⟨.undefinedMacro, "INC".toList⟩ := by
  decide

theorem test_undefined_label : assemble [line "jmp" "foo"] = .error ⟨.undefinedLabel, "foo".toList⟩ := by decide

theorem test_unknown_mnemonic : assemble [line "iot" "#1"] = .error ⟨.invalidOpcode, "iot".toList⟩ := by decide

theorem test_accesses :
    stepAccesses (place at10 0o450100 [(0o100, 0o010200), (0o200, 0o000005)]) =
      [.fetch 0o10, .read 0o100, .read 0o200, .read 0o200, .write 0o200] := by decide +kernel

/-! ## Witnesses: a concrete state and operands for the hypotheses of each statement, and for each of its clauses -/

/-- Two chains: 0o100 to 0o200, which ends it, and 0o300 to itself. -/
def chained : State := { at10 with ac := 5, mem := [(0o100, 0o010200), (0o200, 0o000042), (0o300, 0o010300)] }

/-- A whole step. -/
def stepOf (w : Word) : State := place at10 w [(0o100, 0o000042), (0o200, 0o100200), (0o300, 0o010300)]

/-- The hypotheses of the results of memory-reference instructions: a direct form, a terminating and a cyclic chain. -/
theorem witness_effective_address :
    chained.ea false 0o7777 = some 0o7777 ∧ chained.ea true 0o100 = some 0o200 ∧ chained.ea true 0o300 = none := by
  decide +kernel

theorem witness_DecodeOfEncodeIsTheInstruction :
    Instr.wf (.skp { za := true, pi := true } 0 0) = true ∧ Instr.wf (.skp {} 7 7) = true ∧ Instr.wf (.skpn {} 0 7) = true ∧
    Instr.wf (.szs 7) = true ∧ Instr.wf (.szf 1) = true ∧ Instr.wf (.clf 7) = true ∧
    Instr.wf (.illegalOperateField 0o0020) = true ∧ Instr.wf (.add true 0o7777) = true := by decide

theorem witness_IllegalWordsAreThoseListed :
    isIllegalOpcode (decode 0o000000) = true ∧ isIllegalOpcode (decode 0o757777) = true ∧
    isIllegalOpcode (decode 0o020000) = false ∧ isIllegalSubop (decode 0o660777) = true ∧
    isIllegalSubop (decode 0o661000) = false ∧ isIllegalSubop (decode 0o644000) = true ∧
    isIllegalSubop (decode 0o643777) = false ∧ isIllegalSubop (decode 0o760017) = false ∧
    isIllegalSubop (decode 0o760020) = true ∧ isIllegalSubop (decode 0o760200) = false ∧
    isIllegalSubop (decode 0o764000) = false ∧ isIllegalSubop (decode 0o770000) = true := by decide

theorem witness_SpellingsOfOneWordActAlike :
    (∀ m, Instr.clf 0 = .illegalOperateField m → knownMicroOp m = false) ∧
    (∀ m, Instr.illegalOperateField 0o4200 = .illegalOperateField m → knownMicroOp m = false) :=
  ⟨fun _ h => (nomatch h), fun _ h => by injection h with h; subst h; decide⟩

theorem witness_StepExecutesTheFetchedWord :
    (stepOf 0o760200).run = .running ∧ (stepOf 0o760200).pc.toNat < (stepOf 0o760200).cfg.memSize.words ∧
    ({ at10 with pc := 0o7777 } : State).pc.toNat < at10.cfg.memSize.words := by decide

theorem witness_OnlyHltHaltsAndHaltedStays :
    ({ at10 with run := .halted } : State).run = .halted ∧ (stepOf 0o760400).run = .running ∧
    step (stepOf 0o760400) = .next (nextState (step (stepOf 0o760400))) ∧
    step (stepOf 0o760200) = .next (nextState (step (stepOf 0o760200))) :=
  ⟨rfl, rfl, nextState_of (by decide), nextState_of (by decide)⟩

theorem witness_FetchOutsideMemoryFaults :
    at10.run = .running ∧ at10.cfg.memSize.words ≤ ({ at10 with pc := 0o10000, ext := true } : State).pc.toNat ∧
    ({ at10 with pc := 0o7777 } : State).inv = true ∧ at10.ext = false := by decide

theorem witness_EveryStepHasAnOutcome :
    stepEnd { at10 with run := .halted } = some .idle ∧ stepEnd (stepOf 0o760200) = some .continued ∧
    stepEnd (stepOf 0o000000) = some .fault ∧ stepEnd (stepOf 0o210300) = some .hang := by decide +kernel

theorem witness_FaultsArePrecise :
    step (stepOf 0o210300) = .fault .hangIndirectCycle ∧
    step { at10 with pc := 0o10000, ext := true } = .fault (.fetchOutOfRange 0o10000 { at10 with pc := 0o10000, ext := true }) ∧
    step (stepOf 0o000000) = .fault (.illegalOpcode 0 { stepOf 0o000000 with pc := 0o11 }) :=
  ⟨fault_of (by decide +kernel), fault_of (by decide), fault_of (by decide)⟩

theorem witness_StepKeepsLegalStates :
    (stepOf 0o240300).inv = true ∧ step (stepOf 0o240300) = .next (nextState (step (stepOf 0o240300))) :=
  ⟨by decide, nextState_of (by decide)⟩

/-- A launch with a tape of two words and one word of `L_MEM`. -/
def sampleLaunch : Launch := { ac := 7, pf := { f2 := true }, tape := [0o760200, 0], lMem := [0o760400] }

theorem witness_LaunchHoldsItsInputs :
    (Launch.start sampleLaunch).isSome = true ∧ 1 < sampleLaunch.tape.length ∧
    4093 < sampleLaunch.cfg.memSize.words - sampleLaunch.tape.length ∧
    sampleLaunch.cfg.memSize.words < ({ sampleLaunch with tape := List.replicate 4097 0 } : Launch).tape.length := by
  refine ⟨by decide, by decide, by decide, ?_⟩
  rw [List.length_replicate]
  decide

theorem witness_NoStepChangesTheConstruction : step (stepOf 0o760013) = .next (nextState (step (stepOf 0o760013))) :=
  nextState_of (by decide)

theorem witness_RegistersHaveTheirListedWriters :
    after (exec (.lac false 0o100) chained) (fun t => decide (t.ac ≠ chained.ac)) = true ∧
    after (exec (.lio false 0o100) chained) (fun t => decide (t.io ≠ chained.io)) = true ∧
    after (exec .szo { chained with ov := true }) (fun t => decide (t.ov ≠ true)) = true ∧
    after (exec (.stf 3) chained) (fun t => decide (t.pf ≠ chained.pf)) = true ∧
    after (exec .hlt chained) (fun t => decide (t.run ≠ chained.run)) = true := by decide

theorem witness_OnlyListedWritesChangeMemory :
    exec (.dac false 0o200) chained = .next (nextState (exec (.dac false 0o200) chained)) ∧
    ∀ b, .write b ∈ accesses (.dac false 0o200) chained → b.toNat ≠ 0o100 := by
  refine ⟨nextState_of (by decide), fun b h => ?_⟩
  have e : accesses (.dac false 0o200) chained = [.write 0o200] := by decide
  rw [e] at h
  simp only [List.mem_singleton, Access.write.injEq] at h
  subst h
  decide

theorem witness_OnlyListedReadsMatter :
    exec (.lac true 0o100) chained = .next (nextState (exec (.lac true 0o100) chained)) ∧
    ∀ a, .read a ∈ accesses (.lac true 0o100) chained →
      Memory.read [(0o100, 0o010200), (0o200, 0o000042), (0o400, 1)] a.toNat = chained.mem.read a.toNat := by
  refine ⟨nextState_of (by decide), fun a h => ?_⟩
  have e : accesses (.lac true 0o100) chained = [.read 0o100, .read 0o200, .read 0o200] := by decide +kernel
  rw [e] at h
  simp only [List.mem_cons, List.not_mem_nil, or_false, Access.read.injEq, or_self] at h
  rcases h with rfl | rfl <;> decide

theorem witness_WriteIsSeenByReadAndFetch : at10.pc.toNat = (0o10 : Addr).toNat ∧ (0o7777 : Nat) ≠ (0o10 : Addr).toNat := by decide

theorem witness_EqualWordsAreEqualMemories :
    Memory.wf [(3, 1), (0o100, 5)] = true ∧ Memory.wf (Memory.write (Memory.write [(3, 1)] 0o100 7) 0o100 5) = true ∧
    ∀ a, Memory.read [(3, 1), (0o100, 5)] a = Memory.read (Memory.write (Memory.write [(3, 1)] 0o100 7) 0o100 5) a :=
  ⟨by decide, by decide, fun a => by
    have e : Memory.write (Memory.write [(3, 1)] 0o100 7) 0o100 5 = [(3, 1), (0o100, 5)] := by decide
    rw [e]⟩

theorem witness_DepositedInstructionRunsNext :
    at10.run = .running ∧ at10.ea false 0o10 = some 0o10 ∧ at10.pc.toNat = (0o10 : Addr).toNat ∧
    exec (.dac false 0o10) at10 = .next (nextState (exec (.dac false 0o10) at10)) :=
  ⟨rfl, rfl, by decide, nextState_of (by decide)⟩

theorem witness_EveryRunHasOneEnd :
    HaltsIn (stepOf 0o760400) (nextState (step (stepOf 0o760400))) ∧
    FaultsWith { at10 with pc := 0o10000, ext := true } (.fetchOutOfRange 0o10000 { at10 with pc := 0o10000, ext := true }) ∧
    HangsWith (stepOf 0o210300) .hangIndirectCycle :=
  ⟨⟨1, nextState_of (by decide), by decide⟩, ⟨1, fault_of (by decide), rfl⟩, ⟨1, fault_of (by decide +kernel), rfl⟩⟩

theorem witness_SignedReadingOfWords :
    (0o377777 : Word).getLsbD 17 = false ∧ (0o400000 : Word).getLsbD 17 = true ∧ val 0o377777 = 131071 ∧
    val 0o400000 = -131071 ∧ oc (-131071) = 0o400000 ∧ oc 131071 = 0o377777 ∧ oc (-1) = 0o777776 := by decide

theorem witness_RawSumIsEndAroundCarry :
    262144 ≤ (0o777777 : Word).toNat + (0o000001 : Word).toNat ∧ (0o777776 : Word).toNat + (0o000001 : Word).toNat < 262144 := by
  decide

theorem witness_AdditionIsExact :
    (ocAdd 0o377777 0o000001).2 = true ∧ 0 < val 0o377777 + val 0o000001 ∧ (ocAdd 0o400000 0o777776).2 = true ∧
    val 0o400000 + val 0o777776 < 0 ∧ (ocAdd 0o377777 0o000000).2 = false ∧ val 0o123456 + val 0o654321 = 0 := by decide

theorem witness_SubtractionIsExact :
    (ocSub 0o377777 0o777776).2 = true ∧ 0 < val 0o377777 - val 0o777776 ∧ (ocSub 0o400000 0o000001).2 = true ∧
    val 0o400000 - val 0o000001 < 0 ∧ (ocSub 0o377777 0o000000).2 = false ∧ val 0o777777 - val 0o000000 = 0 := by decide

theorem witness_IncrementAddsOne : val 0o377776 < 131071 ∧ val 0o777777 < 131071 ∧ val 0o377777 = 131071 := by decide

theorem witness_RotatesMoveEveryBit : 0 ≤ 9 ∧ 9 ≤ 9 ∧ 0 < 18 ∧ 17 < 18 ∧ 35 < 36 := by decide

theorem witness_ShiftsDivideAndMultiply :
    9 ≤ 9 ∧ (val 0o000377).natAbs < 2 ^ (17 - 9) ∧ (val 0o777400).natAbs < 2 ^ (17 - 9) := by decide

theorem witness_IndirectChainsAreDecidedExactly :
    linked chained.mem (link chained.mem 0 0o100) ∧ ¬linked chained.mem (link chained.mem 1 0o100) ∧
    ¬linked chained.mem (link chained.mem 0 0o200) ∧ chained.cfg.indirect = .source ∧
    ({ chained with cfg := { Config.default with indirect := .pdp1 } } : State).cfg.indirect = .pdp1 ∧
    ({ chained with cfg := { Config.default with indirect := .pdp1 } } : State).ea true 0o100 = some 0o42 := by
  unfold linked
  decide

theorem witness_XctCyclesAreDecidedExactly :
    exec (.xct false 0o200) (stepOf 0) = .fault .hangXctCycle ∧ (nested (stepOf 0) 1 (false, 0o200)).isSome = true ∧
    (nested (stepOf 0) 1 (false, 0o100)).isSome = false :=
  ⟨fault_of (by decide +kernel), by decide, by decide⟩

theorem witness_CyclicChainHangsEveryMemoryReference : .jsp ∈ memoryReference ∧ chained.ea true 0o300 = none :=
  ⟨by simp [memoryReference], witness_effective_address.2.2⟩

theorem witness_ShiftCountIsThePopulationCount :
    Mnemonic.kind .scr = .shift 0o677 ∧ 0 ≤ 9 ∧ 9 ≤ 9 ∧ shiftCount 0o000 = 0 ∧ shiftCount 0o777 = 9 ∧ shiftCount 0o124 = 3 := by
  decide

theorem witness_AddResult : chained.ea true 0o100 = some 0o200 ∧ chained.ea true 0o300 = none :=
  witness_effective_address.2

theorem witness_SubResult : chained.ea true 0o100 = some 0o200 := by decide +kernel

theorem witness_MulAndDivFaultAfterTheirChain : chained.ea true 0o100 = some 0o200 := by decide +kernel

theorem witness_IdxAndIspResults :
    chained.ea false 0o200 = some 0o200 ∧ (ocInc (chained.mem.read 0o200)).getLsbD 17 = false ∧
    (ocInc (Memory.read [(0o200, 0o400000)] 0o200)).getLsbD 17 = true := by decide

theorem witness_LogicAndLoadResults :
    chained.ea true 0o100 = some 0o200 ∧ chained.ea true 0o300 = none ∧ 0 ≤ 511 ∧ 511 ≤ 511 :=
  ⟨witness_effective_address.2.1, witness_effective_address.2.2, by decide, by decide⟩

theorem witness_DepositResults :
    (chained.ea true 0o100 = some 0o200 ∧ chained.ea true 0o300 = none) ∧ at10.ea false 0o10 = some 0o10 ∧
    at10.pc.toNat = (0o10 : Addr).toNat ∧ after (exec (.dac false 0o10) at10) (fun _ => true) = true ∧
    after (exec (.dio false 0o10) at10) (fun _ => true) = true :=
  ⟨witness_effective_address.2, by decide, by decide, by decide, by decide⟩

theorem witness_DipResult :
    chained.ea true 0o100 = some 0o200 ∧ chained.cfg.dipMask = .high5 ∧
    ({ chained with cfg := { Config.default with dipMask := .high6 } } : State).cfg.dipMask = .high6 := by decide +kernel

theorem witness_JmpResult :
    (chained.ea true 0o100 = some 0o200 ∧ chained.ea true 0o300 = none) ∧ (stepOf 0o600010).run = .running ∧
    (stepOf 0o600010).pc = BitVec.ofNat 16 (0o10 : Addr).toNat ∧
    (stepOf 0o600010).mem.read (0o10 : Addr).toNat = refWord 0o600000 false 0o10 :=
  ⟨witness_effective_address.2, by decide, by decide, by decide⟩

theorem witness_CallResults : chained.ea true 0o100 = some 0o200 := by decide +kernel

theorem witness_SadAndSasResults :
    chained.ea true 0o100 = some 0o200 ∧ chained.ac ≠ chained.mem.read 0o200 ∧ (5 : Word) = Memory.read [(0o200, 5)] 0o200 := by
  decide +kernel

theorem witness_XctRunsItsTargetInPlace :
    (stepOf 0).ea false 0o200 = some 0o200 ∧ chained.ea true 0o100 = some 0o200 := by decide +kernel

theorem witness_InstructionsCompleteExactlyWhen :
    completes chained (.add true 0o100) = true ∧
    completes { chained with mem := [(0o100, 0o760200)] } (.xct false 0o100) = true ∧ completes chained .lat = false := by
  decide +kernel

theorem witness_LawResult :
    at10.cfg.lawExec = .sext13 ∧ ({ at10 with cfg := { Config.default with lawExec := .fault } } : State).cfg.lawExec = .fault ∧
    (-4095 : Int) ≤ -4095 ∧ (4095 : Int) ≤ 4095 ∧ oc13 (-4095) = 0o10000 ∧ oc13 4095 = 0o07777 ∧ oc13 0 = 0 := by decide

theorem witness_ArithmeticShiftResults : 0 < 18 ∧ 17 < 18 := by decide

theorem witness_NamedSkipResults :
    exec .szo { at10 with ov := true } = .next (nextState (exec .szo { at10 with ov := true })) ∧
    ({ zo := true, za := true } : Conds).zo = true ∧
    exec (.skp { zo := true, za := true } 1 7) at10 = .next (nextState (exec (.skp { zo := true, za := true } 1 7) at10)) :=
  ⟨nextState_of (by decide), rfl, nextState_of (by decide)⟩

theorem witness_SkipGroupResults :
    skipHolds { pi := true } 0 0 at10 ∧ ¬skipHolds {} 0 0 at10 ∧ testsClear at10.ss (7 : BitVec 3).toNat ∧
    ¬testsClear at10.ss (0 : BitVec 3).toNat ∧ ¬testsClear ⟨true, false, false, false, false, false⟩ 7 := by
  refine ⟨?_, ?_, ?_, ?_, ?_⟩ <;> (try unfold skipHolds) <;> unfold testsClear <;> decide

theorem witness_StopsCarryTheirWord :
    opNumber 0o720000 = 0o72 ∧ opNumber 0o737777 = 0o72 ∧ isIllegalOpcode (decode 0o120000) = true ∧
    isIllegalSubop (decode 0o660000) = true := by decide

theorem witness_OthersLeaveMemoryUnchanged :
    stores (effective (.lac true 0o100) chained) = false ∧
    exec (.lac true 0o100) chained = .next (nextState (exec (.lac true 0o100) chained)) :=
  ⟨rfl, nextState_of (by decide +kernel)⟩

theorem witness_StoresChangeOneWord :
    exec (.dap true 0o100) chained = .next (nextState (exec (.dap true 0o100) chained)) ∧
    chained.ea true 0o100 = some 0o200 ∧ exec (.cal 7) chained = .next (nextState (exec (.cal 7) chained)) ∧
    exec (.jda 0o7777) chained = .next (nextState (exec (.jda 0o7777) chained)) ∧ writesAc (.dap true 0o100) = false :=
  ⟨nextState_of (by decide +kernel), by decide +kernel, nextState_of (by decide), nextState_of (by decide), rfl⟩

theorem witness_DapIntoJmpReturns :
    (place at10 0 [(0o13, 0o600000)]).mem.read (0o13 : Addr).toNat = refWord 0o600000 false 0 ∧
    after (exec (.dap false 0o13) { place at10 0 [(0o13, 0o600000)] with
      ac := returnValue (place at10 0 [(0o13, 0o600000)]), pc := BitVec.ofNat 16 (6 : Addr).toNat }) (fun _ => true) = true := by
  decide

theorem witness_TapeReadsBack :
    ([] : List TapeRow).length ≠ 6 ∧ (List.replicate 5 (⟨true, true, true⟩ : TapeRow)).length ≠ 6 ∧
    (List.replicate 7 (⟨true, true, true⟩ : TapeRow)).length ≠ 6 ∧
    [(⟨true, false, false⟩ : TapeRow), ⟨false, false, false⟩][1 - 1]? = some ⟨true, false, false⟩ ∧
    (List.replicate 6 (⟨false, false, true⟩ : TapeRow))[6 - 1]? = some ⟨false, false, true⟩ := by decide

theorem witness_NumericLabelsResolve :
    (LabelTable.positions { numeric := [(5, 2), (5, 7), (6, 3), (5, 20)] } 5).Pairwise (· < ·) := by decide

theorem witness_AssembledReferencesDecode :
    Addresses {} 0 (.imm 511) 0o777 ∧ Addresses { symbolic := [(['a'], 513)] } 0 (.label ['a']) 1 ∧
    Mnemonic.kind .lac = .mem 0o20 ∧ Mnemonic.kind .jsp = .mem 0o62 ∧ (.jsp, .jsp) ∈ assembledReferences ∧ (-1 : Int) < 0 ∧
    (511 : Int) < 512 :=
  ⟨.inl ⟨511, by decide, rfl, by decide⟩, .inr ⟨['a'], 513, rfl, by decide, by decide⟩, rfl, rfl,
    by simp [assembledReferences], by decide, by decide⟩

end Sys2Proof.Tests
end

/-! ## The signed reading of a word, as arithmetic (00_scope.md R10, 41_alu.md R140)

The two halves of the 18-bit range, cut at `2 ^ 17`, are the two signs. Each function of the reading gets its value as a
number on both halves, so that a statement about it is linear arithmetic. -/

namespace Sys2Proof.Machine

theorem sign_eq_decide_le_toNat (w : Word) : sign w = decide (131072 ≤ w.toNat) :=
  (BitVec.msb_eq_getLsbD_last w).symm.trans (BitVec.msb_eq_decide w)

theorem val_of_sign_false {w : Word} (h : sign w = false) : val w = w.toNat := by simp [val, h]

theorem val_of_sign_true {w : Word} (h : sign w = true) : val w = -((~~~w).toNat : Int) := by simp [val, h]

/-- The nonnegative half counts up from +0; the negative half counts up to -0 at 0o777777. -/
theorem val_eq_toNat_or_sub (w : Word) :
    val w = if w.toNat < 131072 then (w.toNat : Int) else (w.toNat : Int) - 262143 := by
  have hw := w.isLt
  split
  next hlt => exact val_of_sign_false (by simpa [sign_eq_decide_le_toNat] using hlt)
  next hge =>
    rw [val_of_sign_true (by simpa [sign_eq_decide_le_toNat] using hge), BitVec.toNat_not]
    omega

theorem val_bounds (w : Word) : -131071 ≤ val w ∧ val w ≤ 131071 := by
  have hw := w.isLt
  rw [val_eq_toNat_or_sub]
  split <;> omega

/-- Complement exchanges the two halves: it reflects the range about its middle. -/
theorem val_complement (w : Word) : val (~~~w) = -val w := by
  have hw := w.isLt
  rw [val_eq_toNat_or_sub, val_eq_toNat_or_sub, BitVec.toNat_not]
  split <;> split <;> omega

theorem toNat_oc_of_nonneg {n : Int} (h0 : 0 ≤ n) (hn : n ≤ 131071) : ((oc n).toNat : Int) = n := by
  simp only [oc, h0, if_true, BitVec.toNat_ofNat]
  omega

theorem toNat_oc_of_neg {n : Int} (h0 : n < 0) (hn : -131071 ≤ n) : ((oc n).toNat : Int) = 262143 + n := by
  simp only [oc, Int.not_le.mpr h0, if_false, BitVec.toNat_sub, BitVec.toNat_ofNat, BitVec.reduceToNat]
  omega

theorem toNat_oc {n : Int} (hlo : -131071 ≤ n) (hhi : n ≤ 131071) :
    ((oc n).toNat : Int) = if 0 ≤ n then n else 262143 - |n| := by
  split
  next h0 => exact toNat_oc_of_nonneg h0 hhi
  next h0 =>
    rw [toNat_oc_of_neg (Int.not_le.mp h0) hlo, abs_of_neg (Int.not_le.mp h0)]
    omega

/-- `oc` lands in the half its argument's sign names, so `val` inverts it. -/
theorem val_oc {n : Int} (hlo : -131071 ≤ n) (hhi : n ≤ 131071) : val (oc n) = n := by
  rw [val_eq_toNat_or_sub]
  rcases Int.lt_or_le n 0 with h0 | h0
  · have := toNat_oc_of_neg h0 hlo
    split <;> omega
  · have := toNat_oc_of_nonneg h0 hhi
    split <;> omega

/-- Settles O23, from the value of `val` and of `oc` as a number on each half of the range. -/
theorem signedReadingOfWords : Obligations.SignedReadingOfWords :=
  ⟨fun w => ⟨val_of_sign_false, val_of_sign_true, rfl, (val_bounds w).1, (val_bounds w).2, val_complement w⟩,
    fun _ hlo hhi => ⟨val_oc hlo hhi, toNat_oc hlo hhi⟩, by decide, by decide, by decide⟩

end Sys2Proof.Machine

/-! ## Who writes RUN (10_state.md R31)

`hlt` is the one instruction whose next state has another RUN; an xct counts as the instruction its nest ends at. A
step in Running is one instruction run on the advanced state, so its end in Halted is decided by that instruction. -/

namespace Sys2Proof.Machine

@[simp] theorem nextOf_hlt_run (s : State) (a : Addr) : (nextOf s a .hlt).run = .halted := rfl

/-- Every instruction but hlt is built from the updates that keep RUN. -/
theorem nextOf_run_of_ne_hlt {j : Instr} (hj : j ≠ .hlt) (s : State) (a : Addr) : (nextOf s a j).run = s.run := by
  cases j
  case hlt => exact absurd rfl hj
  all_goals simp [nextOf]

theorem nextOf_run_halted_iff {s : State} (hr : s.run = .running) (a : Addr) (j : Instr) :
    (nextOf s a j).run = .halted ↔ j = .hlt := by
  by_cases hj : j = .hlt
  · subst hj
    simp
  · simp [nextOf_run_of_ne_hlt hj, hr, hj]

theorem exec_next_run_halted_iff {j : Instr} {s t : State} (hr : s.run = .running) (h : exec j s = .next t) :
    t.run = .halted ↔ effective j s = .hlt := by
  obtain ⟨a, -, -, -, rfl⟩ := exec_next h
  exact nextOf_run_halted_iff hr a _

/-- A completed step in Running executed the word it fetched. -/
theorem step_next_of_running {s t : State} (hr : s.run = .running) (h : step s = .next t) :
    ∃ w, s.fetch = some w ∧ exec (decode w) s.advance = .next t := by
  rcases step_cases s with ⟨hh, -⟩ | ⟨-, -, hf⟩ | ⟨w, -, hw, he⟩
  · rw [hr] at hh
    cases hh
  · rw [hf] at h
    cases h
  · exact ⟨w, hw, he ▸ h⟩

theorem step_next_run_halted_iff {s t : State} (hr : s.run = .running) (h : step s = .next t) :
    t.run = .halted ↔ ∃ w, s.fetch = some w ∧ effective (decode w) s.advance = .hlt := by
  obtain ⟨w, hw, he⟩ := step_next_of_running hr h
  simp [hw, exec_next_run_halted_iff (s := s.advance) hr he]

theorem stepEnd_halted {s : State} (hr : s.run = .halted) : stepEnd s = some .idle := by simp [stepEnd, hr]

/-- Settles O7: hlt alone writes RUN among the next states of `nextOf`, and a step in Halted answers its own state. -/
theorem onlyHltHaltsAndHaltedStays : Obligations.OnlyHltHaltsAndHaltedStays :=
  ⟨⟨rfl, rfl⟩, fun _ hr => ⟨step_halted hr, stepEnd_halted hr⟩, fun _ _ => step_next_run_halted_iff⟩

end Sys2Proof.Machine

/-! ## A write is seen by the next read and the next fetch (20_memory.md R48) -/

namespace Sys2Proof.Machine

@[simp] theorem State.memWrite_size (s : State) (a : Addr) (v : Word) : (s.memWrite a v).size = s.size := rfl

/-- The PC at a data address is below S, so the fetch there never faults and answers the word just written. -/
theorem fetch_memWrite_same {s : State} {a : Addr} (v : Word) (h : s.pc.toNat = a.toNat) :
    (s.memWrite a v).fetch = some v := by
  simp [State.fetch, h, addr_lt_size s a]

/-- Settles O19, from what a read of the written memory answers at the written address and at any other. -/
theorem writeIsSeenByReadAndFetch : Obligations.WriteIsSeenByReadAndFetch :=
  fun s a v => ⟨memRead_memWrite_same s a v, fun _ hb => s.mem.read_write_other v hb, fetch_memWrite_same v, rfl⟩

end Sys2Proof.Machine

/-! ## The shift count (30_encoding.md R78)

The count is `Nat.count` of the mask's set bits below 9: its bound and its list form are facts about counting. The
assembler's mask for `#N` has exactly the bits below N set. -/

namespace Sys2Proof.Machine

theorem shiftCount_eq_count (m : BitVec 9) : shiftCount m = Nat.count (fun k => m.getLsbD k = true) 9 := by
  simp only [shiftCount, Nat.count_succ, Nat.count_zero, Bool.toNat, Bool.cond_eq_ite, Nat.zero_add]

theorem shiftCount_le (m : BitVec 9) : shiftCount m ≤ 9 := shiftCount_eq_count m ▸ Nat.count_le _

theorem shiftCount_eq_length_filter (m : BitVec 9) :
    shiftCount m = ((List.range 9).filter fun k => m.getLsbD k).length := by
  rw [shiftCount_eq_count, Nat.count, List.countP_eq_length_filter]
  simp only [Bool.decide_eq_true]

theorem getLsbD_ofNat_two_pow_sub_one {w k : Nat} (N : Nat) (hk : k < w) :
    (BitVec.ofNat w (2 ^ N - 1)).getLsbD k = decide (k < N) := by
  rw [BitVec.getLsbD_ofNat, Nat.testBit_two_pow_sub_one, decide_eq_true hk, Bool.true_and]

/-- The positions below 9 that the mask of N ones keeps are those below N. -/
theorem shiftCount_two_pow_sub_one {N : Nat} (hN : N ≤ 9) : shiftCount (BitVec.ofNat 9 (2 ^ N - 1)) = N := by
  have hbits : ∀ k ∈ List.range 9, (BitVec.ofNat 9 (2 ^ N - 1)).getLsbD k = decide (k < N) :=
    fun k hk => getLsbD_ofNat_two_pow_sub_one N (List.mem_range.1 hk)
  rw [shiftCount_eq_length_filter, List.filter_congr hbits, ← List.Ico.zero_bot, List.Ico.filter_lt_of_ge hN,
    List.Ico.length, Nat.sub_zero]

/-- R94: the word the assembler writes for a shift by `#N`. -/
theorem encodeInstr_shift_imm (t : LabelTable) (cur : Nat) {N : Nat} {mn : Mnemonic} {sub : BitVec 9}
    (hk : mn.kind = .shift sub) (hN : N ≤ 9) :
    encodeInstr t cur mn false (some (.imm N)) = .ok (shiftWord sub (BitVec.ofNat 9 (2 ^ N - 1))) := by
  simp only [encodeInstr, hk]
  rw [if_pos ⟨by omega, by omega⟩, Int.natAbs_natCast]

/-- Settles O33, by reading the count as `Nat.count` of the set bits, and the assembler's mask as the bits below N. -/
theorem shiftCountIsThePopulationCount : Obligations.ShiftCountIsThePopulationCount :=
  ⟨fun m => ⟨shiftCount_eq_length_filter m, shiftCount_le m⟩,
    fun t cur _ _ _ hk hN => ⟨encodeInstr_shift_imm t cur hk hN, shiftCount_two_pow_sub_one hN⟩⟩

end Sys2Proof.Machine

/-! ## The raw sum as numbers (41_alu.md R142)

The 19-bit sum of two words loses nothing, so its low 18 bits and its bit 18 are the remainder and the quotient of the
operands' sum by `2 ^ 18`. -/

namespace Sys2Proof.Machine

/-- Two words add without loss in 19 bits. -/
theorem toNat_sum19 (a b : Word) : (a.zeroExtend 19 + b.zeroExtend 19).toNat = a.toNat + b.toNat := by
  have ha := a.isLt
  have hb := b.isLt
  simp only [BitVec.toNat_add, BitVec.toNat_setWidth]
  omega

/-- The operands' sum is at most twice 0o777777. -/
theorem sum_mod_le_of_carry {a b : Word} (h : 262144 ≤ a.toNat + b.toNat) :
    (a.toNat + b.toNat) % 262144 ≤ 0o777776 := by
  have ha := a.isLt
  have hb := b.isLt
  omega

/-- Without a carry the low 18 bits stand alone; with one they leave room for it. -/
theorem endAroundSum_lt (a b : Word) : (a.toNat + b.toNat) % 262144 + (a.toNat + b.toNat) / 262144 < 262144 := by
  rcases Nat.lt_or_ge (a.toNat + b.toNat) 262144 with hno | hcarry
  · rwa [Nat.mod_eq_of_lt hno, Nat.div_eq_of_lt hno]
  · have hlow := sum_mod_le_of_carry hcarry
    have hone : (a.toNat + b.toNat) / 262144 < 2 := Nat.div_lt_of_lt_mul (Nat.add_lt_add a.isLt b.isLt)
    omega

/-- The low 18 bits plus bit 18, when that sum is itself below `2 ^ 18`. -/
theorem toNat_low_add_carry {s : BitVec 19} (h : s.toNat % 262144 + s.toNat / 262144 < 262144) :
    (s.extractLsb' 0 18 + (s.extractLsb' 18 1).zeroExtend 18).toNat = s.toNat % 262144 + s.toNat / 262144 := by
  have hcarry : s.toNat / 262144 < 2 := Nat.div_lt_of_lt_mul s.isLt
  rw [BitVec.toNat_add, BitVec.toNat_setWidth, BitVec.extractLsb'_toNat, BitVec.extractLsb'_toNat, Nat.shiftRight_zero,
    Nat.shiftRight_eq_div_pow, Nat.mod_eq_of_lt hcarry, Nat.mod_eq_of_lt (hcarry.trans (by decide)), Nat.mod_eq_of_lt h]

theorem toNat_ocAddRaw (a b : Word) :
    (ocAddRaw a b).toNat = (a.toNat + b.toNat) % 262144 + (a.toNat + b.toNat) / 262144 := by
  have hlt := endAroundSum_lt a b
  rw [← toNat_sum19] at hlt ⊢
  exact toNat_low_add_carry hlt

/-- Settles O24, from the value of the 19-bit sum and the bound of its end-around carry. -/
theorem rawSumIsEndAroundCarry : Obligations.RawSumIsEndAroundCarry :=
  fun a b => ⟨toNat_ocAddRaw a b, endAroundSum_lt a b, sum_mod_le_of_carry⟩

end Sys2Proof.Machine

/-! ## Rotates, bit by bit (41_alu.md R154)

A rotate by less than the width is one fact at every width: either the bit stays below the width, or it leaves one end
and enters at the other. The rotates of one word and of the chained registers are that fact at 18 and at 36 bits. -/

namespace Sys2Proof.Machine

theorem getLsbD_rotateLeft_add_mod {w n k : Nat} (x : BitVec w) (hn : n < w) (hk : k < w) :
    (x.rotateLeft n).getLsbD ((k + n) % w) = x.getLsbD k := by
  rw [BitVec.getLsbD_rotateLeft_of_le hn]
  rcases Nat.lt_or_ge (k + n) w with h | h
  · simp [Nat.mod_eq_of_lt h, h]
  · have hwrap : (k + n) % w = k + n - w := by rw [Nat.mod_eq_sub_mod h, Nat.mod_eq_of_lt (by omega)]
    rw [hwrap, decide_eq_true (by omega), cond_true, show w - n + (k + n - w) = k by omega]

theorem getLsbD_rotateRight_eq {w n k : Nat} (x : BitVec w) (hn : n < w) (hk : k < w) :
    (x.rotateRight n).getLsbD k = x.getLsbD ((k + n) % w) := by
  rw [BitVec.getLsbD_rotateRight, Nat.mod_eq_of_lt hn]
  rcases Nat.lt_or_ge (k + n) w with h | h
  · rw [Nat.mod_eq_of_lt h, decide_eq_true (by omega), cond_true, Nat.add_comm]
  · have hwrap : (k + n) % w = k - (w - n) := by rw [Nat.mod_eq_sub_mod h, Nat.mod_eq_of_lt (by omega)]; omega
    rw [hwrap, decide_eq_false (by omega), decide_eq_true hk, cond_false, Bool.true_and]

theorem rotateLeft_zero {w : Nat} (x : BitVec w) : x.rotateLeft 0 = x := by
  refine BitVec.eq_of_getLsbD_eq fun k hk => ?_
  simpa [Nat.mod_eq_of_lt hk] using getLsbD_rotateLeft_add_mod x (Nat.zero_lt_of_lt hk) hk

theorem rotateRight_zero {w : Nat} (x : BitVec w) : x.rotateRight 0 = x := by
  refine BitVec.eq_of_getLsbD_eq fun k hk => ?_
  simpa [Nat.mod_eq_of_lt hk] using getLsbD_rotateRight_eq x (Nat.zero_lt_of_lt hk) hk

theorem acHalf_cat36 (ac io : Word) : acHalf (cat36 ac io) = ac := BitVec.extractLsb'_append_eq_left

theorem ioHalf_cat36 (ac io : Word) : ioHalf (cat36 ac io) = io := BitVec.extractLsb'_append_eq_right

theorem getLsbD_acHalf {k : Nat} (c : BitVec 36) (hk : k < 18) : (acHalf c).getLsbD k = c.getLsbD (18 + k) := by
  simp [acHalf, hk]

theorem getLsbD_ioHalf {k : Nat} (c : BitVec 36) (hk : k < 18) : (ioHalf c).getLsbD k = c.getLsbD k := by
  simp [ioHalf, hk]

/-- Bit 35 of the chained value, AC[17], enters at its bit 0. -/
theorem ioHalf_rotl36_one_bit_zero (ac io : Word) :
    (ioHalf (rotl36 (cat36 ac io) 1)).getLsbD 0 = ac.getLsbD 17 :=
  calc (ioHalf (rotl36 (cat36 ac io) 1)).getLsbD 0
    _ = (rotl36 (cat36 ac io) 1).getLsbD ((35 + 1) % 36) := getLsbD_ioHalf _ (by decide)
    _ = (cat36 ac io).getLsbD 35 := getLsbD_rotateLeft_add_mod _ (by decide) (by decide)
    _ = (acHalf (cat36 ac io)).getLsbD 17 := (getLsbD_acHalf (k := 17) _ (by decide)).symm
    _ = ac.getLsbD 17 := by rw [acHalf_cat36]

/-- Bit 17 of the chained value, IO[17], moves to its bit 18, which is AC[0]. -/
theorem acHalf_rotl36_one_bit_zero (ac io : Word) :
    (acHalf (rotl36 (cat36 ac io) 1)).getLsbD 0 = io.getLsbD 17 :=
  calc (acHalf (rotl36 (cat36 ac io) 1)).getLsbD 0
    _ = (rotl36 (cat36 ac io) 1).getLsbD ((17 + 1) % 36) := getLsbD_acHalf _ (by decide)
    _ = (cat36 ac io).getLsbD 17 := getLsbD_rotateLeft_add_mod _ (by decide) (by decide)
    _ = (ioHalf (cat36 ac io)).getLsbD 17 := (getLsbD_ioHalf _ (by decide)).symm
    _ = io.getLsbD 17 := by rw [ioHalf_cat36]

/-- Settles O28, from the bits of a rotate at any width and the bits of the two halves of the chained value. -/
theorem rotatesMoveEveryBit : Obligations.RotatesMoveEveryBit :=
  ⟨fun a _ _ hn hk => ⟨getLsbD_rotateLeft_add_mod a (by omega) hk, getLsbD_rotateRight_eq a (by omega) hk⟩,
    fun ac io _ _ hn hk => ⟨getLsbD_rotateLeft_add_mod (cat36 ac io) (by omega) hk,
      getLsbD_rotateRight_eq (cat36 ac io) (by omega) hk⟩,
    fun ac io => ⟨acHalf_cat36 ac io, ioHalf_cat36 ac io, ioHalf_rotl36_one_bit_zero ac io,
      acHalf_rotl36_one_bit_zero ac io⟩,
    fun a => ⟨rotateLeft_zero a, rotateRight_zero a⟩, fun c => ⟨rotateLeft_zero c, rotateRight_zero c⟩⟩

end Sys2Proof.Machine

/-! ## The memory-reference words (30_encoding.md R66 to R69)

The encoder writes each memory-reference word under its row's match, and the decoder reads its opcode, indirect bit and
address back. -/

namespace Sys2Proof.Machine

open Sys2Proof.Claims

/-- A row's match holds the upper five bits of the opcode at bits 17..13. -/
theorem refWord_eq_memWord (op : BitVec 6) (i : Bool) (y : Addr) :
    refWord (op.toNat / 2 * 8192) i y = memWord op i y := by
  have hop := op.isLt
  have hi := i.toNat_le
  have hy := y.isLt
  have hbit : (if i then 0o010000 else 0) = i.toNat * 4096 := by cases i <;> rfl
  have hfive : (op.extractLsb' 1 5).toNat = op.toNat / 2 := by
    rw [BitVec.extractLsb'_toNat, Nat.shiftRight_eq_div_pow]
    omega
  apply BitVec.eq_of_toNat_eq
  rw [refWord, memWord, toNat_concat, toNat_concat, hfive, hbit, BitVec.toNat_ofNat, BitVec.toNat_ofBool]
  omega

/-- The opcode read back selects the instruction's own constructor, and the other two fields are its operands. -/
theorem decode_encode_of_chainOf {j : Instr} {i : Bool} {y : Addr} (h : chainOf j = some (i, y)) :
    decode (encode j) = j := by
  cases j <;> cases h
  all_goals simp [encode, decode, fields_memWord]

end Sys2Proof.Machine

/-! ## add (42_memref_arith.md R165) -/

namespace Sys2Proof.Machine

open Sys2Proof.Claims

theorem ovAfter_eq_ite (sticky old o : Bool) :
    ovAfter sticky old o = if o then true else if sticky then old else false := by
  cases o <;> cases sticky <;> simp [ovAfter]

theorem State.setSum_eq (s : State) (r : Word × Bool) :
    s.setSum r = { s with ac := r.1, ov := if r.2 then true else if s.cfg.ovSticky then s.ov else false } := by
  rw [← ovAfter_eq_ite]
  rfl

theorem normalise_ne_negative_zero (v : Word) : normalise v ≠ 0o777777 := by
  unfold normalise
  split
  · decide
  · assumption

theorem decode_refWord_add (i : Bool) (y : Addr) : decode (refWord 0o400000 i y) = .add i y :=
  calc decode (refWord 0o400000 i y)
    _ = decode (encode (.add i y)) := congrArg decode (refWord_eq_memWord 0o40 i y)
    _ = .add i y := decode_encode_of_chainOf rfl

theorem exec_add_of_ea {s : State} {i : Bool} {y a : Addr} (h : s.ea i y = some a) :
    exec (.add i y) s = .next (s.setSum (ocAdd s.ac (s.mem.read a.toNat))) := withEa_some h _

theorem exec_add_of_hang {s : State} {i : Bool} {y : Addr} (h : s.ea i y = none) :
    exec (.add i y) s = .fault .hangIndirectCycle := withEa_none h _

/-- Settles O34, from the word read back, the operand at the EA, and the normalised sum stored with its overflow. -/
theorem addResult : Obligations.AddResult :=
  ⟨decode_refWord_add, fun s _ _ _ h => (exec_add_of_ea h).trans (congrArg _ (s.setSum_eq _)),
    fun _ _ _ h => exec_add_of_hang h, fun a b => normalise_ne_negative_zero (ocAddRaw a b),
    by decide, by decide, by decide⟩

end Sys2Proof.Machine

/-! ## One rule for every memory-reference instruction with a chain (30_encoding.md R69, 40_execution_cycle.md R126)

Each of these instructions reads back from the word of its row, hangs on a cyclic chain, and else goes on at the EA to
the next state of `nextOf`. -/

namespace Sys2Proof.Machine

open Sys2Proof.Claims

theorem decode_refWord_of_chainOf {op : BitVec 6} {j : Instr} {i : Bool} {y : Addr} (hc : chainOf j = some (i, y))
    (he : encode j = memWord op i y) : decode (refWord (op.toNat / 2 * 8192) i y) = j := by
  rw [refWord_eq_memWord, ← he, decode_encode_of_chainOf hc]

theorem exec_of_hang {j : Instr} {s : State} {i : Bool} {y : Addr} (hc : chainOf j = some (i, y))
    (h : s.ea i y = none) : exec j s = .fault .hangIndirectCycle := by
  cases j <;> cases hc
  all_goals exact withEa_none h _

theorem exec_of_ea {j : Instr} {s : State} {i : Bool} {y a : Addr} (hc : chainOf j = some (i, y))
    (hn : neverCompletes j = false) (h : s.ea i y = some a) : exec j s = .next (nextOf s a j) := by
  cases j <;> cases hc
  case mul => cases hn
  case div => cases hn
  all_goals exact withEa_some h _

/-- R92: the word the assembler writes for a memory reference to `#n`. -/
theorem encodeInstr_mem_imm (t : LabelTable) (cur : Nat) (amp : Bool) {n : Nat} {mn : Mnemonic} {op : BitVec 6}
    (hk : mn.kind = .mem op) (hn : n ≤ 511) :
    encodeInstr t cur mn amp (some (.imm n)) = .ok (refWord (op.toNat / 2 * 8192) amp (BitVec.ofNat 12 n)) := by
  simp only [encodeInstr, hk]
  rw [encodeMem_ok op amp (addressOperand_imm t cur hn), refWord_eq_memWord]

end Sys2Proof.Machine

/-! ## and, xor, ior, lac, lio (43_memref_logic_transfer.md R180 to R184) -/

namespace Sys2Proof.Machine

/-- R181's corner cases: exclusive or with -0 complements, and with itself clears. -/
theorem xor_negative_zero_and_self (w : Word) : w ^^^ 0o777777 = ~~~w ∧ w ^^^ w = 0 :=
  ⟨BitVec.xor_allOnes, BitVec.xor_self⟩

/-- Settles O38, from the shared rule of the memory references and the next states, which write AC or IO alone. -/
theorem logicAndLoadResults : Obligations.LogicAndLoadResults := by
  refine ⟨fun i y => ?words, fun s i y a h => ?results, fun s i y h => ?hangs, ?examples, fun n hn => ?assembled⟩
  case words =>
    exact ⟨decode_refWord_of_chainOf (op := 0o02) rfl rfl, decode_refWord_of_chainOf (op := 0o06) rfl rfl,
      decode_refWord_of_chainOf (op := 0o04) rfl rfl, decode_refWord_of_chainOf (op := 0o20) rfl rfl,
      decode_refWord_of_chainOf (op := 0o22) rfl rfl⟩
  case results =>
    exact ⟨exec_of_ea rfl rfl h, exec_of_ea rfl rfl h, exec_of_ea rfl rfl h, exec_of_ea rfl rfl h,
      exec_of_ea rfl rfl h⟩
  case hangs =>
    exact ⟨exec_of_hang rfl h, exec_of_hang rfl h, exec_of_hang rfl h, exec_of_hang rfl h, exec_of_hang rfl h⟩
  case examples => exact ⟨by decide, xor_negative_zero_and_self, by decide, by decide, by decide⟩
  case assembled => exact encodeInstr_mem_imm {} 0 false (mn := .lac) rfl hn

end Sys2Proof.Machine

/-! ## dac, dap, dio, dzm (43_memref_logic_transfer.md R185, R186, R188, R189) -/

namespace Sys2Proof.Machine

theorem replaceBits_low12 (m w : Word) : replaceBits 0o007777 m w = (m &&& 0o770000) ||| (w &&& 0o007777) := rfl

theorem exec_dap_of_ea {s : State} {i : Bool} {y a : Addr} (h : s.ea i y = some a) :
    exec (.dap i y) s = .next (s.memWrite a ((s.memRead a &&& 0o770000) ||| (s.ac &&& 0o007777))) := by
  rw [← replaceBits_low12]
  exact exec_of_ea rfl rfl h

/-- R59: an instruction whose next state writes the word at the PC's address hands that word to the next fetch. -/
theorem fetch_of_exec_memWrite {j : Instr} {s t : State} {a : Addr} {v : Word} (hp : s.pc.toNat = a.toNat)
    (hw : exec j s = .next (s.memWrite a v)) (ht : exec j s = .next t) : t.fetch = some v := by
  obtain rfl : s.memWrite a v = t := Host.Outcome.next.inj (hw.symm.trans ht)
  exact fetch_memWrite_same v hp

/-- Settles O39, from the shared rule of the memory references and the next states, which write the word at EA alone. -/
theorem depositResults : Obligations.DepositResults := by
  refine ⟨fun i y => ?words, fun s i y a h => ?results, fun s i y h => ?hangs, fun s t i y a h hp => ?fetched,
    ?dapExample, ?zeroWord⟩
  case words =>
    exact ⟨decode_refWord_of_chainOf (op := 0o24) rfl rfl, decode_refWord_of_chainOf (op := 0o26) rfl rfl,
      decode_refWord_of_chainOf (op := 0o32) rfl rfl, decode_refWord_of_chainOf (op := 0o34) rfl rfl⟩
  case results => exact ⟨exec_of_ea rfl rfl h, exec_dap_of_ea h, exec_of_ea rfl rfl h, exec_of_ea rfl rfl h⟩
  case hangs => exact ⟨exec_of_hang rfl h, exec_of_hang rfl h, exec_of_hang rfl h, exec_of_hang rfl h⟩
  case fetched =>
    exact ⟨fetch_of_exec_memWrite hp (exec_of_ea rfl rfl h), fetch_of_exec_memWrite hp (exec_of_ea rfl rfl h)⟩
  case dapExample => decide
  case zeroWord => decide

end Sys2Proof.Machine

/-! ## jmp (44_memref_control.md R202)

A jump undoes the advance of the fetch when its target is the address the word was fetched from, so a jmp to its own
address is a whole step that answers its own state. -/

namespace Sys2Proof.Machine

open Sys2Proof.Claims

theorem toNat_ofNat_addr (a : Addr) : (BitVec.ofNat 16 a.toNat).toNat = a.toNat := by
  have ha := a.isLt
  rw [BitVec.toNat_ofNat]
  omega

theorem State.jump_eq (s : State) (a : Addr) : s.jump a = { s with pc := BitVec.ofNat 16 a.toNat } := by
  have hpc : (s.jump a).pc = BitVec.ofNat 16 a.toNat :=
    BitVec.eq_of_toNat_eq ((jump_pc_toNat s a).trans (toNat_ofNat_addr a).symm)
  rw [← hpc]
  rfl

theorem advance_jump_of_pc_eq {s : State} {a : Addr} (h : s.pc = BitVec.ofNat 16 a.toNat) : s.advance.jump a = s := by
  rw [State.jump_eq, ← h]
  rfl

/-- A PC that holds a data address is below S, so the fetch there never faults. -/
theorem fetch_of_pc_eq {s : State} {a : Addr} (h : s.pc = BitVec.ofNat 16 a.toNat) :
    s.fetch = some (s.mem.read a.toNat) := by
  have hpc : s.pc.toNat = a.toNat := h ▸ toNat_ofNat_addr a
  simp [State.fetch, hpc, addr_lt_size s a]

theorem decode_refWord_jmp (i : Bool) (y : Addr) : decode (refWord 0o600000 i y) = .jmp i y :=
  decode_refWord_of_chainOf (op := 0o60) rfl rfl

theorem exec_jmp_of_ea {s : State} {i : Bool} {y a : Addr} (h : s.ea i y = some a) :
    exec (.jmp i y) s = .next (s.jump a) := exec_of_ea rfl rfl h

theorem step_jmp_to_itself {s : State} {y : Addr} (hr : s.run = .running) (hp : s.pc = BitVec.ofNat 16 y.toNat)
    (hw : s.mem.read y.toNat = refWord 0o600000 false y) : step s = .next s :=
  calc step s
    _ = exec (decode (s.mem.read y.toNat)) s.advance := step_running hr (fetch_of_pc_eq hp)
    _ = exec (.jmp false y) s.advance := by rw [hw, decode_refWord_jmp]
    _ = .next (s.advance.jump y) := exec_jmp_of_ea (ea_direct _ y)
    _ = .next s := by rw [advance_jump_of_pc_eq hp]

/-- Settles O41, from the word read back, the PC a jump stores, and the jump that undoes the fetch's advance. -/
theorem jmpResult : Obligations.JmpResult :=
  ⟨decode_refWord_jmp, fun s _ _ a h => (exec_jmp_of_ea h).trans (congrArg _ (s.jump_eq a)),
    fun _ _ _ h => exec_of_hang rfl h, fun _ _ => step_jmp_to_itself⟩

end Sys2Proof.Machine

/-! ## The shift words (30_encoding.md R72, R82)

The encoder writes each shift word under its row's match, and the decoder reads its sub-operation and count mask back.
Whatever the mask, the instruction completes in the next state of `nextOf`. -/

namespace Sys2Proof.Machine

open Sys2Proof.Claims

/-- The count mask of an instruction of the shift group. -/
def shiftMaskOf : Instr → Option (BitVec 9)
  | .ral m | .ril m | .rcl m | .sal m | .sil m | .scl m | .rar m | .rir m | .rcr m | .sar m | .sir m | .scr m => some m
  | _ => none

/-- A row's match holds the sub-operation at bits 17..9. -/
theorem fieldWord_eq_shiftWord (sub m : BitVec 9) : fieldWord (sub.toNat * 512) m = shiftWord sub m := by
  have hsub := sub.isLt
  have hm := m.isLt
  apply BitVec.eq_of_toNat_eq
  rw [fieldWord, shiftWord, toNat_concat, BitVec.toNat_ofNat]
  omega

theorem primaryOp_shiftWord (sub m : BitVec 9) : primaryOp (shiftWord sub m) = sub.extractLsb' 3 6 &&& 0o76 := by
  refine BitVec.eq_of_getLsbD_eq fun k hk => ?_
  simp only [primaryOp, shiftWord, BitVec.getLsbD_and, BitVec.getLsbD_append, BitVec.getLsbD_extractLsb']
  interval_cases k <;> simp

/-- The fields the decoder reads from a shift word. -/
theorem fields_shiftWord (sub m : BitVec 9) :
    (shiftWord sub m).extractLsb' 9 9 = sub ∧ low9 (shiftWord sub m) = m :=
  ⟨BitVec.extractLsb'_append_eq_left, BitVec.extractLsb'_append_eq_right⟩

/-- The sub-operation read back selects the instruction's own constructor, and the mask is its operand. -/
theorem decode_encode_of_shiftMaskOf {j : Instr} {m : BitVec 9} (h : shiftMaskOf j = some m) :
    decode (encode j) = j := by
  cases j <;> cases h
  all_goals simp [encode, decode, primaryOp_shiftWord, decodeShift, fields_shiftWord]

theorem decode_fieldWord_of_shiftMaskOf {sub m : BitVec 9} {j : Instr} (hj : shiftMaskOf j = some m)
    (he : encode j = shiftWord sub m) : decode (fieldWord (sub.toNat * 512) m) = j := by
  rw [fieldWord_eq_shiftWord, ← he, decode_encode_of_shiftMaskOf hj]

/-- A shift has no effective address, so any address stands for it in `nextOf`. -/
theorem exec_of_shiftMaskOf {j : Instr} {m : BitVec 9} (hj : shiftMaskOf j = some m) (s : State) (a : Addr) :
    exec j s = .next (nextOf s a j) := by
  cases j <;> cases hj
  all_goals rfl

end Sys2Proof.Machine

/-! ## ral, ril, rcl, rar, rir, rcr (46_shift.md R221 to R223, R227 to R229)

A right rotate by one place undoes the left rotate's two crossings: bit 18 of the chained value, AC[0], enters IO[17],
and bit 0, IO[0], wraps to AC[17]. -/

namespace Sys2Proof.Machine

/-- Bit 0 of the chained value, IO[0], wraps to its bit 35. -/
theorem acHalf_rotr36_one_bit_seventeen (ac io : Word) :
    (acHalf (rotr36 (cat36 ac io) 1)).getLsbD 17 = io.getLsbD 0 :=
  calc (acHalf (rotr36 (cat36 ac io) 1)).getLsbD 17
    _ = (rotr36 (cat36 ac io) 1).getLsbD 35 := getLsbD_acHalf _ (by decide)
    _ = (cat36 ac io).getLsbD ((35 + 1) % 36) := getLsbD_rotateRight_eq _ (by decide) (by decide)
    _ = (ioHalf (cat36 ac io)).getLsbD 0 := (getLsbD_ioHalf _ (by decide)).symm
    _ = io.getLsbD 0 := by rw [ioHalf_cat36]

/-- Bit 18 of the chained value, AC[0], moves to its bit 17, which is IO[17]. -/
theorem ioHalf_rotr36_one_bit_seventeen (ac io : Word) :
    (ioHalf (rotr36 (cat36 ac io) 1)).getLsbD 17 = ac.getLsbD 0 :=
  calc (ioHalf (rotr36 (cat36 ac io) 1)).getLsbD 17
    _ = (rotr36 (cat36 ac io) 1).getLsbD 17 := getLsbD_ioHalf _ (by decide)
    _ = (cat36 ac io).getLsbD ((17 + 1) % 36) := getLsbD_rotateRight_eq _ (by decide) (by decide)
    _ = (acHalf (cat36 ac io)).getLsbD 0 := (getLsbD_acHalf (k := 0) _ (by decide)).symm
    _ = ac.getLsbD 0 := by rw [acHalf_cat36]

/-- Settles O47, from the words read back, the next states of the shift group, and the bits that cross between the
halves of the chained value. -/
theorem rotateResults : Obligations.RotateResults := by
  refine ⟨fun m => ?words, fun s m => ?results, ?examples, fun ac io => ?crossings⟩
  case words =>
    exact ⟨decode_fieldWord_of_shiftMaskOf (sub := 0o661) rfl rfl,
      decode_fieldWord_of_shiftMaskOf (sub := 0o662) rfl rfl,
      decode_fieldWord_of_shiftMaskOf (sub := 0o663) rfl rfl, decode_fieldWord_of_shiftMaskOf (sub := 0o671) rfl rfl,
      decode_fieldWord_of_shiftMaskOf (sub := 0o672) rfl rfl, decode_fieldWord_of_shiftMaskOf (sub := 0o673) rfl rfl,
      (shiftCount_le m).trans_lt (by decide)⟩
  case results =>
    exact ⟨exec_of_shiftMaskOf rfl s 0, exec_of_shiftMaskOf rfl s 0, exec_of_shiftMaskOf rfl s 0,
      exec_of_shiftMaskOf rfl s 0, exec_of_shiftMaskOf rfl s 0, exec_of_shiftMaskOf rfl s 0⟩
  case examples => decide
  case crossings =>
    exact ⟨ioHalf_rotl36_one_bit_zero ac io, acHalf_rotl36_one_bit_zero ac io, acHalf_rotr36_one_bit_seventeen ac io,
      ioHalf_rotr36_one_bit_seventeen ac io⟩

end Sys2Proof.Machine

/-! ## The rule of the skip group (47_skip.md R240, R243)

Every form of the group is `skipGroup` at its negate bit, its conditions and its two indices. It answers a next state: OV
is cleared where zo is listed, and the PC moves on exactly where the OR of the conditions differs from the negate bit. -/

namespace Sys2Proof.Machine

open Sys2Proof.Claims

/-- The negate bit, the conditions, the switch index and the flag index of an instruction of the skip group. -/
def skipFieldsOf : Instr → Option (Bool × Conds × BitVec 3 × BitVec 3)
  | .sza => some (false, { za := true }, 0, 0)
  | .snza => some (true, { za := true }, 0, 0)
  | .spa => some (false, { pa := true }, 0, 0)
  | .snpa => some (true, { pa := true }, 0, 0)
  | .sma => some (false, { ma := true }, 0, 0)
  | .snma => some (true, { ma := true }, 0, 0)
  | .szo => some (false, { zo := true }, 0, 0)
  | .snzo => some (true, { zo := true }, 0, 0)
  | .spi => some (false, { pi := true }, 0, 0)
  | .snpi => some (true, { pi := true }, 0, 0)
  | .skp c k f => some (false, c, k, f)
  | .skpn c k f => some (true, c, k, f)
  | .szs k => some (false, {}, k, 0)
  | .szf f => some (false, {}, 0, f)
  | _ => none

theorem exec_of_skipFieldsOf {j : Instr} {n : Bool} {c : Conds} {k f : BitVec 3}
    (hj : skipFieldsOf j = some (n, c, k, f)) (s : State) : exec j s = .next (skipGroup n c k f s) := by
  cases j <;> cases hj
  all_goals rfl

theorem State.advance_eq (s : State) : s.advance = { s with pc := plusOne s } := by
  have hpc : s.advance.pc = plusOne s :=
    BitVec.eq_of_toNat_eq <| by
      rw [advance_pc_toNat, plusOne, BitVec.toNat_ofNat]
      split <;> omega
  rw [← hpc]
  rfl

/-- A skip whose outcome is `p`, after the clear of OV that zo brings. -/
theorem skipsWhen_skipIf {p : Prop} {b : Bool} (hp : p ↔ b = true) (zo : Bool) (s : State) :
    SkipsWhen p zo s (.next (State.skipIf { s with ov := s.ov && !zo } b)) := by
  refine ⟨fun h => ?_, fun h => ?_⟩
  · rw [hp.mp h]
    exact congrArg _ (State.advance_eq _)
  · rw [Bool.eq_false_iff.mpr (mt hp.mpr h)]
    rfl

theorem skipGroup_eq_skipIf (n : Bool) (c : Conds) (k f : BitVec 3) (s : State) :
    skipGroup n c k f s = State.skipIf { s with ov := s.ov && !c.zo } (skipCondition c k f s != n) := by
  unfold skipGroup
  cases c.zo <;> simp [State.setOv]

theorem skipsWhen_of_skipFieldsOf {p : Prop} {j : Instr} {n zo : Bool} {c : Conds} {k f : BitVec 3} {s : State}
    (hj : skipFieldsOf j = some (n, c, k, f)) (hz : c.zo = zo) (hp : p ↔ (skipCondition c k f s != n) = true) :
    SkipsWhen p zo s (exec j s) := by
  rw [exec_of_skipFieldsOf hj, skipGroup_eq_skipIf, hz]
  exact skipsWhen_skipIf hp zo s

/-- R243: a listed zo clears OV, whatever the outcome. -/
theorem next_ov_of_zo {j : Instr} {n : Bool} {c : Conds} {k f : BitVec 3} {s t : State}
    (hj : skipFieldsOf j = some (n, c, k, f)) (hz : c.zo = true) (h : exec j s = .next t) : t.ov = false := by
  rw [exec_of_skipFieldsOf hj] at h
  cases h
  simp [hz]

end Sys2Proof.Machine

/-! ## sza, spa, szo, sma, spi and their negations (47_skip.md R241 to R245)

Index 0 tests no switch and no flag, so a word with one condition bit tests that condition alone. -/

namespace Sys2Proof.Machine

open Sys2Proof.Claims

@[simp] theorem isClear_zero (x : Six) : isClear x 0#3 = false := rfl

@[simp] theorem skipCondition_without_indices (c : Conds) (s : State) :
    skipCondition c 0#3 0#3 s = ((c.za && s.ac == 0) || (c.pa && !s.ac.getLsbD 17) || (c.ma && s.ac.getLsbD 17)
      || (c.zo && !s.ov) || (c.pi && !s.io.getLsbD 17)) := by
  simp [skipCondition, sign]

/-- The first szo left OV clear, so the second one skips. -/
theorem skipsWhen_true_szo_of_exec_szo {s t : State} (h : exec .szo s = .next t) :
    SkipsWhen True true t (exec .szo t) := by
  have hov : t.ov = false := next_ov_of_zo (j := .szo) rfl rfl h
  exact skipsWhen_of_skipFieldsOf rfl rfl (by simp [hov])

/-- Settles O49, from the rule of the skip group at each instruction's one condition, and the clear of OV by zo. -/
theorem namedSkipResults : Obligations.NamedSkipResults := by
  refine ⟨by decide, fun s => ⟨?sza, ?snza, ?spa, ?snpa, ?szo, ?snzo, ?sma, ?snma, ?spi, ?snpi, ?second, ?clears⟩⟩
  case second => exact fun t => skipsWhen_true_szo_of_exec_szo
  case clears =>
    rintro c k f t hz (h | h)
    · exact next_ov_of_zo rfl hz h
    · exact next_ov_of_zo rfl hz h
  all_goals exact skipsWhen_of_skipFieldsOf rfl rfl (by simp)

end Sys2Proof.Machine

/-! ## The operate words (30_encoding.md R74, 48_operate.md R260)

A word of the operate format reads its micro-op field back and acts by that field as a whole. An instruction without an
effective address that does complete goes to the next state of `nextOf`. -/

namespace Sys2Proof.Machine

/-- The fields the decoder reads from an operate word. -/
theorem fields_operateWord (m : BitVec 12) :
    primaryOp (operateWord m) = 0o76 ∧ bit12 (operateWord m) = false ∧ low12 (operateWord m) = m :=
  fields_memWord 0o76 rfl false m

theorem decode_operateWord (m : BitVec 12) : decode (operateWord m) = decodeOperate m := by
  obtain ⟨hop, hbit, hfield⟩ := fields_operateWord m
  simp [decode, hop, hbit, hfield]

/-- R84: opcode 0o00 is illegal, whatever the other bits. -/
theorem decode_wideWord_zero (n : BitVec 13) : decode (wideWord 0#6 n) = .illegalOp00 n := by
  obtain ⟨hop, hrest⟩ := fields_wideWord 0#6 rfl n
  simp [decode, hop, hrest]

/-- No address enters the next state of an instruction that runs no chain, so `ht` asks for the same `t` at each. -/
theorem exec_of_chainOf_none {j : Instr} {s t : State} (hx : asXct j = none) (hc : chainOf j = none)
    (hn : neverCompletes j = false) (hl : ∀ n, j ≠ .law n) (ht : ∀ a, nextOf s a j = t) : exec j s = .next t := by
  rcases exec_plain_cases j s hx with ⟨_, _, hchain, -⟩ | ⟨_, -, -, -, hstops | ⟨⟨n, hlaw⟩, -⟩, -⟩ | ⟨a, -, -, -, he⟩
  · rw [hc] at hchain
    cases hchain
  · rw [hn] at hstops
    cases hstops
  · exact absurd hlaw (hl n)
  · rw [he, ht]

end Sys2Proof.Machine

/-! ## nop, cla, cli (48_operate.md R261 to R263) -/

namespace Sys2Proof.Machine

/-- Settles O51, from the micro-op field each word reads back, and the next states, which write AC or IO alone. -/
theorem nopClaCliResults : Obligations.NopClaCliResults := by
  refine ⟨⟨?nopWord, ?claWord, ?cliWord, ?zeroWord⟩, fun s => ⟨?nop, ?cla, ?cli⟩⟩
  case nopWord => exact decode_operateWord 0
  case claWord => exact decode_operateWord 0o0200
  case cliWord => exact decode_operateWord 0o4000
  case zeroWord => exact decode_wideWord_zero 0
  all_goals exact exec_of_chainOf_none rfl rfl rfl nofun fun _ => rfl

end Sys2Proof.Machine

/-! ## Every format reads back, and every word is of one format (30_encoding.md R65 to R75, R87)

The decoder cuts a word into its opcode and its operand fields, and the encoder puts the fields of each format together
again. So the round trip is one lemma for each format: the fields of its words, and that a word is its fields. -/

namespace Sys2Proof.Machine

open Sys2Proof.Claims

/-- R66: the opcode is the six high bits with bit 12 cleared. -/
theorem primaryOp_toNat (w : Word) : (primaryOp w).toNat = opNumber w := by
  have hclear : ∀ x : BitVec 6, (x &&& 0o76).toNat = x.toNat / 2 * 2 := by decide
  have hw := w.isLt
  rw [primaryOp, hclear, opNumber, BitVec.extractLsb'_toNat, Nat.shiftRight_eq_div_pow]
  omega

/-! The words of 13 free bits: law, iot and the illegal opcodes. -/

theorem wideWord_fields (w : Word) : wideWord (primaryOp w) (low13 w) = w := by
  refine BitVec.eq_of_getLsbD_eq fun k hk => ?_
  simp only [wideWord, primaryOp, low13, BitVec.getLsbD_append, BitVec.getLsbD_extractLsb', BitVec.getLsbD_and]
  interval_cases k <;> simp

theorem memWord_fields (w : Word) : memWord (primaryOp w) (bit12 w) (low12 w) = w := by
  refine BitVec.eq_of_getLsbD_eq fun k hk => ?_
  simp only [memWord, primaryOp, bit12, low12, BitVec.getLsbD_append, BitVec.getLsbD_extractLsb', BitVec.getLsbD_and]
  interval_cases k <;> simp

/-! The skip words. -/

theorem fields_skipWord (n : Bool) (c : Conds) (k f : BitVec 3) :
    primaryOp (skipWord n c k f) = 0o64 ∧ bit12 (skipWord n c k f) = n ∧ (skipWord n c k f).getLsbD 11 = false ∧
      condsOf (skipWord n c k f) = c ∧ switchIndex (skipWord n c k f) = k ∧ flagIndex (skipWord n c k f) = f := by
  refine ⟨BitVec.eq_of_getLsbD_eq fun j hj => ?_, ?_, ?_, ?_, BitVec.eq_of_getLsbD_eq fun j hj => ?_,
    BitVec.eq_of_getLsbD_eq fun j hj => ?_⟩
  · simp only [primaryOp, skipWord, BitVec.getLsbD_and, BitVec.getLsbD_append, BitVec.getLsbD_extractLsb']
    interval_cases j <;> simp
  · simp only [bit12, skipWord, BitVec.getLsbD_append]
    simp
  · simp only [skipWord, BitVec.getLsbD_append]
    simp
  · simp only [condsOf, skipWord, BitVec.getLsbD_append]
    simp
  · simp only [switchIndex, skipWord, BitVec.getLsbD_append, BitVec.getLsbD_extractLsb']
    interval_cases j <;> simp
  · simp only [flagIndex, skipWord, BitVec.getLsbD_append, BitVec.getLsbD_extractLsb']
    interval_cases j <;> simp

theorem skipWord_fields {w : Word} (hop : primaryOp w = 0o64) (hbit : w.getLsbD 11 = false) :
    skipWord (bit12 w) (condsOf w) (switchIndex w) (flagIndex w) = w := by
  have hw : memWord 0o64 (bit12 w) (low12 w) = w := hop ▸ memWord_fields w
  refine BitVec.eq_of_getLsbD_eq fun k hk => ?_
  have hk' := congrArg (fun v : Word => v.getLsbD k) hw
  simp only [memWord, low12, bit12, BitVec.getLsbD_append, BitVec.getLsbD_extractLsb'] at hk'
  simp only [skipWord, bit12, condsOf, switchIndex, flagIndex, BitVec.getLsbD_append, BitVec.getLsbD_extractLsb']
  interval_cases k <;> simp_all

theorem decode_skipWord (n : Bool) (c : Conds) (k f : BitVec 3) : decode (skipWord n c k f) = decodeSkip n c k f := by
  obtain ⟨hop, hneg, hbit, hc, hk, hf⟩ := fields_skipWord n c k f
  simp only [decode, hop, hneg, hbit, hc, hk, hf]
  rfl

/-- The decoder's spelling of a skip word keeps its negate bit, its conditions and its indices. -/
theorem skipFieldsOf_decodeSkip (n : Bool) (c : Conds) (k f : BitVec 3) :
    skipFieldsOf (decodeSkip n c k f) = some (n, c, k, f) := by
  obtain ⟨za, pa, ma, zo, pi⟩ := c
  unfold decodeSkip
  split
  next h =>
    obtain ⟨rfl, rfl⟩ := h
    revert n za pa ma zo pi
    decide
  next h =>
    cases n
    · by_cases hn : Conds.isNone ⟨za, pa, ma, zo, pi⟩ = true
      · simp only [Conds.isNone, Bool.and_eq_true, Bool.not_eq_true'] at hn
        split_ifs <;> simp_all [skipFieldsOf]
      · simp [hn, skipFieldsOf]
    · rfl

theorem encode_of_skipFieldsOf {j : Instr} {n : Bool} {c : Conds} {k f : BitVec 3}
    (hj : skipFieldsOf j = some (n, c, k, f)) : encode j = skipWord n c k f := by
  cases j <;> cases hj
  all_goals rfl

theorem decodeNamedSkip_of_not_single {c : Conds} (h : c.isSingle = false) (n : Bool) :
    decodeNamedSkip n c = if n then .skpn c 0 0 else .skp c 0 0 := by
  obtain ⟨za, pa, ma, zo, pi⟩ := c
  revert n za pa ma zo pi
  decide

/-- A skip instruction in its one spelling is the one the decoder chooses. -/
theorem decodeSkip_of_skipFieldsOf {j : Instr} {n : Bool} {c : Conds} {k f : BitVec 3}
    (hj : skipFieldsOf j = some (n, c, k, f)) (hw : j.wf = true) : decodeSkip n c k f = j := by
  cases j <;> cases hj
  case skp =>
    simp only [Instr.wf, Bool.and_eq_true, skpNotNamed, skpNotIndexOnly] at hw
    by_cases h : k = 0 ∧ f = 0
    · simp_all [decodeSkip, decodeNamedSkip_of_not_single]
    · have hwide : ¬(c.isNone = true ∧ f = 0) ∧ ¬(c.isNone = true ∧ k = 0) := by grind
      rw [decodeSkip, if_neg h, if_neg Bool.false_ne_true, if_neg hwide.1, if_neg hwide.2]
  case skpn =>
    simp only [Instr.wf, skpNotNamed] at hw
    by_cases h : k = 0 ∧ f = 0
    · simp_all [decodeSkip, decodeNamedSkip_of_not_single]
    · rw [decodeSkip, if_neg h]
      rfl
  case szs =>
    have hk : k ≠ 0 := by simpa [Instr.wf, indexNotZero] using hw
    rw [decodeSkip, if_neg fun h => hk h.1]
    rfl
  case szf =>
    have hf : f ≠ 0 := by simpa [Instr.wf, indexNotZero] using hw
    rw [decodeSkip, if_neg fun h => hf h.2, if_neg Bool.false_ne_true, if_neg fun h => hf h.2]
    rfl
  all_goals rfl

theorem wf_decodeNamedSkip (n : Bool) (c : Conds) : (decodeNamedSkip n c).wf = true := by
  obtain ⟨za, pa, ma, zo, pi⟩ := c
  revert n za pa ma zo pi
  decide

theorem wf_decodeSkip (n : Bool) (c : Conds) (k f : BitVec 3) : (decodeSkip n c k f).wf = true := by
  unfold decodeSkip
  split_ifs
  · exact wf_decodeNamedSkip n c
  all_goals
    simp only [Instr.wf, indexNotZero, skpNotNamed, skpNotIndexOnly]
    grind

/-! The operate words: the micro-op field is nine bits of operation and three of index. -/

theorem index_and_base (b : BitVec 9) (k : BitVec 3) :
    (b ++ k : BitVec 12).extractLsb' 3 9 = b ∧ (b ++ k : BitVec 12).extractLsb' 0 3 = k :=
  ⟨BitVec.extractLsb'_append_eq_left, BitVec.extractLsb'_append_eq_right⟩

theorem base_append_index (m : BitVec 12) : (m.extractLsb' 3 9 ++ m.extractLsb' 0 3 : BitVec 12) = m := by
  refine BitVec.eq_of_getLsbD_eq fun k hk => ?_
  simp only [BitVec.getLsbD_append, BitVec.getLsbD_extractLsb']
  interval_cases k <;> simp

theorem toNat_extract_base (m : BitVec 12) : (m.extractLsb' 3 9).toNat = m.toNat / 8 := by
  have hm := m.isLt
  rw [BitVec.extractLsb'_toNat, Nat.shiftRight_eq_div_pow]
  omega

/-- R268: base 1 is stf. -/
theorem decodeOperate_stf (k : BitVec 3) : decodeOperate (1#9 ++ k) = .stf k := by
  obtain ⟨hb, hk⟩ := index_and_base 1#9 k
  have h0 : (1#9 ++ k : BitVec 12) ≠ 0#12 := fun h => by rw [h] at hb; cases hb
  simp [decodeOperate, h0, hb, hk]

/-- R269: base 0 is clf, but for the nop word. -/
theorem decodeOperate_clf (k : BitVec 3) : decodeOperate (0#9 ++ k) = if k = 0 then .nop else .clf k := by
  obtain ⟨hb, hk⟩ := index_and_base 0#9 k
  split
  next h => rw [h]; rfl
  next h =>
    have h0 : (0#9 ++ k : BitVec 12) ≠ 0#12 := fun h0 => h (hk ▸ h0 ▸ rfl)
    simp [decodeOperate, h0, hb, hk]

theorem operateWord_index (m : BitVec 12) : operateWord (m.extractLsb' 3 9 ++ m.extractLsb' 0 3) = operateWord m := by
  rw [base_append_index]

/-- Bases 0 and 1, clf and stf, hold the fields below 0o20. -/
theorem base_ge_two_iff (m : BitVec 12) : (m.extractLsb' 3 9 ≠ 0 ∧ m.extractLsb' 3 9 ≠ 1) ↔ 0o20 ≤ m.toNat := by
  have h0 : (0 : BitVec 9).toNat = 0 := rfl
  have h1 : (1 : BitVec 9).toNat = 1 := rfl
  rw [Ne, Ne, ← BitVec.toNat_inj, ← BitVec.toNat_inj, toNat_extract_base, h0, h1]
  omega

/-- The fields of R83, as numbers. -/
theorem knownMicroOp_eq_false_iff (m : BitVec 12) : knownMicroOp m = false ↔
    0o20 ≤ m.toNat ∧ m.toNat ∉ [0o0200, 0o0300, 0o0400, 0o1000, 0o2200, 0o4000] := by
  simp [knownMicroOp, ← BitVec.toNat_inj, and_assoc]

/-- The operation chosen for a field is an instruction of that field's word, in its one spelling. -/
theorem decodeOperate_spec (m : BitVec 12) :
    encode (decodeOperate m) = operateWord m ∧ (decodeOperate m).wf = true := by
  unfold decodeOperate
  split_ifs with h0 hclf hstf
  · exact ⟨h0 ▸ rfl, rfl⟩
  · refine ⟨?_, ?_⟩
    · rw [← operateWord_index m, hclf]
      rfl
    · have hk : m.extractLsb' 0 3 ≠ 0 := fun hk => h0 (by rw [← base_append_index m, hclf, hk]; rfl)
      simpa [Instr.wf, indexNotZero] using hk
  · refine ⟨?_, rfl⟩
    rw [← operateWord_index m, hstf]
    rfl
  · split
    case h_7 h1 h2 h3 h4 h5 h6 =>
      have hm : knownMicroOp m = false :=
        (knownMicroOp_eq_false_iff m).2 ⟨(base_ge_two_iff m).1 ⟨hclf, hstf⟩, by simpa using ⟨h1, h2, h3, h4, h5, h6⟩⟩
      exact ⟨rfl, by rw [Instr.wf, hm]; rfl⟩
    all_goals
      next h => exact ⟨congrArg operateWord (BitVec.eq_of_toNat_eq h.symm), rfl⟩

/-- A field outside the table of R83 names no operation. -/
theorem decodeOperate_unknown {m : BitVec 12} (h : knownMicroOp m = false) :
    decodeOperate m = .illegalOperateField m := by
  obtain ⟨hlarge, hnot⟩ := (knownMicroOp_eq_false_iff m).1 h
  obtain ⟨hclf, hstf⟩ := (base_ge_two_iff m).2 hlarge
  have h0 : m ≠ 0 := by rintro rfl; exact absurd hlarge (by decide)
  rw [decodeOperate, if_neg h0, if_neg hclf, if_neg hstf]
  split
  case h_7 => rfl
  all_goals simp_all

/-! The illegal sub-operations. -/

/-- The bits the decoder reads above the count mask are those of the sub-operation. -/
theorem bits_shiftWord (sub m : BitVec 9) :
    bit12 (shiftWord sub m) = sub.getLsbD 3 ∧ (shiftWord sub m).getLsbD 11 = sub.getLsbD 2 := by
  simp only [bit12, shiftWord, BitVec.getLsbD_append]
  simp

theorem shiftWord_fields (w : Word) : shiftWord (w.extractLsb' 9 9) (low9 w) = w := by
  refine BitVec.eq_of_getLsbD_eq fun k hk => ?_
  simp only [shiftWord, low9, BitVec.getLsbD_append, BitVec.getLsbD_extractLsb']
  interval_cases k <;> simp

/-- The sub-operation of an illegal shift word: bits 10..9 are zero. -/
def illegalShiftSub (d k : Bool) : BitVec 9 := 0o33#5 ++ BitVec.ofBool d ++ BitVec.ofBool k ++ 0#2

theorem encode_illegalShift (d k : Bool) (m : BitVec 9) :
    encode (.illegalShift d k m) = shiftWord (illegalShiftSub d k) m := rfl

theorem decode_illegalShift (d k : Bool) (m : BitVec 9) :
    decode (encode (.illegalShift d k m)) = .illegalShift d k m := by
  obtain ⟨hsub, hm⟩ := fields_shiftWord (illegalShiftSub d k) m
  obtain ⟨hd, hk⟩ := bits_shiftWord (illegalShiftSub d k) m
  simp only [encode_illegalShift, decode, primaryOp_shiftWord, decodeShift, hsub, hm, hd, hk]
  cases d <;> cases k <;> rfl

/-- Among the shift group's sub-operations those with bits 10..9 zero are four, one for each value of bits 12..11. -/
theorem eq_illegalShiftSub {sub : BitVec 9} (h : sub.toNat ∈ [0o660, 0o664, 0o670, 0o674]) :
    sub = illegalShiftSub (sub.getLsbD 3) (sub.getLsbD 2) := by
  have hs : ∀ n, sub.toNat = n → sub = BitVec.ofNat 9 n := fun n hn => by simp [← hn]
  simp only [List.mem_cons, List.not_mem_nil, or_false] at h
  rcases h with h | h | h | h
  all_goals
    rw [hs _ h]
    rfl

theorem shiftWord_of_sub {w : Word} {n : Nat} (h : (w.extractLsb' 9 9).toNat = n) :
    shiftWord (BitVec.ofNat 9 n) (low9 w) = w := by
  subst h
  rw [BitVec.ofNat_toNat, BitVec.setWidth_eq, shiftWord_fields]

theorem shiftSub_div (w : Word) : (w.extractLsb' 9 9).toNat / 16 * 2 = opNumber w := by
  have hw := w.isLt
  rw [opNumber, BitVec.extractLsb'_toNat, Nat.shiftRight_eq_div_pow]
  omega

/-- Of the 16 sub-operations the four that are not in the table of R82 are the illegal ones. -/
theorem decodeShift_spec {w : Word} (hop : opNumber w = 0o66) :
    encode (decodeShift w) = w ∧ (decodeShift w).wf = true := by
  unfold decodeShift
  split
  case h_13 h1 h2 h3 h4 h5 h6 h7 h8 h9 h10 h11 h12 =>
    simp only [imp_false] at h1 h2 h3 h4 h5 h6 h7 h8 h9 h10 h11 h12
    have hdiv := shiftSub_div w
    have hsub := eq_illegalShiftSub (sub := w.extractLsb' 9 9) (by
      simp only [List.mem_cons, List.not_mem_nil, or_false]
      omega)
    obtain ⟨hd, hk⟩ := bits_shiftWord (w.extractLsb' 9 9) (low9 w)
    rw [shiftWord_fields] at hd hk
    rw [encode_illegalShift, hd, hk, ← hsub, shiftWord_fields]
    exact ⟨rfl, rfl⟩
  all_goals
    next h => exact ⟨shiftWord_of_sub h, rfl⟩

theorem fields_illegalSkip (n : Bool) (x : BitVec 11) :
    primaryOp (encode (.illegalSkip n x)) = 0o64 ∧ bit12 (encode (.illegalSkip n x)) = n ∧
      (encode (.illegalSkip n x)).getLsbD 11 = true ∧ (encode (.illegalSkip n x)).extractLsb' 0 11 = x := by
  refine ⟨BitVec.eq_of_getLsbD_eq fun j hj => ?_, ?_, ?_, BitVec.extractLsb'_append_eq_right⟩
  · simp only [primaryOp, encode, BitVec.getLsbD_and, BitVec.getLsbD_append, BitVec.getLsbD_extractLsb']
    interval_cases j <;> simp
  · simp only [bit12, encode, BitVec.getLsbD_append]
    simp
  · simp only [encode, BitVec.getLsbD_append]
    simp

theorem illegalSkip_fields {w : Word} (hop : primaryOp w = 0o64) (hbit : w.getLsbD 11 = true) :
    encode (.illegalSkip (bit12 w) (w.extractLsb' 0 11)) = w := by
  have hw : memWord 0o64 (bit12 w) (low12 w) = w := hop ▸ memWord_fields w
  refine BitVec.eq_of_getLsbD_eq fun k hk => ?_
  have hk' := congrArg (fun v : Word => v.getLsbD k) hw
  simp only [memWord, low12, bit12, BitVec.getLsbD_append, BitVec.getLsbD_extractLsb'] at hk'
  simp only [encode, bit12, BitVec.getLsbD_append, BitVec.getLsbD_extractLsb']
  interval_cases k <;> simp_all

theorem decode_illegalSkip (n : Bool) (x : BitVec 11) : decode (encode (.illegalSkip n x)) = .illegalSkip n x := by
  obtain ⟨hop, hneg, hbit, hx⟩ := fields_illegalSkip n x
  simp only [decode, hop, hneg, hbit, hx]
  rfl

theorem decode_illegalOperateBit (m : BitVec 12) :
    decode (encode (.illegalOperateBit m)) = .illegalOperateBit m := by
  obtain ⟨hop, hbit, hm⟩ := fields_memWord 0o76 rfl true m
  have hw : encode (.illegalOperateBit m) = memWord 0o76 true m := rfl
  simp only [hw, decode, hop, hbit, hm]
  rfl

theorem decode_encode_of_skipFieldsOf {j : Instr} {n : Bool} {c : Conds} {k f : BitVec 3}
    (hj : skipFieldsOf j = some (n, c, k, f)) (hw : j.wf = true) : decode (encode j) = j := by
  rw [encode_of_skipFieldsOf hj, decode_skipWord, decodeSkip_of_skipFieldsOf hj hw]

/-- The formats with one word or one constructor each. -/
theorem decode_encode_of_no_group {j : Instr} (hchain : chainOf j = none) (hshift : shiftMaskOf j = none)
    (hskip : skipFieldsOf j = none) (hw : j.wf = true) : decode (encode j) = j := by
  cases j <;> cases hchain <;> cases hshift <;> cases hskip
  case xct | cal | jda => simp [encode, decode, fields_memWord]
  case law | iot | illegalOp00 | illegalOp12 | illegalOp14 | illegalOp36 | illegalOp74 =>
    simp [encode, decode, fields_wideWord]
  case illegalShift d k m => exact decode_illegalShift d k m
  case illegalSkip n x => exact decode_illegalSkip n x
  case illegalOperateBit m => exact decode_illegalOperateBit m
  case stf k => exact (decode_operateWord _).trans (decodeOperate_stf k)
  case clf k =>
    have hk : k ≠ 0 := by simpa [Instr.wf, indexNotZero] using hw
    exact (decode_operateWord _).trans ((decodeOperate_clf k).trans (if_neg hk))
  case illegalOperateField m =>
    have hm : knownMicroOp m = false := by simpa [Instr.wf] using hw
    exact (decode_operateWord m).trans (decodeOperate_unknown hm)
  all_goals exact decode_operateWord _

/-- Settles O1, format by format: the decoder reads the fields of each format back, and chooses the one spelling. -/
theorem decodeOfEncodeIsTheInstruction : Obligations.DecodeOfEncodeIsTheInstruction := by
  intro j hw
  rcases hchain : chainOf j with _ | ⟨i, y⟩
  case some => exact decode_encode_of_chainOf hchain
  rcases hshift : shiftMaskOf j with _ | m
  case some => exact decode_encode_of_shiftMaskOf hshift
  rcases hskip : skipFieldsOf j with _ | ⟨n, c, k, f⟩
  case some => exact decode_encode_of_skipFieldsOf hskip hw
  exact decode_encode_of_no_group hchain hshift hskip hw

/-- A word of an opcode is its fields, with one bit and an address or with 13 free bits. -/
theorem formats_of_primaryOp {w : Word} {op : Nat} (h : (primaryOp w).toNat = op) :
    memWord (BitVec.ofNat 6 op) (bit12 w) (low12 w) = w ∧ wideWord (BitVec.ofNat 6 op) (low13 w) = w := by
  subst h
  rw [BitVec.ofNat_toNat, BitVec.setWidth_eq]
  exact ⟨memWord_fields w, wideWord_fields w⟩

/-- The group of cal and jda: bit 12 chooses. -/
theorem decodeCall_spec {w : Word} (h : (primaryOp w).toNat = 0o16) {j : Instr}
    (hj : j = if bit12 w then .jda (low12 w) else .cal (low12 w)) : encode j = w ∧ j.wf = true := by
  have hw := (formats_of_primaryOp h).1
  subst hj
  split
  next hb => exact ⟨by rw [hb] at hw; exact hw, rfl⟩
  next hb => exact ⟨by rw [Bool.eq_false_iff.2 hb] at hw; exact hw, rfl⟩

/-- Settles O2, opcode by opcode: the fields the decoder reads are all the word's bits. -/
theorem encodeOfDecodeIsTheWord : Obligations.EncodeOfDecodeIsTheWord := by
  intro w
  unfold decode
  split
  case h_5 h | h_6 h | h_15 h | h_28 h | h_29 h | h_30 h => exact ⟨(formats_of_primaryOp h).2, rfl⟩
  case h_7 h => exact decodeCall_spec h rfl
  case h_26 h =>
    have hop : primaryOp w = 0o64 := BitVec.eq_of_toNat_eq h
    split
    next hbit => exact ⟨illegalSkip_fields hop hbit, rfl⟩
    next hbit =>
      have hw := skipWord_fields hop (Bool.eq_false_iff.2 hbit)
      exact ⟨(encode_of_skipFieldsOf (skipFieldsOf_decodeSkip ..)).trans hw, wf_decodeSkip ..⟩
  case h_27 h => exact decodeShift_spec (primaryOp_toNat w ▸ h)
  case h_31 h =>
    have hw := (formats_of_primaryOp h).1
    split
    next hbit =>
      rw [hbit] at hw
      exact ⟨hw, rfl⟩
    next hbit =>
      rw [Bool.eq_false_iff.2 hbit] at hw
      exact ⟨(decodeOperate_spec _).1.trans hw, (decodeOperate_spec _).2⟩
  case h_32 =>
    have hop : (primaryOp w).toNat = 0o00 := by
      have hodd := primaryOp_toNat w
      have hlt := (primaryOp w).isLt
      unfold opNumber at hodd
      simp only [imp_false] at *
      omega
    exact ⟨(formats_of_primaryOp hop).2, rfl⟩
  all_goals
    next h => exact ⟨(formats_of_primaryOp h).1, rfl⟩

/-- The word of a row's match, for any instruction of the memory-reference format. -/
theorem decode_refWord_of_encode {op : BitVec 6} {j : Instr} {i : Bool} {y : Addr} (hw : j.wf = true)
    (he : encode j = memWord op i y) : decode (refWord (op.toNat / 2 * 8192) i y) = j := by
  rw [refWord_eq_memWord, ← he, decodeOfEncodeIsTheInstruction j hw]

end Sys2Proof.Machine

/-! ## The illegal words (30_encoding.md R84, R85, 49_iot_illegal.md R280 to R282)

Every word is the word of the instruction it decodes to, so which words are illegal is read off the formats. -/

namespace Sys2Proof.Machine

open Sys2Proof.Claims

theorem opNumber_memWord {op : BitVec 6} (h : op.getLsbD 0 = false) (i : Bool) (y : Addr) :
    opNumber (memWord op i y) = op.toNat := by rw [← primaryOp_toNat, (fields_memWord op h i y).1]

theorem opNumber_wideWord {op : BitVec 6} (h : op.getLsbD 0 = false) (n : BitVec 13) :
    opNumber (wideWord op n) = op.toNat := by rw [← primaryOp_toNat, (fields_wideWord op h n).1]

theorem opNumber_skipWord (n : Bool) (c : Conds) (k f : BitVec 3) : opNumber (skipWord n c k f) = 0o64 := by
  rw [← primaryOp_toNat, (fields_skipWord n c k f).1]
  rfl

theorem opNumber_operateWord (m : BitVec 12) : opNumber (operateWord m) = 0o76 :=
  opNumber_memWord (op := 0o76) rfl false m

theorem opNumber_shiftWord (sub m : BitVec 9) : opNumber (shiftWord sub m) = sub.toNat / 16 * 2 := by
  rw [← shiftSub_div, (fields_shiftWord sub m).1]

theorem opNumber_illegalShift (d k : Bool) (m : BitVec 9) : opNumber (encode (.illegalShift d k m)) = 0o66 := by
  rw [encode_illegalShift, opNumber_shiftWord]
  cases d <;> cases k <;> rfl

theorem opNumber_illegalSkip (n : Bool) (x : BitVec 11) : opNumber (encode (.illegalSkip n x)) = 0o64 := by
  rw [← primaryOp_toNat, (fields_illegalSkip n x).1]
  rfl

theorem opNumber_illegalOperateBit (m : BitVec 12) : opNumber (encode (.illegalOperateBit m)) = 0o76 :=
  opNumber_memWord (op := 0o76) rfl true m

/-- R84: five primary opcodes, each of its own row. -/
theorem isIllegalOpcode_iff (j : Instr) :
    isIllegalOpcode j = true ↔ opNumber (encode j) ∈ [0o00, 0o12, 0o14, 0o36, 0o74] := by
  cases j
  case illegalShift => simp [opNumber_illegalShift, isIllegalOpcode]
  case illegalSkip => simp [opNumber_illegalSkip, isIllegalOpcode]
  case illegalOperateBit => simp [opNumber_illegalOperateBit, isIllegalOpcode]
  all_goals
    simp [encode, isIllegalOpcode, opNumber_memWord, opNumber_wideWord, opNumber_skipWord, opNumber_operateWord,
      opNumber_shiftWord]

/-- R85, of a word: a shift with bits 10..9 zero, a skip with bit 11, an operate with bit 12 or an unknown field. -/
def IsIllegalSubWord (w : Word) : Prop :=
  (opNumber w = 0o66 ∧ w.getLsbD 10 = false ∧ w.getLsbD 9 = false) ∨ (opNumber w = 0o64 ∧ w.getLsbD 11 = true) ∨
    (opNumber w = 0o76 ∧ (w.getLsbD 12 = true ∨
      (0o20 ≤ w.toNat % 4096 ∧ w.toNat % 4096 ∉ [0o0200, 0o0300, 0o0400, 0o1000, 0o2200, 0o4000])))

theorem not_isIllegalSubWord {w : Word} (h : opNumber w ∉ [0o64, 0o66, 0o76]) : ¬IsIllegalSubWord w := by
  simp only [List.mem_cons, List.not_mem_nil, or_false, not_or] at h
  simp [IsIllegalSubWord, h]

theorem isIllegalSubWord_shiftWord {sub : BitVec 9} (h : sub.toNat / 16 = 0o33) (m : BitVec 9) :
    IsIllegalSubWord (shiftWord sub m) ↔ sub.getLsbD 1 = false ∧ sub.getLsbD 0 = false := by
  have hbits : (shiftWord sub m).getLsbD 10 = sub.getLsbD 1 ∧ (shiftWord sub m).getLsbD 9 = sub.getLsbD 0 := by
    simp only [shiftWord, BitVec.getLsbD_append]
    simp
  rw [IsIllegalSubWord, opNumber_shiftWord, h, hbits.1, hbits.2]
  simp

theorem not_isIllegalSubWord_skipWord (n : Bool) (c : Conds) (k f : BitVec 3) :
    ¬IsIllegalSubWord (skipWord n c k f) := by
  obtain ⟨-, -, hbit, -⟩ := fields_skipWord n c k f
  rw [IsIllegalSubWord, opNumber_skipWord, hbit]
  simp

theorem low12_toNat (w : Word) : (low12 w).toNat = w.toNat % 4096 := by
  rw [low12, BitVec.extractLsb'_toNat, Nat.shiftRight_zero]

theorem isIllegalSubWord_operateWord (m : BitVec 12) :
    IsIllegalSubWord (operateWord m) ↔ knownMicroOp m = false := by
  obtain ⟨-, hbit, hm⟩ := fields_operateWord m
  rw [knownMicroOp_eq_false_iff, IsIllegalSubWord, opNumber_operateWord, ← low12_toNat, hm,
    show (operateWord m).getLsbD 12 = false from hbit]
  simp

theorem knownMicroOp_index {b : BitVec 9} (hb : b.toNat ≤ 1) (k : BitVec 3) : knownMicroOp (b ++ k) = true := by
  have hk := k.isLt
  rw [← Bool.not_eq_false, knownMicroOp_eq_false_iff, toNat_concat]
  omega

/-- The illegal sub-operations' rows have the illegal words, and no other row in its one spelling has one. -/
theorem isIllegalSubop_iff {j : Instr} (hw : j.wf = true) : isIllegalSubop j = true ↔ IsIllegalSubWord (encode j) := by
  cases j
  case illegalShift d k m =>
    rw [encode_illegalShift, isIllegalSubWord_shiftWord (by cases d <;> cases k <;> rfl)]
    exact iff_of_true rfl (by cases d <;> cases k <;> decide)
  case illegalSkip n x => simp [isIllegalSubop, IsIllegalSubWord, opNumber_illegalSkip, (fields_illegalSkip n x).2.2.1]
  case illegalOperateBit m =>
    have hbit : (encode (.illegalOperateBit m)).getLsbD 12 = true := (fields_memWord 0o76 rfl true m).2.1
    simp [isIllegalSubop, IsIllegalSubWord, opNumber_illegalOperateBit, hbit]
  case illegalOperateField m =>
    have hm : knownMicroOp m = false := by simpa [Instr.wf] using hw
    simpa [isIllegalSubop, encode, isIllegalSubWord_operateWord] using hm
  case stf k => simp [isIllegalSubop, encode, isIllegalSubWord_operateWord, knownMicroOp_index]
  case clf k => simp [isIllegalSubop, encode, isIllegalSubWord_operateWord, knownMicroOp_index]
  all_goals
    simp [isIllegalSubop, encode, isIllegalSubWord_operateWord, not_isIllegalSubWord_skipWord,
      isIllegalSubWord_shiftWord, not_isIllegalSubWord, opNumber_memWord, opNumber_wideWord, knownMicroOp]

/-- Settles O3, from the word each row has: every word is the word of the instruction it decodes to. -/
theorem illegalWordsAreThoseListed : Obligations.IllegalWordsAreThoseListed := by
  intro w
  obtain ⟨hword, hwf⟩ := encodeOfDecodeIsTheWord w
  refine ⟨?_, ?_⟩
  · simpa only [hword] using isIllegalOpcode_iff (decode w)
  · simpa only [hword, IsIllegalSubWord] using isIllegalSubop_iff hwf

/-- Settles O4, by evaluating the decoder at the eleven words. -/
theorem sampleWordsDecode : Obligations.SampleWordsDecode := by
  unfold Obligations.SampleWordsDecode
  decide

/-- Outside the skip group the one-spelling choice leaves clf 0 alone to another constructor, nop. -/
theorem exec_decode_encode_of_no_skip {j : Instr} (hskip : skipFieldsOf j = none)
    (hj : ∀ m, j = .illegalOperateField m → knownMicroOp m = false) (s : State) :
    exec (decode (encode j)) s = exec j s := by
  by_cases hclf : j = .clf 0
  · subst hclf
    rfl
  · have hw : j.wf = true := by
      cases j <;> cases hskip
      case clf k => simpa [Instr.wf, indexNotZero] using hclf
      case illegalOperateField m => simp [Instr.wf, hj m rfl]
      all_goals rfl
    rw [decodeOfEncodeIsTheInstruction j hw]

/-- Settles O5: the decoder's spelling of a skip word has the same fields, and any other spelling is the decoder's. -/
theorem spellingsOfOneWordActAlike : Obligations.SpellingsOfOneWordActAlike := by
  intro j s hj
  rcases hskip : skipFieldsOf j with _ | ⟨n, c, k, f⟩
  · exact exec_decode_encode_of_no_skip hskip hj s
  · rw [encode_of_skipFieldsOf hskip, decode_skipWord, exec_of_skipFieldsOf hskip,
      exec_of_skipFieldsOf (skipFieldsOf_decodeSkip n c k f)]

theorem exec_illegalOpcode {j : Instr} (h : isIllegalOpcode j = true) (s : State) :
    exec j s = .fault (.illegalOpcode (encode j) s) := by
  cases j <;> cases h
  all_goals rfl

theorem exec_illegalSubop {j : Instr} (h : isIllegalSubop j = true) (s : State) :
    exec j s = .fault (.illegalSubop (encode j) s) := by
  cases j <;> cases h
  all_goals rfl

/-- The iot words are those of opcode 0o72. -/
theorem decode_of_opNumber_iot {w : Word} (h : opNumber w = 0o72) : decode w = .iot (low13 w) := by
  rw [← primaryOp_toNat] at h
  simp [decode, h]

/-- Settles O54: the fault carries the word of the decoded instruction, which is the word itself. -/
theorem stopsCarryTheirWord : Obligations.StopsCarryTheirWord := by
  intro w s
  have hword := (encodeOfDecodeIsTheWord w).1
  refine ⟨?_, fun h => ?_, fun h => ?_⟩
  · rintro (h | rfl)
    · rw [decode_of_opNumber_iot h] at hword ⊢
      exact congrArg (fun v => Host.Outcome.fault (Fault.unimplemented v s)) hword
    · rfl
  · rw [exec_illegalOpcode h, hword]
  · rw [exec_illegalSubop h, hword]

end Sys2Proof.Machine

/-! ## What an instruction keeps (10_state.md R21 to R37, 20_memory.md R50)

A completed instruction went to the state of `nextOf`, so each statement about every instruction is a statement about
`nextOf`: which registers it writes, which one word of memory it stores, and that the construction is not touched. -/

namespace Sys2Proof.Machine

open Sys2Proof.Claims

@[simp] theorem nextOf_ss (s : State) (a : Addr) (j : Instr) : (nextOf s a j).ss = s.ss := by
  cases j
  all_goals simp [nextOf]

@[simp] theorem nextOf_ext (s : State) (a : Addr) (j : Instr) : (nextOf s a j).ext = s.ext := by
  cases j
  all_goals simp [nextOf]

@[simp] theorem nextOf_cfg (s : State) (a : Addr) (j : Instr) : (nextOf s a j).cfg = s.cfg := by
  cases j
  all_goals simp [nextOf]

theorem nextOf_ac_of_not_writesAc {j : Instr} (h : writesAc j = false) (s : State) (a : Addr) :
    (nextOf s a j).ac = s.ac := by
  cases j <;> cases h
  all_goals simp [nextOf]

theorem nextOf_io_of_not_writesIo {j : Instr} (h : writesIo j = false) (s : State) (a : Addr) :
    (nextOf s a j).io = s.io := by
  cases j <;> cases h
  all_goals simp [nextOf]

/-- A skip-group instruction that does not list zo keeps OV too. -/
theorem nextOf_ov_of_not_writesOv {j : Instr} (h : writesOv j = false) (s : State) (a : Addr) :
    (nextOf s a j).ov = s.ov := by
  cases j
  case skp c k f =>
    have hzo : c.zo = false := h
    simp [nextOf, hzo]
  case skpn c k f =>
    have hzo : c.zo = false := h
    simp [nextOf, hzo]
  all_goals cases h <;> simp [nextOf]

theorem nextOf_pf_of_not_writesPf {j : Instr} (h : writesPf j = false) (s : State) (a : Addr) :
    (nextOf s a j).pf = s.pf := by
  cases j <;> cases h
  all_goals simp [nextOf]

theorem nextOf_mem_of_not_stores {j : Instr} (h : stores j = false) (s : State) (a : Addr) :
    (nextOf s a j).mem = s.mem := by
  cases j <;> cases h
  all_goals simp [nextOf]

/-- The cell a storing instruction writes, `a` being its effective address. -/
def storeCell (s : State) (a : Addr) : Instr → Addr
  | .cal _ => s.cfg.calBase
  | .jda y => y
  | _ => a

/-- The word a storing instruction writes. -/
def storeValue (s : State) (a : Addr) : Instr → Word
  | .dap _ _ => replaceBits 0o007777 (s.memRead a) s.ac
  | .dip _ _ => replaceBits s.cfg.dipMask.word (s.memRead a) s.ac
  | .dio _ _ => s.io
  | .dzm _ _ => 0
  | .idx _ _ | .isp _ _ => ocInc (s.memRead a)
  | _ => s.ac

theorem nextOf_mem_of_stores {j : Instr} (h : stores j = true) (s : State) (a : Addr) :
    (nextOf s a j).mem = s.mem.write (storeCell s a j).toNat (storeValue s a j) := by
  cases j <;> cases h
  all_goals simp [nextOf, storeCell, storeValue]

theorem skipIf_pc_eq_or (s : State) (c : Bool) :
    (s.skipIf c).pc = s.pc ∨ ∃ v, (s.skipIf c).pc = wrapPc s.ext v := by
  cases c
  · exact .inl rfl
  · exact .inr ⟨_, rfl⟩

theorem skipGroup_pc_eq_or (n : Bool) (c : Conds) (k f : BitVec 3) (s : State) :
    (skipGroup n c k f s).pc = s.pc ∨ ∃ v, (skipGroup n c k f s).pc = wrapPc s.ext v := by
  rw [skipGroup_eq_skipIf]
  exact skipIf_pc_eq_or _ _

theorem nextOf_of_skipFieldsOf {j : Instr} {n : Bool} {c : Conds} {k f : BitVec 3}
    (hj : skipFieldsOf j = some (n, c, k, f)) (s : State) (a : Addr) : nextOf s a j = skipGroup n c k f s := by
  cases j <;> cases hj
  all_goals rfl

/-- Every write of the PC is reduced modulo `2^W` (10_state.md R25): the jumps' and the skips'. -/
theorem nextOf_pc_eq_or (s : State) (a : Addr) (j : Instr) :
    (nextOf s a j).pc = s.pc ∨ ∃ v, (nextOf s a j).pc = wrapPc s.ext v := by
  match hskip : skipFieldsOf j with
  | none =>
    cases j <;> cases hskip
    case jmp | jsp | cal | jda => exact .inr ⟨_, rfl⟩
    case isp => exact skipIf_pc_eq_or (s.index a) _
    case sad | sas => exact skipIf_pc_eq_or s _
    all_goals exact .inl rfl
  | some (n, c, k, f) =>
    rw [nextOf_of_skipFieldsOf hskip]
    exact skipGroup_pc_eq_or n c k f s

/-! ### Legal states -/

theorem State.inv_iff (s : State) :
    s.inv = true ↔ s.mem.wf = true ∧ s.mem.within s.size = true ∧ (s.ext = true ∨ s.pc.toNat < 4096) := by
  simp [State.inv, and_assoc]

theorem wrapPc_bound (e : Bool) (v : PcVal) : e = true ∨ (wrapPc e v).toNat < 4096 := by
  rw [wrapPc_toNat]
  cases e
  · exact .inr (Nat.mod_lt _ (by decide))
  · exact .inl rfl

theorem inv_advance {s : State} (h : s.inv = true) : s.advance.inv = true := by
  rw [State.inv_iff] at h ⊢
  exact ⟨h.1, h.2.1, wrapPc_bound s.ext _⟩

theorem inv_nextOf {s : State} (h : s.inv = true) (a : Addr) (j : Instr) : (nextOf s a j).inv = true := by
  rw [State.inv_iff] at h ⊢
  obtain ⟨hwf, hwithin, hpc⟩ := h
  have hsize : (nextOf s a j).size = s.size := by simp [State.size]
  rw [hsize, nextOf_ext]
  refine ⟨?wf, ?within, ?pc⟩
  case pc =>
    rcases nextOf_pc_eq_or s a j with e | ⟨v, e⟩
    · rwa [e]
    · rw [e]
      exact wrapPc_bound s.ext v
  all_goals cases hj : stores j
  case wf.false => rwa [nextOf_mem_of_not_stores hj]
  case within.false => rwa [nextOf_mem_of_not_stores hj]
  case wf.true =>
    rw [nextOf_mem_of_stores hj]
    exact Memory.wf_write hwf _ _
  case within.true =>
    rw [nextOf_mem_of_stores hj]
    exact Memory.within_write hwithin (addr_lt_size s _) _

/-- A completed step left a halted state as it was, or went from the advanced state to the next state of an
instruction. -/
theorem step_next {s t : State} (h : step s = .next t) : t = s ∨ ∃ a j, t = nextOf s.advance a j := by
  rcases step_cases s with ⟨-, e⟩ | ⟨-, -, e⟩ | ⟨w, -, -, e⟩ <;> rw [e] at h
  · cases h
    exact .inl rfl
  · cases h
  · obtain ⟨a, -, -, -, ht⟩ := exec_next h
    exact .inr ⟨a, _, ht⟩

/-- Settles O12: the fetch's advance and every next state of `nextOf` keep the invariant. -/
theorem stepKeepsLegalStates : Obligations.StepKeepsLegalStates := by
  intro s t hs h
  rcases step_next h with rfl | ⟨a, j, rfl⟩
  · exact hs
  · exact inv_nextOf (inv_advance hs) a j

/-- Settles O15, as for the invariant. -/
theorem noStepChangesTheConstruction : Obligations.NoStepChangesTheConstruction := by
  intro s t h
  rcases step_next h with rfl | ⟨a, j, rfl⟩
  · exact ⟨rfl, rfl, rfl⟩
  · simp

/-- Settles O16: a register that changed is one that `nextOf` writes. -/
theorem registersHaveTheirListedWriters : Obligations.RegistersHaveTheirListedWriters := by
  intro j s t h
  obtain ⟨a, -, -, -, rfl⟩ := exec_next h
  refine ⟨fun hne => ?_, fun hne => ?_, fun hne => ?_, fun hne => ?_, fun hne => ?_⟩
  · exact Bool.of_not_eq_false fun hw => hne (nextOf_ac_of_not_writesAc hw s a)
  · exact Bool.of_not_eq_false fun hw => hne (nextOf_io_of_not_writesIo hw s a)
  · exact Bool.of_not_eq_false fun hw => hne (nextOf_ov_of_not_writesOv hw s a)
  · exact Bool.of_not_eq_false fun hw => hne (nextOf_pf_of_not_writesPf hw s a)
  · exact not_not.1 fun hj => hne (nextOf_run_of_ne_hlt hj s a)

/-- Settles O55: without a store `nextOf` keeps the memory as data. -/
theorem othersLeaveMemoryUnchanged : Obligations.OthersLeaveMemoryUnchanged := by
  intro j s t hj h b
  obtain ⟨a, -, -, -, rfl⟩ := exec_next h
  rw [nextOf_mem_of_not_stores hj]

/-- The storing instructions write no register beside AC and the PC. -/
theorem writers_of_stores {j : Instr} (h : stores j = true) :
    writesIo j = false ∧ writesOv j = false ∧ writesPf j = false ∧ j ≠ .hlt := by
  cases j <;> cases h
  all_goals exact ⟨rfl, rfl, rfl, nofun⟩

/-- Of the storing instructions those that write AC are idx, isp, cal and jda. -/
theorem nextOf_pc_of_deposit {j : Instr} (h : stores j = true) (hac : writesAc j = false) (s : State) (a : Addr) :
    (nextOf s a j).pc = s.pc := by
  cases j <;> cases h <;> cases hac
  all_goals rfl

/-- A storing instruction goes on at its cell: the effective address, `P_CAL_BASE` or Y. -/
theorem exec_of_storing {j : Instr} {s : State} {a : Addr}
    (h : (∃ i y, (j = .dac i y ∨ j = .dap i y ∨ j = .dip i y ∨ j = .dio i y ∨ j = .dzm i y ∨ j = .idx i y ∨
      j = .isp i y) ∧ s.ea i y = some a) ∨ (∃ y, j = .cal y ∧ a = s.cfg.calBase) ∨ j = .jda a) :
    stores j = true ∧ storeCell s a j = a ∧ exec j s = .next (nextOf s a j) := by
  rcases h with ⟨i, y, hj, hea⟩ | ⟨y, rfl, rfl⟩ | rfl
  · rcases hj with rfl | rfl | rfl | rfl | rfl | rfl | rfl
    all_goals exact ⟨rfl, rfl, exec_of_ea rfl rfl hea⟩
  · exact ⟨rfl, rfl, rfl⟩
  · exact ⟨rfl, rfl, rfl⟩

/-- Settles O56, from the cell a storing instruction writes and the registers it does not. -/
theorem storesChangeOneWord : Obligations.StoresChangeOneWord := by
  intro j s t a ht hj
  obtain ⟨hstores, hcell, hexec⟩ := exec_of_storing hj
  obtain ⟨hio, hov, hpf, hrun⟩ := writers_of_stores hstores
  obtain rfl : nextOf s a j = t := Host.Outcome.next.inj (hexec.symm.trans ht)
  refine ⟨fun b hb => ?_, nextOf_io_of_not_writesIo hio s a, nextOf_ov_of_not_writesOv hov s a,
    nextOf_pf_of_not_writesPf hpf s a, nextOf_run_of_ne_hlt hrun s a, nextOf_ss s a j, nextOf_ext s a j,
    nextOf_cfg s a j, fun hac => ⟨nextOf_ac_of_not_writesAc hac s a, nextOf_pc_of_deposit hstores hac s a⟩, ?_⟩
  · rw [nextOf_mem_of_stores hstores, hcell, Memory.read_write_other _ _ hb]
  · rintro ⟨i, y, rfl⟩
    rfl

end Sys2Proof.Machine

/-! ## The access table and the meanings (20_memory.md R50)

The table lists, of an instruction's chain, of the levels of its nest and of the instruction it runs, every word read
and written. So the words it does not list can change nothing, and of the words it lists to be written one is stored. -/

namespace Sys2Proof.Machine

open Sys2Proof.Claims

theorem mem_eaAccesses_of_ea {s : State} {i : Bool} {y a : Addr} (h : s.ea i y = some a) {f : Addr → List Access}
    {x : Access} (hx : x ∈ f a) : x ∈ eaAccesses s i y f := by
  simp only [eaAccesses, h, List.mem_append]
  exact .inr hx

/-- A chain only reads, so a write of the list is one at the effective address. -/
theorem mem_eaAccesses_write {s : State} {i : Bool} {y b : Addr} {f : Addr → List Access}
    (h : .write b ∈ eaAccesses s i y f) : ∃ a, s.ea i y = some a ∧ .write b ∈ f a := by
  simp only [eaAccesses, List.mem_append] at h
  rcases h with h | h
  · split at h
    · simp at h
    · cases h
  · cases hea : s.ea i y with
    | none => simp [hea] at h
    | some a => exact ⟨a, rfl, by simpa [hea] using h⟩

/-- A storing instruction's write is listed. -/
theorem write_storeCell_mem {j : Instr} (h : stores j = true) {s : State} {a : Addr} (ha : eaIs s j a) :
    .write (storeCell s a j) ∈ plainAccesses j s := by
  cases j <;> cases h
  case cal | jda => exact List.mem_singleton.2 rfl
  all_goals exact mem_eaAccesses_of_ea ha (by simp [storeCell])

/-- A listed write is the store of a storing instruction. -/
theorem eq_storeCell_of_write_mem {j : Instr} {s : State} {a b : Addr} (ha : eaIs s j a)
    (h : .write b ∈ plainAccesses j s) : stores j = true ∧ b = storeCell s a j := by
  match hchain : chainOf j with
  | none =>
    cases j <;> cases hchain
    case cal | jda => exact ⟨rfl, Access.write.inj (List.mem_singleton.1 h)⟩
    all_goals cases h
  | some (i, y) =>
    cases j <;> cases hchain
    all_goals
      obtain ⟨a', ha', hb⟩ := mem_eaAccesses_write h
      obtain rfl : a' = a := Option.some.inj (ha'.symm.trans ha)
      simp_all [storeCell, stores]

/-- The accesses of the instruction a nest ends at are among the nest's. -/
theorem plainAccesses_subset_nest {s : State} {n : Nat} {i : Bool} {y : Addr} {j : Instr}
    (h : xctNest s n i y = .target j) : plainAccesses j s ⊆ nestAccesses s n i y := by
  induction n generalizing i y with
  | zero => cases h
  | succ n ih =>
    rcases hea : s.ea i y with _ | a
    · rw [xctNest_hang hea] at h
      cases h
    intro x hx
    rw [nestAccesses]
    refine mem_eaAccesses_of_ea hea (List.mem_cons_of_mem _ ?_)
    rcases hxct : asXct (decode (s.memRead a)) with _ | ⟨i', y'⟩
    · rw [xctNest_found hea hxct] at h
      cases h
      exact hx
    · rw [xctNest_deeper hea hxct] at h
      exact ih h hx

theorem plainAccesses_effective_subset {j : Instr} {s : State} (h : asXct (effective j s) = none) :
    plainAccesses (effective j s) s ⊆ accesses j s := by
  rcases hx : asXct j with _ | ⟨i, y⟩
  · simp [effective, accesses, hx]
  · rcases hn : xctNest s xctBound i y with k | f
    · simpa only [effective, accesses, hx, hn] using plainAccesses_subset_nest hn
    · simp [effective, hx, hn] at h

/-- Settles O17: an instruction that stores lists its one write. -/
theorem onlyListedWritesChangeMemory : Obligations.OnlyListedWritesChangeMemory := by
  intro j s t b h hb
  obtain ⟨a, hx, ha, -, rfl⟩ := exec_next h
  cases hs : stores (effective j s) with
  | false => rw [nextOf_mem_of_not_stores hs]
  | true =>
    have hne := hb _ (plainAccesses_effective_subset hx (write_storeCell_mem hs ha))
    rw [nextOf_mem_of_stores hs, Memory.read_write_other _ _ hne.symm]

end Sys2Proof.Machine

/-! ## When an instruction completes (40_execution_cycle.md R127, 60_exceptions.md R286)

An instruction completes exactly when its effective instruction does: that is no xct, has an effective address if it
runs a chain, is implemented, and, if it is law, is configured to execute. -/

namespace Sys2Proof.Machine

open Sys2Proof.Claims

/-- The instruction, no xct, completes with `a` as its effective address where it has one. -/
def CompletesAt (s : State) (j : Instr) (a : Addr) : Prop :=
  asXct j = none ∧ eaIs s j a ∧ neverCompletes j = false ∧ ((∃ n, j = .law n) → s.cfg.lawExec = .sext13)

theorem nextOf_of_chainOf_none {j : Instr} (h : chainOf j = none) (s : State) (a b : Addr) :
    nextOf s a j = nextOf s b j := by
  cases j <;> cases h
  all_goals rfl

/-- Two effective addresses of an instruction give one next state. -/
theorem nextOf_unique {j : Instr} {s : State} {a b : Addr} (ha : eaIs s j a) (hb : eaIs s j b) :
    nextOf s a j = nextOf s b j := by
  rcases hc : chainOf j with _ | ⟨i, y⟩
  · exact nextOf_of_chainOf_none hc s a b
  · simp only [eaIs, hc] at ha hb
    rw [Option.some.inj (ha.symm.trans hb)]

theorem exec_of_completesAt {j : Instr} {s : State} {a : Addr} (h : CompletesAt s j a) :
    exec j s = .next (nextOf s a j) := by
  obtain ⟨hx, ha, hn, hl⟩ := h
  rcases exec_plain_cases j s hx with ⟨i, y, hc, hnone, -⟩ | ⟨f, -, -, -, hstops | ⟨hlaw, hfault⟩, -⟩ | ⟨b, hb, -, -, e⟩
  · simp only [eaIs, hc, hnone] at ha
    cases ha
  · rw [hn] at hstops
    cases hstops
  · rw [hl hlaw] at hfault
    cases hfault
  · rw [e, nextOf_unique hb ha]

theorem completesAt_of_exec {j : Instr} {s t : State} (hx : asXct j = none) (h : exec j s = .next t) :
    ∃ a, CompletesAt s j a ∧ t = nextOf s a j := by
  rcases exec_plain_cases j s hx with ⟨_, _, -, -, e⟩ | ⟨_, e, -⟩ | ⟨a, ha, hn, hl, e⟩
  · rw [e] at h
    cases h
  · rw [e] at h
    cases h
  · rw [e] at h
    cases h
    exact ⟨a, ⟨hx, ha, hn, hl⟩, rfl⟩

/-- All that completing means, for every instruction. -/
theorem exec_next_iff {j : Instr} {s t : State} :
    exec j s = .next t ↔ ∃ a, CompletesAt s (effective j s) a ∧ t = nextOf s a (effective j s) := by
  rcases exec_effective j s with ⟨hx, e⟩ | ⟨he, i, y, f, hj, -, e⟩
  · rw [e]
    refine ⟨completesAt_of_exec hx, ?_⟩
    rintro ⟨a, ha, rfl⟩
    exact exec_of_completesAt ha
  · rw [e, he, hj]
    refine ⟨nofun, ?_⟩
    rintro ⟨a, ⟨hx, -⟩, -⟩
    cases hx

theorem completesPlain_iff (s : State) (j : Instr) : completesPlain s j = true ↔ ∃ a, CompletesAt s j a := by
  cases j
  all_goals simp [completesPlain, CompletesAt, asXct, eaIs, chainOf, neverCompletes, Option.isSome_iff_exists]

/-- Settles O45, constructor by constructor: `completesPlain` decides whether there is such an address. -/
theorem instructionsCompleteExactlyWhen : Obligations.InstructionsCompleteExactlyWhen := by
  intro j s
  simp only [completes, completesPlain_iff, exec_next_iff]
  constructor
  · rintro ⟨_, a, ha, -⟩
    exact ⟨a, ha⟩
  · rintro ⟨a, ha⟩
    exact ⟨_, a, ha, rfl⟩

end Sys2Proof.Machine

/-! ## Other memories that agree on the listed reads (20_memory.md R50)

Where a memory agrees with that of the state on the words of the access list, every chain takes the same links, the nest
ends at the same instruction, and the operand is the same. Only the memory of the next state is another. -/

namespace Sys2Proof.Machine

open Sys2Proof.Claims

/-- The state with another memory. -/
def State.withMem (s : State) (m : Memory) : State := { s with mem := m }

@[simp] theorem State.withMem_ac (s : State) (m : Memory) : (s.withMem m).ac = s.ac := rfl
@[simp] theorem State.withMem_io (s : State) (m : Memory) : (s.withMem m).io = s.io := rfl
@[simp] theorem State.withMem_pc (s : State) (m : Memory) : (s.withMem m).pc = s.pc := rfl
@[simp] theorem State.withMem_ov (s : State) (m : Memory) : (s.withMem m).ov = s.ov := rfl
@[simp] theorem State.withMem_pf (s : State) (m : Memory) : (s.withMem m).pf = s.pf := rfl
@[simp] theorem State.withMem_ss (s : State) (m : Memory) : (s.withMem m).ss = s.ss := rfl
@[simp] theorem State.withMem_ext (s : State) (m : Memory) : (s.withMem m).ext = s.ext := rfl
@[simp] theorem State.withMem_run (s : State) (m : Memory) : (s.withMem m).run = s.run := rfl
@[simp] theorem State.withMem_cfg (s : State) (m : Memory) : (s.withMem m).cfg = s.cfg := rfl
@[simp] theorem State.withMem_mem (s : State) (m : Memory) : (s.withMem m).mem = m := rfl
@[simp] theorem State.withMem_retval (s : State) (m : Memory) : (s.withMem m).retval = s.retval := rfl
@[simp] theorem skipCondition_withMem (c : Conds) (k f : BitVec 3) (s : State) (m : Memory) :
    skipCondition c k f (s.withMem m) = skipCondition c k f s := rfl

/-- The memory agrees with the state's on every read of the list. -/
def AgreesOn (s : State) (m : Memory) (l : List Access) : Prop := ∀ a, .read a ∈ l → m.read a.toNat = s.mem.read a.toNat

theorem AgreesOn.mono {s : State} {m : Memory} {l l' : List Access} (h : AgreesOn s m l) (hl : l' ⊆ l) :
    AgreesOn s m l' :=
  fun a ha => h a (hl ha)

theorem chainSource_congr {m m' : Memory} {n : Nat} {y : Addr}
    (h : ∀ a ∈ chainReads m n y, m'.read a.toNat = m.read a.toNat) : chainSource m' n y = chainSource m n y := by
  induction n generalizing y with
  | zero => rfl
  | succ n ih =>
    have hy := h y (by simp [chainReads])
    simp only [chainSource, hy]
    split
    next hlink => exact ih fun a ha => h a (by simp [chainReads, hlink, ha])
    next => rfl

theorem chainPdp1_congr {m m' : Memory} {n : Nat} {y : Addr}
    (h : ∀ a ∈ chainReads m n y, m'.read a.toNat = m.read a.toNat) : chainPdp1 m' n y = chainPdp1 m n y := by
  induction n generalizing y with
  | zero => rfl
  | succ n ih =>
    have hy := h y (by simp [chainReads])
    simp only [chainPdp1, hy]
    split
    next hlink => exact ih fun a ha => h a (by simp [chainReads, hlink, ha])
    next => rfl

theorem ea_withMem {s : State} {m : Memory} {i : Bool} {y : Addr} {f : Addr → List Access}
    (h : AgreesOn s m (eaAccesses s i y f)) : (s.withMem m).ea i y = s.ea i y := by
  cases i
  · rfl
  have hchain : ∀ a ∈ chainReads s.mem chainBound y, m.read a.toNat = s.mem.read a.toNat :=
    fun a ha => h a (by simp [eaAccesses, ha])
  simp only [ea_indirect, State.withMem, chainSource_congr hchain, chainPdp1_congr hchain]

theorem memRead_withMem {s : State} {m : Memory} {i : Bool} {y a : Addr} {f : Addr → List Access}
    (h : AgreesOn s m (eaAccesses s i y f)) (hea : s.ea i y = some a) (hf : .read a ∈ f a) :
    (s.withMem m).memRead a = s.memRead a := h a (mem_eaAccesses_of_ea hea hf)

theorem xctNest_withMem {s : State} {m : Memory} {n : Nat} {i : Bool} {y : Addr}
    (h : AgreesOn s m (nestAccesses s n i y)) : xctNest (s.withMem m) n i y = xctNest s n i y := by
  induction n generalizing i y with
  | zero => rfl
  | succ n ih =>
    rw [nestAccesses] at h
    have hea' := ea_withMem h
    rcases hea : s.ea i y with _ | a
    · rw [xctNest_hang hea, xctNest_hang (hea'.trans hea)]
    have hread := memRead_withMem h hea (List.mem_cons_self ..)
    rcases hx : asXct (decode (s.memRead a)) with _ | ⟨i', y'⟩
    · rw [xctNest_found hea hx, xctNest_found (hea'.trans hea) (by rw [hread, hx]), hread]
    · rw [xctNest_deeper hea hx, xctNest_deeper (hea'.trans hea) (by rw [hread, hx])]
      refine ih (h.mono fun x hmem => mem_eaAccesses_of_ea hea (List.mem_cons_of_mem _ ?_))
      rw [hx]
      exact hmem

theorem effective_withMem {s : State} {m : Memory} {j : Instr} (h : AgreesOn s m (accesses j s)) :
    effective j (s.withMem m) = effective j s := by
  rcases hx : asXct j with _ | ⟨i, y⟩
  · simp [effective, hx]
  · simp only [accesses, hx] at h
    simp only [effective, hx, xctNest_withMem h]

theorem eaIs_withMem {s : State} {m : Memory} {j : Instr} {a : Addr} (h : AgreesOn s m (plainAccesses j s))
    (ha : eaIs s j a) : eaIs (s.withMem m) j a := by
  rcases hchain : chainOf j with _ | ⟨i, y⟩
  · simp only [eaIs, hchain]
  · cases j <;> cases hchain
    all_goals exact (ea_withMem h).trans ha

/-- The instructions that read a word at their effective address. -/
def readsOperand : Instr → Bool
  | .add _ _ | .sub _ _ | .and _ _ | .xor _ _ | .ior _ _ | .lac _ _ | .lio _ _ | .sad _ _ | .sas _ _ | .idx _ _
  | .isp _ _ | .dap _ _ | .dip _ _ => true
  | _ => false

theorem operand_withMem {s : State} {m : Memory} {j : Instr} {a : Addr} (hr : readsOperand j = true) (ha : eaIs s j a)
    (h : AgreesOn s m (plainAccesses j s)) : (s.withMem m).memRead a = s.memRead a := by
  cases j <;> cases hr
  all_goals exact h a (mem_eaAccesses_of_ea ha (by simp))

/-- The next state holds the same registers: what it takes from memory it takes from the listed operand. -/
theorem nextOf_withMem {s : State} {m : Memory} {j : Instr} {a : Addr} (ha : eaIs s j a)
    (h : AgreesOn s m (plainAccesses j s)) :
    nextOf (s.withMem m) a j = (nextOf s a j).withMem (nextOf (s.withMem m) a j).mem := by
  cases hr : readsOperand j
  case true =>
    have hop := operand_withMem hr ha h
    cases j <;> cases hr
    all_goals apply State.ext_fields <;> simp [nextOf, hop]
  case false =>
    cases j <;> cases hr
    all_goals apply State.ext_fields <;> simp [nextOf]

theorem storeCell_withMem (s : State) (m : Memory) (a : Addr) (j : Instr) :
    storeCell (s.withMem m) a j = storeCell s a j := by
  cases j
  all_goals rfl

theorem storeValue_withMem {s : State} {m : Memory} {j : Instr} {a : Addr} (ha : eaIs s j a)
    (h : AgreesOn s m (plainAccesses j s)) : storeValue (s.withMem m) a j = storeValue s a j := by
  cases hr : readsOperand j
  case true =>
    have hop := operand_withMem hr ha h
    cases j <;> cases hr
    all_goals simp [storeValue, hop]
  case false =>
    cases j <;> cases hr
    all_goals rfl

/-- A write of the list is one of the executed instruction's. -/
theorem write_mem_plainAccesses {s : State} {n : Nat} {i : Bool} {y b : Addr} {j : Instr}
    (hn : xctNest s n i y = .target j) (h : .write b ∈ nestAccesses s n i y) : .write b ∈ plainAccesses j s := by
  induction n generalizing i y with
  | zero => cases hn
  | succ n ih =>
    rw [nestAccesses] at h
    obtain ⟨a, hea, hb⟩ := mem_eaAccesses_write h
    have hb := (List.mem_cons.1 hb).resolve_left nofun
    rcases hx : asXct (decode (s.memRead a)) with _ | ⟨i', y'⟩
    · rw [xctNest_found hea hx] at hn
      cases hn
      simpa only [hx] using hb
    · rw [xctNest_deeper hea hx] at hn
      exact ih hn (by simpa only [hx] using hb)

theorem write_mem_effective {j : Instr} {s : State} {b : Addr} (hx : asXct (effective j s) = none)
    (h : .write b ∈ accesses j s) : .write b ∈ plainAccesses (effective j s) s := by
  rcases hj : asXct j with _ | ⟨i, y⟩
  · simpa only [effective, accesses, hj] using h
  · rcases hn : xctNest s xctBound i y with k | f
    · simp only [accesses, hj] at h
      simpa only [effective, hj, hn] using write_mem_plainAccesses hn h
    · simp [effective, hj, hn] at hx

/-- Settles O18: with a memory that agrees on the listed reads the same instruction runs at the same address, and stores
the same word. -/
theorem onlyListedReadsMatter : Obligations.OnlyListedReadsMatter := by
  intro j s t m ht hm
  obtain ⟨a, hc, rfl⟩ := exec_next_iff.1 ht
  obtain ⟨hx, ha, hn, hl⟩ := hc
  have hall : AgreesOn s m (accesses j s) := hm
  have hplain := hall.mono (plainAccesses_effective_subset hx)
  have heff := effective_withMem hall
  have hnext := nextOf_withMem ha hplain
  have hexec : exec j (s.withMem m) = .next (nextOf (s.withMem m) a (effective j s)) :=
    exec_next_iff.2 ⟨a, heff.symm ▸ ⟨hx, eaIs_withMem hplain ha, hn, hl⟩, heff.symm ▸ rfl⟩
  refine ⟨_, hexec, ?_, ?_, ?_, ?_, ?_, ?_, fun b hb => ?_⟩
  case refine_7 =>
    obtain ⟨hs, rfl⟩ := eq_storeCell_of_write_mem ha (write_mem_effective hx hb)
    rw [nextOf_mem_of_stores hs, nextOf_mem_of_stores hs, storeCell_withMem, storeValue_withMem ha hplain,
      Memory.read_write_same, Memory.read_write_same]
  all_goals
    rw [hnext]
    rfl

end Sys2Proof.Machine

/-! ## The cycle: fetch, outcomes and faults (40_execution_cycle.md R120 to R123, 60_exceptions.md R287) -/

namespace Sys2Proof.Machine

open Sys2Proof.Claims

theorem fetch_of_lt {s : State} (h : s.pc.toNat < s.cfg.memSize.words) : s.fetch = some (s.mem.read s.pc.toNat) :=
  if_pos h

theorem fetch_of_ge {s : State} (h : s.cfg.memSize.words ≤ s.pc.toNat) : s.fetch = none := if_neg (Nat.not_lt.2 h)

theorem words_ge (z : MemSize) : 4096 ≤ z.words := by
  cases z
  all_goals decide

/-- Settles O6, from the fetch below S and the value of the advanced PC. -/
theorem stepExecutesTheFetchedWord : Obligations.StepExecutesTheFetchedWord := by
  intro s hr hpc
  rw [step_running hr (fetch_of_lt hpc), State.advance_eq]

/-- Settles O8: below `2^12` the PC is inside every size of memory. -/
theorem fetchOutsideMemoryFaults : Obligations.FetchOutsideMemoryFaults := by
  refine ⟨fun s hr hpc => ?_, fun s hs hext => ?_⟩
  · simp [step, hr, fetch_of_ge hpc]
  · obtain ⟨-, -, hpc⟩ := s.inv_iff.1 hs
    exact (hpc.resolve_left (by simp [hext])).trans_le (words_ge _)

theorem fetchAddr_lt (s : State) : s.fetchAddr.toNat < s.size := by
  unfold State.fetchAddr
  split
  next h => exact h
  next => exact Nat.lt_of_lt_of_le (by decide) (words_ge _)

theorem fetch_placeWord (s : State) (w : Word) : (s.placeWord w).fetch = some w := by
  rw [fetch_of_lt (fetchAddr_lt s), State.placeWord_mem, State.placeWord_pc, Memory.read_write_same]

/-- Settles O9: the placed word is the one at the PC, which is inside memory. -/
theorem placedWordRunsNext : Obligations.PlacedWordRunsNext :=
  fun s _ w => step_running (State.placeWord_run s _) (fetch_placeWord s (BitVec.ofNat 18 w))

theorem isHang_iff (f : Fault) : f.isHang = true ↔ f = .hangIndirectCycle ∨ f = .hangXctCycle := by
  cases f
  all_goals simp [Fault.isHang]

theorem stepEnd_of_next {s t : State} (hr : s.run = .running) (h : step s = .next t) :
    stepEnd s = some .continued := by simp [stepEnd, hr, h]

theorem stepEnd_of_fault {s : State} {f : Fault} (hr : s.run = .running) (h : step s = .fault f) :
    stepEnd s = some (if f.isHang then .hang else .fault) := by simp [stepEnd, hr, h]

/-- Settles O10, by what a step in each of Halted and Running answers. -/
theorem everyStepHasAnOutcome : Obligations.EveryStepHasAnOutcome := by
  intro s
  refine ⟨step_ne_refused s, ?_⟩
  cases hr : s.run with
  | halted => simp [stepEnd_halted hr]
  | running =>
    cases h : step s with
    | next t => simp [stepEnd_of_next hr h]
    | fault f =>
      rw [stepEnd_of_fault hr h]
      cases hf : f.isHang
      · have hne := mt (isHang_iff f).2 (by simp [hf])
        simpa using hne
      · simpa using (isHang_iff f).1 hf
    | refused r => exact absurd h (step_ne_refused s r)

/-- Settles O11: the fetch fault leaves the state itself, any other fault the advanced state it was raised in. -/
theorem faultsArePrecise : Obligations.FaultsArePrecise := by
  intro s f h
  rcases step_cases s with ⟨-, e⟩ | ⟨-, -, e⟩ | ⟨w, -, -, e⟩ <;> rw [e] at h
  · cases h
  · cases h
    exact .inr (.inl rfl)
  · rcases exec_fault h with hhang | ⟨-, hleft⟩
    · exact .inl hhang
    · exact .inr (.inr (hleft.trans (by rw [State.advance_eq])))

/-- Settles O21: the deposit is at the PC's address, so the next fetch answers it. -/
theorem depositedInstructionRunsNext : Obligations.DepositedInstructionRunsNext := by
  intro s t i y a hr hea hpc ht
  have hdac : exec (.dac i y) s = .next (s.memWrite a s.ac) := exec_of_ea rfl rfl hea
  obtain rfl : s.memWrite a s.ac = t := Host.Outcome.next.inj (hdac.symm.trans ht)
  rw [step_running (s := s.memWrite a s.ac) hr (fetch_memWrite_same s.ac hpc), State.advance_eq]
  rfl

end Sys2Proof.Machine

/-! ## Core memory as data, and the launch (20_memory.md R46, R61, 10_state.md R36) -/

namespace Sys2Proof.Machine

/-- Below every listed address a memory reads as the unlisted word. -/
theorem read_of_forall_lt {m : Memory} {a : Nat} (h : ∀ c ∈ m, a < c.1) : m.read a = Memory.unlisted := by
  induction m with
  | nil => rfl
  | cons c r ih =>
    obtain ⟨k, v⟩ := c
    have hk : a < k := h (k, v) (List.mem_cons_self ..)
    rw [Memory.read, if_neg hk.ne']
    exact ih fun c hc => h c (List.mem_cons_of_mem _ hc)

/-- The first address of a canonical memory is listed, so another memory of the same words lists none above it alone. -/
theorem first_not_lt {k : Nat} {v : Word} {r m : Memory} (h : Memory.wf ((k, v) :: r) = true)
    (heq : Memory.read ((k, v) :: r) k = m.read k) : ¬∀ c ∈ m, k < c.1 := by
  obtain ⟨hv, -, -⟩ := (Memory.wf_cons k v r).1 h
  intro hlt
  rw [read_of_forall_lt hlt, Memory.read, if_pos rfl] at heq
  exact hv heq

theorem first_le {k k' : Nat} {v v' : Word} {r r' : Memory} (h : Memory.wf ((k, v) :: r) = true)
    (h' : Memory.wf ((k', v') :: r') = true) (heq : Memory.read ((k, v) :: r) k = Memory.read ((k', v') :: r') k) :
    k' ≤ k := by
  obtain ⟨-, hlt', -⟩ := (Memory.wf_cons k' v' r').1 h'
  by_contra hkk
  refine first_not_lt h heq fun c hc => ?_
  rcases List.mem_cons.1 hc with rfl | hc
  · exact Nat.lt_of_not_le hkk
  · exact (Nat.lt_of_not_le hkk).trans (hlt' c hc)

/-- Settles O20, along both lists: the smaller of two first addresses would be listed in one memory alone. -/
theorem equalWordsAreEqualMemories : Obligations.EqualWordsAreEqualMemories := by
  intro m m' hm hm' heq
  induction m generalizing m' with
  | nil =>
    cases m' with
    | nil => rfl
    | cons c' r' => exact absurd nofun (first_not_lt hm' (heq c'.1).symm)
  | cons c r ih =>
    obtain ⟨k, v⟩ := c
    obtain ⟨-, hlt, hr⟩ := (Memory.wf_cons k v r).1 hm
    cases m' with
    | nil => exact absurd nofun (first_not_lt hm (heq k))
    | cons c' r' =>
      obtain ⟨k', v'⟩ := c'
      obtain ⟨-, hlt', hr'⟩ := (Memory.wf_cons k' v' r').1 hm'
      obtain rfl : k = k' := (first_le hm' hm (heq k').symm).antisymm (first_le hm hm' (heq k))
      have hv : v = v' := by simpa [Memory.read] using heq k
      have hrest : r = r' := by
        refine ih r' hr hr' fun a => ?_
        by_cases ha : k = a
        · subst ha
          rw [read_of_forall_lt hlt, read_of_forall_lt hlt']
        · simpa [Memory.read, ha] using heq a
      rw [hv, hrest]

/-- The words at launch are no more than S. -/
theorem image_length_le {l : Launch} (h : l.tape.length ≤ l.cfg.memSize.words) :
    l.image.length ≤ l.cfg.memSize.words := by
  rw [Launch.image, List.length_append, List.length_take]
  omega

theorem read_image (l : Launch) (a : Nat) :
    (Memory.ofWords 0 l.image).read a = l.image.getD a Memory.unlisted := by
  rw [Memory.read_ofWords, if_pos (Nat.zero_le a), Nat.sub_zero]

theorem image_tape {l : Launch} {k : Nat} (h : k < l.tape.length) : l.image.getD k Memory.unlisted = l.tape[k] := by
  simp [Launch.image, List.getD_eq_getElem?_getD, List.getElem?_append_left, h]

theorem image_lMem {l : Launch} {k : Nat} (h : k < l.cfg.memSize.words - l.tape.length) :
    l.image.getD (l.tape.length + k) Memory.unlisted = (l.lMem[k]?).getD Memory.unlisted := by
  simp [Launch.image, List.getD_eq_getElem?_getD, List.getElem?_append_right, h]

theorem inv_launch {l : Launch} {s : State} (hs : l.start = some s) : s.inv = true := by
  unfold Launch.start at hs
  split at hs
  · next hlen =>
    cases hs
    obtain ⟨hwf, hwithin⟩ := Memory.wf_ofWords l.image 0
    have hsize := image_length_le hlen
    refine (State.inv_iff _).2 ⟨hwf, List.all_eq_true.2 fun c hc => decide_eq_true ?_, .inr (by simp)⟩
    have hlt := (hwithin c hc).2
    exact (hlt.trans_le (Nat.zero_add _).le).trans_le hsize
  · cases hs

/-- Settles O13, by evaluating the invariant and the launch at the reference inputs. -/
theorem resetIsLegal : Obligations.ResetIsLegal := ⟨rfl, rfl⟩

/-- Settles O14, from the words of the image: the tape's, then those of `L_MEM`. -/
theorem launchHoldsItsInputs : Obligations.LaunchHoldsItsInputs := by
  intro l
  refine ⟨by simp [Launch.start], fun s hs => ⟨inv_launch hs, ?_⟩⟩
  unfold Launch.start at hs
  split at hs
  · cases hs
    refine ⟨rfl, rfl, rfl, rfl, rfl, rfl, rfl, rfl, rfl, fun k h => ?_, fun k h => ?_⟩
    · exact (read_image l k).trans (image_tape h)
    · exact (read_image l _).trans (image_lMem h)
  · cases hs

end Sys2Proof.Machine

/-! ## The ends of a run (70_reset_and_hazards.md R316)

A run that has halted or stopped answers the same however many steps more it is given. So two ends of one run are one,
and a run that never ends is one that is Running after every number of steps. -/

namespace Sys2Proof.Machine

/-- The answer of a run that is over: a halted state, or a fault. -/
def IsEnd : Result → Prop
  | .next t => t.run = .halted
  | .fault _ => True
  | .refused _ => False

theorem runFor_add_of_isEnd {s : State} {n : Nat} (h : IsEnd (runFor n s)) (k : Nat) :
    runFor (n + k) s = runFor n s := by
  rw [runFor_add]
  cases hn : runFor n s with
  | next t =>
    rw [hn] at h
    exact runFor_halted h k
  | fault f => rfl
  | refused r => rfl

/-- The run ends with this answer. -/
def Ends (s : State) (r : Result) : Prop := ∃ n, runFor n s = r ∧ IsEnd r

theorem Ends.unique {s : State} {r r' : Result} (h : Ends s r) (h' : Ends s r') : r = r' := by
  obtain ⟨n, rfl, hn⟩ := h
  obtain ⟨m, rfl, hm⟩ := h'
  rw [← runFor_add_of_isEnd hn m, Nat.add_comm, runFor_add_of_isEnd hm n]

theorem Ends.not_diverges {s : State} {r : Result} (h : Ends s r) : ¬Diverges s := by
  obtain ⟨n, rfl, hn⟩ := h
  intro hd
  obtain ⟨t, ht, hrun⟩ := hd n
  rw [ht] at hn
  exact absurd (hrun.symm.trans hn) nofun

theorem ends_of_haltsIn {s t : State} (h : HaltsIn s t) : Ends s (.next t) := h

theorem ends_of_faultsWith {s : State} {f : Fault} (h : FaultsWith s f) : Ends s (.fault f) :=
  h.imp fun _ hn => ⟨hn.1, trivial⟩

theorem ends_of_hangsWith {s : State} {f : Fault} (h : HangsWith s f) : Ends s (.fault f) :=
  h.imp fun _ hn => ⟨hn.1, trivial⟩

theorem runFor_ne_refused (n : Nat) (s : State) (r : Refusal) : runFor n s ≠ .refused r := by
  induction n generalizing s with
  | zero => exact nofun
  | succ n ih =>
    rw [runFor_succ]
    cases h : step s with
    | next t => exact ih t
    | fault f => exact nofun
    | refused r' => exact absurd h (step_ne_refused s r')

/-- A run that is not Running after some number of steps has come to an end of one of the three kinds. -/
theorem halts_faults_hangs_or_diverges (s : State) :
    (∃ t, HaltsIn s t) ∨ (∃ f, FaultsWith s f) ∨ (∃ f, HangsWith s f) ∨ Diverges s := by
  by_cases hd : Diverges s
  · exact .inr (.inr (.inr hd))
  simp only [Diverges, not_forall, not_exists, not_and] at hd
  obtain ⟨n, hn⟩ := hd
  cases hr : runFor n s with
  | next t =>
    cases ht : t.run with
    | halted => exact .inl ⟨t, n, hr, ht⟩
    | running => exact absurd ht (hn t hr)
  | fault f =>
    cases hf : f.isHang
    · exact .inr (.inl ⟨f, n, hr, hf⟩)
    · exact .inr (.inr (.inl ⟨f, n, hr, hf⟩))
  | refused r => exact absurd hr (runFor_ne_refused n s r)

/-- No fault is both a hang and none. -/
theorem not_faultsWith_and_hangsWith {s : State} {f g : Fault} (hf : FaultsWith s f) (hg : HangsWith s g) : False := by
  obtain rfl : f = g := Host.Outcome.fault.inj ((ends_of_faultsWith hf).unique (ends_of_hangsWith hg))
  obtain ⟨_, -, hno⟩ := hf
  obtain ⟨_, -, hyes⟩ := hg
  exact absurd (hno.symm.trans hyes) nofun

/-- Settles O22: a run that does not diverge reaches an end, and two ends of one run are one answer. -/
theorem everyRunHasOneEnd : Obligations.EveryRunHasOneEnd := by
  intro s
  refine ⟨halts_faults_hangs_or_diverges s, ?_, ?_, ?_, ?_, ?_, ?_, fun t u ht hu => ?_⟩
  · rintro ⟨⟨t, ht⟩, f, hf⟩
    cases (ends_of_haltsIn ht).unique (ends_of_faultsWith hf)
  · rintro ⟨⟨t, ht⟩, f, hf⟩
    cases (ends_of_haltsIn ht).unique (ends_of_hangsWith hf)
  · rintro ⟨⟨t, ht⟩, hd⟩
    exact (ends_of_haltsIn ht).not_diverges hd
  · rintro ⟨⟨f, hf⟩, g, hg⟩
    exact not_faultsWith_and_hangsWith hf hg
  · rintro ⟨⟨f, hf⟩, hd⟩
    exact (ends_of_faultsWith hf).not_diverges hd
  · rintro ⟨⟨f, hf⟩, hd⟩
    exact (ends_of_hangsWith hf).not_diverges hd
  · exact Host.Outcome.next.inj ((ends_of_haltsIn ht).unique (ends_of_haltsIn hu))

end Sys2Proof.Machine

/-! ## The exactness of addition (41_alu.md R141 to R149)

The raw sum is the operands' sum with its carry re-entering, so as an integer it differs from the true sum by 0 or by
262143, the distance from one end of the range round to the other. Which of the two, the true sum's range decides. -/

namespace Sys2Proof.Machine

theorem val_normalise (v : Word) : val (normalise v) = val v := by
  unfold normalise
  split
  next h => rw [h]; rfl
  next => rfl

/-- The raw sum as an integer: the true sum, brought back into the range from above or from below. -/
theorem val_ocAddRaw (a b : Word) :
    val (ocAddRaw a b) =
      if 131071 < val a + val b then val a + val b - 262143
      else if val a + val b < -131071 then val a + val b + 262143 else val a + val b := by
  have ha := a.isLt
  have hb := b.isLt
  have hraw := toNat_ocAddRaw a b
  rw [val_eq_toNat_or_sub a, val_eq_toNat_or_sub b, val_eq_toNat_or_sub (ocAddRaw a b)]
  split_ifs <;> omega

/-- R143: operands of one sign and a raw sum of the other are the sums out of range. -/
theorem ocAdd_overflow_iff (a b : Word) : (ocAdd a b).2 = true ↔ 131071 < (val a + val b).natAbs := by
  have ha := a.isLt
  have hb := b.isLt
  have hraw := toNat_ocAddRaw a b
  have hovf : (ocAdd a b).2 = true ↔ (131072 ≤ a.toNat ↔ 131072 ≤ b.toNat) ∧
      ¬(131072 ≤ (ocAddRaw a b).toNat ↔ 131072 ≤ a.toNat) := by
    simp [ocAdd, ovf, sign_eq_decide_le_toNat]
  rw [hovf, val_eq_toNat_or_sub a, val_eq_toNat_or_sub b]
  split_ifs <;> omega

theorem val_ocAdd (a b : Word) : val (ocAdd a b).1 = val (ocAddRaw a b) := val_normalise _

theorem ocAdd_ne_negative_zero (a b : Word) : (ocAdd a b).1 ≠ 0o777777 := normalise_ne_negative_zero _

/-- Of the two words of value 0 one is +0. -/
theorem eq_zero_of_val_eq_zero {w : Word} (h : val w = 0) (hne : w ≠ 0o777777) : w = 0 := by
  have hw := w.isLt
  have hne : w.toNat ≠ 262143 := fun hn => hne (BitVec.eq_of_toNat_eq hn)
  apply BitVec.eq_of_toNat_eq
  rw [val_eq_toNat_or_sub] at h
  split at h <;> simp <;> omega

/-- Settles O25, from the value of the raw sum, which normalisation keeps, and the range of sums that overflow. -/
theorem additionIsExact : Obligations.AdditionIsExact := by
  intro a b
  have hov := ocAdd_overflow_iff a b
  have hval := (val_ocAdd a b).trans (val_ocAddRaw a b)
  refine ⟨hov, fun hno => ?_, fun hyes hpos => ?_, fun hyes hneg => ?_, ocAdd_ne_negative_zero a b, fun h0 => ?_⟩
  · have hin := mt hov.2 (Bool.eq_false_iff.1 hno)
    rw [hval, if_neg (by omega), if_neg (by omega)]
  · have hout := hov.1 hyes
    rw [hval, if_pos (by omega)]
  · have hout := hov.1 hyes
    rw [hval, if_neg (by omega), if_pos (by omega)]
  · refine Prod.ext ?_ ?_
    · exact eq_zero_of_val_eq_zero (by rw [hval, h0]; decide) (ocAdd_ne_negative_zero a b)
    · exact Bool.eq_false_iff.2 (mt hov.1 (by omega))

/-- Settles O26: subtraction adds the complement, whose value is the negated one. -/
theorem subtractionIsExact : Obligations.SubtractionIsExact := by
  intro a b
  simpa only [ocSub, sub_eq_add_neg, val_complement] using additionIsExact a (~~~b)

/-- Settles O27, from the value of the raw sum with 1. -/
theorem incrementAddsOne : Obligations.IncrementAddsOne := by
  intro a
  have hval : val (ocInc a) = val (ocAddRaw a 1) := val_normalise _
  have hone : val 1 = 1 := rfl
  have hlo := (val_bounds a).1
  refine ⟨fun hlt => ?_, fun heq => ?_, normalise_ne_negative_zero _⟩
  · rw [hval, val_ocAddRaw, hone, if_neg (by omega), if_neg (by omega)]
  · have ha := a.isLt
    have hmax : a = 0o377777 := by
      apply BitVec.eq_of_toNat_eq
      rw [val_eq_toNat_or_sub] at heq
      split at heq <;> simp <;> omega
    rw [hmax]
    rfl

end Sys2Proof.Machine

/-! ## The arithmetic shifts as division and multiplication (41_alu.md R155, R156, R160)

One place right halves the magnitude and one place left doubles a value whose magnitude fits; both keep the half of the
range, which is the sign. The shifts by a count are inductions over it. -/

namespace Sys2Proof.Machine

theorem toNat_sign_bit (a : Word) : (a.extractLsb' 17 1).toNat = a.toNat / 131072 := by
  have ha := a.isLt
  rw [BitVec.extractLsb'_toNat, Nat.shiftRight_eq_div_pow]
  omega

theorem toNat_sar1 (a : Word) :
    (sar1 a).toNat = a.toNat / 131072 * 196608 + a.toNat / 2 % 65536 := by
  rw [sar1, toNat_concat, toNat_concat, toNat_sign_bit, BitVec.extractLsb'_toNat, Nat.shiftRight_eq_div_pow]
  omega

theorem toNat_sal1 (a : Word) :
    (sal1 a).toNat = a.toNat / 131072 * 131073 + a.toNat % 65536 * 2 := by
  rw [sal1, toNat_concat, toNat_concat, toNat_sign_bit, BitVec.extractLsb'_toNat, Nat.shiftRight_zero]
  omega

theorem sign_sar1 (a : Word) : sign (sar1 a) = sign a := by
  have ha := a.isLt
  rw [sign_eq_decide_le_toNat, sign_eq_decide_le_toNat, toNat_sar1, decide_eq_decide]
  omega

theorem sign_sal1 (a : Word) : sign (sal1 a) = sign a := by
  have ha := a.isLt
  rw [sign_eq_decide_le_toNat, sign_eq_decide_le_toNat, toNat_sal1, decide_eq_decide]
  omega

theorem natAbs_val_sar1 (a : Word) : (val (sar1 a)).natAbs = (val a).natAbs / 2 := by
  have ha := a.isLt
  rw [val_eq_toNat_or_sub, val_eq_toNat_or_sub, toNat_sar1]
  split_ifs <;> omega

theorem val_sal1 {a : Word} (h : (val a).natAbs < 2 ^ 16) : val (sal1 a) = val a * 2 := by
  have ha := a.isLt
  rw [val_eq_toNat_or_sub] at h
  rw [val_eq_toNat_or_sub, val_eq_toNat_or_sub, toNat_sal1]
  split_ifs at h ⊢ <;> omega

theorem sign_sar (a : Word) (n : Nat) : sign (sar a n) = sign a := by
  induction n generalizing a with
  | zero => rfl
  | succ n ih => exact (ih (sar1 a)).trans (sign_sar1 a)

theorem sign_sal (a : Word) (n : Nat) : sign (sal a n) = sign a := by
  induction n generalizing a with
  | zero => rfl
  | succ n ih => exact (ih (sal1 a)).trans (sign_sal1 a)

theorem natAbs_val_sar (a : Word) (n : Nat) : (val (sar a n)).natAbs = (val a).natAbs / 2 ^ n := by
  induction n generalizing a with
  | zero => exact (Nat.div_one _).symm
  | succ n ih =>
    calc (val (sar a (n + 1))).natAbs
      _ = (val (sar1 a)).natAbs / 2 ^ n := ih (sar1 a)
      _ = (val a).natAbs / 2 ^ (n + 1) := by rw [natAbs_val_sar1, Nat.div_div_eq_div_mul, Nat.pow_succ']

theorem val_sal {a : Word} {n : Nat} (hn : n ≤ 17) (h : (val a).natAbs < 2 ^ (17 - n)) :
    val (sal a n) = val a * 2 ^ n := by
  induction n generalizing a with
  | zero => exact (Int.mul_one _).symm
  | succ n ih =>
    have hfit : (val a).natAbs < 2 ^ 16 := h.trans_le (Nat.pow_le_pow_right (by decide) (by omega))
    have hsal := val_sal1 hfit
    have hnext : (val (sal1 a)).natAbs < 2 ^ (17 - n) := by
      rw [hsal, Int.natAbs_mul, show 17 - n = 17 - (n + 1) + 1 by omega, Nat.pow_succ]
      exact Nat.mul_lt_mul_of_pos_right h (by decide)
    calc val (sal a (n + 1))
      _ = val (sal1 a) * 2 ^ n := ih (by omega) hnext
      _ = val a * 2 ^ (n + 1) := by rw [hsal, Int.mul_assoc, Int.pow_succ']

/-- Settles O29, by induction on the count from what one place does to the value. -/
theorem shiftsDivideAndMultiply : Obligations.ShiftsDivideAndMultiply :=
  fun a n hn => ⟨sign_sar a n, natAbs_val_sar a n, sign_sal a n, val_sal (hn.trans (by decide))⟩

end Sys2Proof.Machine

/-! ## The indirect chain and the nest of xct, decided exactly (40_execution_cycle.md R124 to R126, 44_memref_control.md
R200, R201)

Both are walks along a function: the first runs through addresses, the second through the operands of xct. A walk
through more places than there are has come back to one, so it never leaves; this is why the bounds of the model cut no
walk that ends. -/

namespace Sys2Proof.Machine

open Sys2Proof.Claims

/-- A walk among at most `N` places, which the code `c` numbers, is at each of its places within `N` steps. -/
theorem exists_lt_iterate_eq {α : Type} {c : α → Nat} {N : Nat} (hc : Function.Injective c) (hN : ∀ a, c a < N)
    (f : α → α) (x : α) (n : Nat) : ∃ k < N, f^[k] x = f^[n] x := by
  induction n using Nat.strong_induction_on with
  | _ n ih =>
    by_cases hn : n < N
    · exact ⟨n, hn, rfl⟩
    obtain ⟨i, hi, j, hj, hne, heq⟩ := Finset.exists_ne_map_eq_of_card_lt_of_maps_to
      (s := Finset.range (N + 1)) (t := Finset.range N) (f := fun k => c (f^[k] x)) (by simp)
      (fun k _ => by simpa using hN (f^[k] x))
    wlog hij : i < j generalizing i j
    · exact this j hj i hi hne.symm heq.symm (by omega)
    have hjn : j ≤ n := by
      rw [Finset.mem_range] at hj
      omega
    obtain ⟨k, hk, hkeq⟩ := ih (n - j + i) (by omega)
    refine ⟨k, hk, hkeq.trans ?_⟩
    calc f^[n - j + i] x
      _ = f^[n - j] (f^[i] x) := Function.iterate_add_apply ..
      _ = f^[n - j] (f^[j] x) := by rw [hc heq]
      _ = f^[n] x := by rw [← Function.iterate_add_apply, Nat.sub_add_cancel hjn]

/-- The address a link leads to. -/
def follow (m : Memory) (a : Addr) : Addr := low12 (m.read a.toNat)

theorem ofNat_toNat_eq_low12 (w : Word) : BitVec.ofNat 12 w.toNat = low12 w := by
  apply BitVec.eq_of_toNat_eq
  rw [low12_toNat, BitVec.toNat_ofNat]

theorem link_succ (m : Memory) (n : Nat) (a : Addr) : link m (n + 1) a = link m n (follow m a) := by
  rw [link, ofNat_toNat_eq_low12, follow]

theorem link_eq_iterate (m : Memory) (n : Nat) (a : Addr) : link m n a = (follow m)^[n] a := by
  induction n generalizing a with
  | zero => rfl
  | succ n ih => rw [link_succ, ih, Function.iterate_succ_apply]

/-- Whatever the chain meets it meets within the bound. -/
theorem exists_lt_chainBound (m : Memory) (n : Nat) (y : Addr) : ∃ k < chainBound, link m k y = link m n y := by
  simp only [link_eq_iterate]
  exact exists_lt_iterate_eq (c := BitVec.toNat) (fun _ _ => BitVec.eq_of_toNat_eq) (fun a => a.isLt) (follow m) y n

theorem chainSource_of_linked {m : Memory} {y : Addr} (h : linked m y) (N : Nat) :
    chainSource m (N + 1) y = chainSource m N (follow m y) := if_pos h

theorem chainSource_of_not_linked {m : Memory} {y : Addr} (h : ¬linked m y) (N : Nat) :
    chainSource m (N + 1) y = some y := if_neg h

theorem chainPdp1_of_linked {m : Memory} {y : Addr} (h : linked m y) (N : Nat) :
    chainPdp1 m (N + 1) y = chainPdp1 m N (follow m y) := if_pos h

theorem chainPdp1_of_not_linked {m : Memory} {y : Addr} (h : ¬linked m y) (N : Nat) :
    chainPdp1 m (N + 1) y = some (follow m y) := if_neg h

/-- The first word without the link bit decides the chain of either setting. -/
theorem chain_of_first {m : Memory} {n N : Nat} {y : Addr} (hN : n < N) (hbefore : ∀ k < n, linked m (link m k y))
    (hn : ¬linked m (link m n y)) :
    chainSource m N y = some (link m n y) ∧ chainPdp1 m N y = some (link m (n + 1) y) := by
  induction n generalizing N y with
  | zero =>
    obtain ⟨N, rfl⟩ := Nat.exists_eq_succ_of_ne_zero (Nat.ne_zero_of_lt hN)
    exact ⟨chainSource_of_not_linked hn N, (chainPdp1_of_not_linked hn N).trans (by rw [link_succ]; rfl)⟩
  | succ n ih =>
    obtain ⟨N, rfl⟩ := Nat.exists_eq_succ_of_ne_zero (Nat.ne_zero_of_lt hN)
    have hy : linked m y := hbefore 0 (Nat.succ_pos n)
    rw [chainSource_of_linked hy, chainPdp1_of_linked hy, link_succ, link_succ]
    rw [link_succ] at hn
    refine ih (Nat.lt_of_succ_lt_succ hN) (fun k hk => ?_) hn
    rw [← link_succ]
    exact hbefore (k + 1) (Nat.succ_lt_succ hk)

theorem chain_of_all_linked {m : Memory} {N : Nat} {y : Addr} (h : ∀ k, linked m (link m k y)) :
    chainSource m N y = none ∧ chainPdp1 m N y = none := by
  induction N generalizing y with
  | zero => exact ⟨rfl, rfl⟩
  | succ N ih =>
    have hy : linked m y := h 0
    rw [chainSource_of_linked hy, chainPdp1_of_linked hy]
    refine ih fun k => ?_
    rw [← link_succ]
    exact h (k + 1)

theorem ea_of_first {s : State} {n : Nat} {y : Addr} (hbefore : ∀ k < n, linked s.mem (link s.mem k y))
    (hn : ¬linked s.mem (link s.mem n y)) :
    (s.cfg.indirect = .source → s.ea true y = some (link s.mem n y)) ∧
      (s.cfg.indirect = .pdp1 → s.ea true y = some (link s.mem (n + 1) y)) := by
  have hbound : n < chainBound := by
    obtain ⟨k, hk, heq⟩ := exists_lt_chainBound s.mem n y
    by_contra hlt
    exact hn (heq ▸ hbefore k (by omega))
  obtain ⟨hsource, hpdp1⟩ := chain_of_first hbound hbefore hn
  exact ⟨fun hc => by simp only [ea_indirect, hc, hsource], fun hc => by simp only [ea_indirect, hc, hpdp1]⟩

/-- Settles O30: a chain with a word that ends it has a first one, and it stands within the bound. -/
theorem indirectChainsAreDecidedExactly : Obligations.IndirectChainsAreDecidedExactly := by
  intro s y
  refine ⟨⟨fun hnone => ?_, fun h => ?_⟩, fun n hbefore hn => ea_of_first hbefore hn⟩
  · classical
    by_contra hend
    simp only [not_forall] at hend
    obtain ⟨hsource, hpdp1⟩ := ea_of_first (fun k hk => not_not.1 (Nat.find_min hend hk)) (Nat.find_spec hend)
    cases hc : s.cfg.indirect
    · rw [hsource hc] at hnone
      cases hnone
    · rw [hpdp1 hc] at hnone
      cases hnone
  · obtain ⟨hsource, hpdp1⟩ := chain_of_all_linked (N := chainBound) h
    rw [ea_indirect, hsource, hpdp1]
    cases s.cfg.indirect
    · rfl
    · rfl

/-! ### The nest of xct -/

/-- The effective address of an xct, if there is an xct and it has one. -/
def nestAddress (s : State) (p : Option (Bool × Addr)) : Option Addr := p.bind fun q => s.ea q.1 q.2

/-- The operands of the xct at an address, if there is one. -/
def xctAt (s : State) (a : Option Addr) : Option (Bool × Addr) := a.bind fun b => asXct (decode (s.memRead b))

theorem nested_succ (s : State) (n : Nat) (p : Bool × Addr) :
    nested s (n + 1) p = (xctAt s (nestAddress s (some p))).bind (nested s n) := by
  rw [nested]
  cases hea : s.ea p.1 p.2 with
  | none => simp [xctAt, nestAddress, hea]
  | some a => cases hx : asXct (decode (s.memRead a)) <;> simp [xctAt, nestAddress, hea, hx]

theorem iterate_none (s : State) (n : Nat) : (xctAt s ∘ nestAddress s)^[n] none = none :=
  Function.iterate_fixed rfl n

/-- The nest as a walk through operands, which stays where it ends. -/
theorem nested_eq_iterate (s : State) (n : Nat) (p : Bool × Addr) :
    nested s n p = (xctAt s ∘ nestAddress s)^[n] (some p) := by
  induction n generalizing p with
  | zero => rfl
  | succ n ih =>
    rw [nested_succ, Function.iterate_succ_apply, Function.comp_apply]
    cases xctAt s (nestAddress s (some p)) with
    | none => exact (iterate_none s n).symm
    | some q => exact ih q

theorem nested_isSome_mono {s : State} {k n : Nat} {p : Bool × Addr} (hk : k ≤ n)
    (h : (nested s n p).isSome = true) : (nested s k p).isSome = true := by
  rw [nested_eq_iterate] at h ⊢
  cases hnone : (xctAt s ∘ nestAddress s)^[k] (some p) with
  | some q => rfl
  | none =>
    rw [← Nat.sub_add_cancel hk, Function.iterate_add_apply, hnone, iterate_none] at h
    cases h

/-- The number of an address, and one more for none. -/
def addressCode : Option Addr → Nat
  | none => 4096
  | some a => a.toNat

theorem addressCode_injective : Function.Injective addressCode := by
  rintro (_ | a) (_ | b) h
  · rfl
  · exact absurd h b.isLt.ne'
  · exact absurd h a.isLt.ne
  · exact congrArg some (BitVec.eq_of_toNat_eq h)

theorem addressCode_lt : ∀ a, addressCode a < xctBound
  | none => by decide
  | some a => a.isLt.trans (by decide)

/-- The operands at a level are those of the xct at an address, and there are fewer than `xctBound` addresses. -/
theorem exists_le_xctBound (s : State) (n : Nat) (p : Bool × Addr) :
    ∃ k ≤ xctBound, nested s k p = nested s (n + 1) p := by
  have hwalk : ∀ n, nested s (n + 1) p = xctAt s ((nestAddress s ∘ xctAt s)^[n] (nestAddress s (some p))) := fun n => by
    have hsemi : Function.Semiconj (xctAt s) (nestAddress s ∘ xctAt s) (xctAt s ∘ nestAddress s) := fun _ => rfl
    rw [nested_eq_iterate, Function.iterate_succ_apply, (hsemi.iterate_right n).eq, Function.comp_apply]
  obtain ⟨k, hk, heq⟩ := exists_lt_iterate_eq addressCode_injective addressCode_lt (nestAddress s ∘ xctAt s)
    (nestAddress s (some p)) n
  exact ⟨k + 1, hk, by rw [hwalk, hwalk, heq]⟩

theorem xctNest_never_xctCycle_iff (s : State) (n : Nat) (i : Bool) (y : Addr) :
    xctNest s n i y = .never .hangXctCycle ↔ (nested s n (i, y)).isSome = true := by
  induction n generalizing i y with
  | zero => exact iff_of_true rfl rfl
  | succ n ih =>
    rcases hea : s.ea i y with _ | a
    · simp [xctNest_hang hea, nested, hea]
    rcases hx : asXct (decode (s.memRead a)) with _ | ⟨i', y'⟩
    · simp [xctNest_found hea hx, nested, hea, hx]
    · simp only [xctNest_deeper hea hx, ih, nested, hea, hx]

/-- An instruction that is no xct never answers the cycle of xct. -/
theorem exec_ne_xctCycle {j : Instr} (h : asXct j = none) (s : State) : exec j s ≠ .fault .hangXctCycle := by
  intro he
  rcases exec_plain_cases j s h with ⟨_, _, -, -, e⟩ | ⟨f, e, -, hf, -⟩ | ⟨_, -, -, -, e⟩ <;> rw [e] at he <;> cases he
  cases hf

theorem exec_xct_eq_xctCycle_iff (s : State) (i : Bool) (y : Addr) :
    exec (.xct i y) s = .fault .hangXctCycle ↔ xctNest s xctBound i y = .never .hangXctCycle := by
  rcases exec_xct_cases i y s with ⟨f, hn, e⟩ | ⟨j, hn, hj, e⟩
  · rw [e, hn]
    simp
  · rw [e, hn]
    exact iff_of_false (exec_ne_xctCycle hj s) nofun

theorem nested_isSome_of_bound {s : State} {p : Bool × Addr} (h : (nested s xctBound p).isSome = true) (n : Nat) :
    (nested s n p).isSome = true := by
  obtain ⟨k, hk, heq⟩ := exists_le_xctBound s n p
  exact nested_isSome_mono (Nat.le_succ n) (heq ▸ nested_isSome_mono hk h)

/-- Settles O31: a nest that is an xct at every level up to the bound is one at every level. -/
theorem xctCyclesAreDecidedExactly : Obligations.XctCyclesAreDecidedExactly := by
  intro s i y
  rw [exec_xct_eq_xctCycle_iff, xctNest_never_xctCycle_iff]
  exact ⟨nested_isSome_of_bound, fun h => h xctBound⟩

/-! ### xct in place (44_memref_control.md R200)

An xct under an xct has one level less to go, which changes nothing: what it does not find in that many levels it finds
in none. -/

/-- A nest that has ended has ended for any greater bound. -/
theorem xctNest_succ {s : State} {n : Nat} {i : Bool} {y : Addr} (h : xctNest s n i y ≠ .never .hangXctCycle) :
    xctNest s (n + 1) i y = xctNest s n i y := by
  induction n generalizing i y with
  | zero => exact absurd rfl h
  | succ n ih =>
    rcases hea : s.ea i y with _ | a
    · rw [xctNest_hang hea, xctNest_hang hea]
    rcases hx : asXct (decode (s.memRead a)) with _ | ⟨i', y'⟩
    · rw [xctNest_found hea hx, xctNest_found hea hx]
    · rw [xctNest_deeper hea hx] at h ⊢
      rw [xctNest_deeper hea hx]
      exact ih h

theorem nested_deeper {s : State} {i i' : Bool} {y y' a : Addr} (hea : s.ea i y = some a)
    (hx : asXct (decode (s.memRead a)) = some (i', y')) (n : Nat) : nested s (n + 1) (i, y) = nested s n (i', y') := by
  simp only [nested, hea, hx]

/-- The nest under an xct within its bound is the nest of the xct under it within the whole bound. -/
theorem xctNest_bound_deeper {s : State} {i i' : Bool} {y y' a : Addr} (hea : s.ea i y = some a)
    (hx : asXct (decode (s.memRead a)) = some (i', y')) : xctNest s xctBound i y = xctNest s xctBound i' y' := by
  by_cases hcycle : xctNest s xctBound i y = .never .hangXctCycle
  · have hall := nested_isSome_of_bound ((xctNest_never_xctCycle_iff ..).1 hcycle) (xctBound + 1)
    rw [nested_deeper hea hx] at hall
    rw [hcycle, (xctNest_never_xctCycle_iff ..).2 hall]
  · have hdeeper : xctNest s xctBound i y = xctNest s 4096 i' y' := xctNest_deeper hea hx
    rw [hdeeper] at hcycle ⊢
    exact (xctNest_succ hcycle).symm

theorem exec_xct_of_target {s : State} {i : Bool} {y : Addr} {j : Instr} (h : xctNest s xctBound i y = .target j) :
    exec (.xct i y) s = exec j s := by
  rcases exec_xct_cases i y s with ⟨f, hn, -⟩ | ⟨k, hk, -, e⟩
  · rw [h] at hn
    cases hn
  · rw [h] at hk
    cases hk
    exact e

theorem eq_xct_of_asXct {j : Instr} {i : Bool} {y : Addr} (h : asXct j = some (i, y)) : j = .xct i y := by
  cases j <;> cases h
  rfl

/-- Settles O44: the nest of an xct is that of the xct it executes, or ends at the instruction it executes. -/
theorem xctRunsItsTargetInPlace : Obligations.XctRunsItsTargetInPlace := by
  refine ⟨fun i y => ?_, fun s i y a hea => ?_⟩
  · exact decode_refWord_of_encode (op := 0o10) rfl rfl
  · show exec (.xct i y) s = exec (decode (s.memRead a)) s
    rcases hx : asXct (decode (s.memRead a)) with _ | ⟨i', y'⟩
    · exact exec_xct_of_target (xctNest_found hea hx)
    · rw [eq_xct_of_asXct hx]
      simp only [exec, execXct, xctNest_bound_deeper hea hx]

end Sys2Proof.Machine

/-! ## The memory references, instruction by instruction (42_memref_arith.md, 43_memref_logic_transfer.md,
44_memref_control.md) -/

namespace Sys2Proof.Machine

open Sys2Proof.Claims

theorem chainOf_or_xct_of_memoryReference : ∀ c ∈ memoryReference, ∀ (i : Bool) (y : Addr),
    chainOf (c i y) = some (i, y) ∨ c i y = .xct i y := by
  unfold memoryReference
  repeat refine List.forall_mem_cons.2 ⟨fun _ _ => .inl rfl, ?_⟩
  refine List.forall_mem_cons.2 ⟨fun _ _ => .inr rfl, ?_⟩
  repeat refine List.forall_mem_cons.2 ⟨fun _ _ => .inl rfl, ?_⟩
  exact nofun

theorem exec_xct_of_hang {s : State} {i : Bool} {y : Addr} (h : s.ea i y = none) :
    exec (.xct i y) s = .fault .hangIndirectCycle := by
  have hn : xctNest s xctBound i y = .never .hangIndirectCycle := xctNest_hang h
  simp [exec, execXct, hn]

/-- Settles O32: xct walks its chain before it looks for a target. -/
theorem cyclicChainHangsEveryMemoryReference : Obligations.CyclicChainHangsEveryMemoryReference := by
  intro c hc i y s
  refine ⟨fun h => ?_, ea_direct s y⟩
  rcases chainOf_or_xct_of_memoryReference c hc i y with hchain | hxct
  · exact exec_of_hang hchain h
  · rw [hxct]
    exact exec_xct_of_hang h

/-- Settles O35: the sum with the complement, stored as add stores its sum. -/
theorem subResult : Obligations.SubResult :=
  ⟨fun _ _ => decode_refWord_of_chainOf (op := 0o42) rfl rfl,
    fun s _ _ _ h => (exec_of_ea rfl rfl h).trans (congrArg _ (s.setSum_eq _))⟩

/-- Settles O36: the fault carries the instruction's word, which is its row's. -/
theorem mulAndDivFaultAfterTheirChain : Obligations.MulAndDivFaultAfterTheirChain := by
  refine ⟨fun i y => ⟨decode_refWord_of_chainOf (op := 0o54) rfl rfl, decode_refWord_of_chainOf (op := 0o56) rfl rfl⟩,
    fun s i y a h => ⟨?_, ?_⟩⟩
  · have hw : refWord 0o540000 i y = encode (.mul i y) := refWord_eq_memWord 0o54 i y
    rw [hw]
    exact withEa_some h _
  · have hw : refWord 0o560000 i y = encode (.div i y) := refWord_eq_memWord 0o56 i y
    rw [hw]
    exact withEa_some h _

/-- R170: isp skips when bit 17 of the increment is 0. -/
theorem State.index_skipIf_eq (s : State) (a : Addr) :
    (s.index a).skipIf (!sign (ocInc (s.memRead a))) =
      { s with
        ac := ocInc (s.memRead a)
        mem := s.mem.write a.toNat (ocInc (s.memRead a))
        pc := if (ocInc (s.memRead a)).getLsbD 17 then s.pc else plusOne s } := by
  unfold sign
  cases (ocInc (s.memRead a)).getLsbD 17
  · exact State.advance_eq (s.index a)
  · rfl

/-- Settles O37, from the increment's store and the skip. -/
theorem idxAndIspResults : Obligations.IdxAndIspResults := by
  refine ⟨fun i y => ⟨decode_refWord_of_chainOf (op := 0o44) rfl rfl, decode_refWord_of_chainOf (op := 0o46) rfl rfl⟩,
    fun s i y a h => ⟨exec_of_ea rfl rfl h, (exec_of_ea rfl rfl h).trans (congrArg _ (s.index_skipIf_eq a))⟩⟩

/-- Settles O40: the two settings of `P_DIP_MASK`. -/
theorem dipResult : Obligations.DipResult := by
  refine ⟨fun i y => decode_refWord_of_chainOf (op := 0o30) rfl rfl, fun s i y a h => ⟨fun hm => ?_, fun hm => ?_⟩⟩
  · rw [exec_of_ea rfl rfl h, nextOf, hm]
    rfl
  · rw [exec_of_ea rfl rfl h, nextOf, hm]
    rfl

/-- A flag's weight in a word. -/
theorem ite_eq_toNat_mul (b : Bool) (v : Nat) : (if b then v else 0) = b.toNat * v := by cases b <;> simp

theorem State.retval_eq (s : State) : s.retval = returnValue s := by
  have hpc := s.pc.isLt
  apply BitVec.eq_of_toNat_eq
  have hov := s.ov.toNat_le
  have hext := s.ext.toNat_le
  rw [retval_toNat, returnValue, BitVec.toNat_ofNat, ite_eq_toNat_mul, ite_eq_toNat_mul]
  omega

theorem State.callThrough_eq (s : State) (c : Addr) :
    s.callThrough c =
      { s with
        ac := returnValue s
        mem := s.mem.write c.toNat s.ac
        pc := BitVec.ofNat 16 ((c.toNat + 1) % 4096) } := by
  have hc : (c + 1).toNat = (c.toNat + 1) % 4096 := BitVec.toNat_add c 1
  rw [State.callThrough, State.jump_eq, hc, State.retval_eq]
  rfl

/-- Settles O42, from the return value, the save, and the jump past the cell. -/
theorem callResults : Obligations.CallResults := by
  refine ⟨fun i y => ⟨decode_refWord_of_chainOf (op := 0o62) rfl rfl, decode_refWord_of_encode (op := 0o16) rfl rfl,
    decode_refWord_of_encode (op := 0o16) rfl rfl⟩, fun s i y a h => ?_,
    fun s y => ⟨congrArg _ (s.callThrough_eq _), congrArg _ (s.callThrough_eq _)⟩⟩
  rw [exec_of_ea rfl rfl h, nextOf, State.jump_eq, State.retval_eq]
  rfl

/-- A skip outside the skip group leaves OV as it is. -/
theorem skipsWhen_of_skipIf {p : Prop} {b : Bool} (hp : p ↔ b = true) (s : State) :
    SkipsWhen p false s (.next (s.skipIf b)) := by
  simpa only [Bool.not_false, Bool.and_true] using skipsWhen_skipIf hp false s

/-- Settles O43, from the comparison of the 18 bits. -/
theorem sadAndSasResults : Obligations.SadAndSasResults := by
  refine ⟨fun i y => ⟨decode_refWord_of_chainOf (op := 0o50) rfl rfl, decode_refWord_of_chainOf (op := 0o52) rfl rfl⟩,
    fun s i y a h => ⟨?_, ?_⟩⟩
  · rw [exec_of_ea rfl rfl h]
    exact skipsWhen_of_skipIf (by simp [State.memRead]) s
  · rw [exec_of_ea rfl rfl h]
    exact skipsWhen_of_skipIf (by simp [State.memRead]) s

/-- dap keeps the opcode and the indirect bit, and takes the address from AC. -/
theorem dap_into_memWord (op : BitVec 6) (i : Bool) (y : Addr) (w : Word) :
    (memWord op i y &&& 0o770000) ||| (w &&& 0o007777) = memWord op i (low12 w) := by
  refine BitVec.eq_of_getLsbD_eq fun k hk => ?_
  simp only [memWord, low12, BitVec.getLsbD_or, BitVec.getLsbD_and, BitVec.getLsbD_append, BitVec.getLsbD_extractLsb']
  interval_cases k <;> simp

theorem low12_returnValue (s : State) : low12 (returnValue s) = BitVec.ofNat 12 s.pc.toNat := by
  apply BitVec.eq_of_toNat_eq
  rw [low12_toNat, ← State.retval_eq, retval_toNat, BitVec.toNat_ofNat]
  omega

/-- Settles O57: the word at `d` stays a jmp, with the return value's low bits as its address. -/
theorem dapIntoJmpReturns : Obligations.DapIntoJmpReturns := by
  intro s y c d u hw hu
  rw [exec_dap_of_ea (ea_direct _ d)] at hu
  cases hu
  show decode ((s.mem.write d.toNat
    ((s.mem.read d.toNat &&& 0o770000) ||| (returnValue s &&& 0o007777))).read d.toNat) = _
  have hjmp : refWord 0o600000 false y = memWord 0o60 false y := refWord_eq_memWord 0o60 false y
  rw [Memory.read_write_same, hw, hjmp, dap_into_memWord, low12_returnValue]
  exact decode_encode_of_chainOf (j := .jmp false _) rfl

end Sys2Proof.Machine

/-! ## law (45_law.md R215, R216) -/

namespace Sys2Proof.Machine

open Sys2Proof.Claims

/-- A row's match holds the upper five bits of the opcode at bits 17..13. -/
theorem fieldWord_eq_wideWord (op : BitVec 6) (n : BitVec 13) :
    fieldWord (op.toNat / 2 * 8192) n = wideWord op n := by
  have hop := op.isLt
  have hn := n.isLt
  have hfive : (op.extractLsb' 1 5).toNat = op.toNat / 2 := by
    rw [BitVec.extractLsb'_toNat, Nat.shiftRight_eq_div_pow]
    omega
  apply BitVec.eq_of_toNat_eq
  rw [fieldWord, wideWord, toNat_concat, hfive, BitVec.toNat_ofNat]
  omega

theorem fieldWord_law (n : BitVec 13) : fieldWord 0o700000 n = encode (.law n) := fieldWord_eq_wideWord 0o70 n

/-- R77: bit 12 copied into bits 17..13. -/
theorem lawValue_eq (n : BitVec 13) :
    lawValue n = BitVec.ofNat 18 (n.toNat + if n.getLsbD 12 then 0o760000 else 0) := by
  have hn := n.isLt
  have hmsb : n.msb = n.getLsbD 12 := BitVec.msb_eq_getLsbD_last n
  apply BitVec.eq_of_toNat_eq
  rw [lawValue, BitVec.toNat_signExtend, BitVec.toNat_setWidth, BitVec.toNat_ofNat, hmsb]
  split <;> omega

theorem exec_law_sext {s : State} (h : s.cfg.lawExec = .sext13) (n : BitVec 13) :
    exec (.law n) s = .next (s.setAc (lawValue n)) :=
  exec_of_completesAt (a := 0) ⟨rfl, trivial, rfl, fun _ => h⟩

theorem exec_law_fault {s : State} (h : s.cfg.lawExec = .fault) (n : BitVec 13) :
    exec (.law n) s = .fault (.unimplemented (encode (.law n)) s) := by
  simp only [exec, execLaw, h]
  rfl

/-- R93: the assembler's 13-bit field, as a number. -/
theorem toNat_oc13 {n : Int} (hlo : -4095 ≤ n) (hhi : n ≤ 4095) :
    ((oc13 n).toNat : Int) = if 0 ≤ n then n else 8191 + n := by
  unfold oc13
  split
  · rw [BitVec.toNat_ofNat]
    omega
  · simp only [BitVec.toNat_sub, BitVec.toNat_ofNat, BitVec.reduceToNat]
    omega

/-- R216: the field's sign bit extends one's-complement values too. -/
theorem lawValue_oc13 {n : Int} (hlo : -4095 ≤ n) (hhi : n ≤ 4095) : lawValue (oc13 n) = oc n := by
  have h13 := toNat_oc13 hlo hhi
  have hsign : (oc13 n).getLsbD 12 = decide (4096 ≤ (oc13 n).toNat) :=
    (BitVec.msb_eq_getLsbD_last _).symm.trans (BitVec.msb_eq_decide _)
  have hoc := toNat_oc (n := n) (by omega) (by omega)
  apply BitVec.eq_of_toNat_eq
  rw [lawValue_eq, BitVec.toNat_ofNat, hsign]
  by_cases h0 : 0 ≤ n
  · rw [if_pos h0] at h13 hoc
    rw [if_neg (by simp; omega)]
    omega
  · rw [if_neg h0] at h13 hoc
    rw [abs_of_neg (by omega)] at hoc
    rw [if_pos (by simp; omega)]
    omega

theorem encodeInstr_law_imm (t : LabelTable) (cur : Nat) {n : Int} (hlo : -4095 ≤ n) (hhi : n ≤ 4095) :
    encodeInstr t cur .law false (some (.imm n)) = .ok (encode (.law (oc13 n))) := if_pos ⟨hlo, hhi⟩

/-- Settles O46, from the sign extension as a number, of any field and of the assembler's. -/
theorem lawResult : Obligations.LawResult := by
  refine ⟨fun n => ?_, fun s n h => ?_, fun s n h => ?_, fun s t cur n h hlo hhi => ?_⟩
  · rw [fieldWord_law, decodeOfEncodeIsTheInstruction _ rfl]
  · rw [exec_law_sext h, lawValue_eq]
    rfl
  · rw [exec_law_fault h, ← fieldWord_law]
    rfl
  · refine ⟨_, encodeInstr_law_imm t cur hlo hhi, ?_⟩
    rw [decodeOfEncodeIsTheInstruction _ rfl, exec_law_sext h, lawValue_oc13 hlo hhi]
    rfl

end Sys2Proof.Machine

/-! ## sal, sil, scl, sar, sir, scr (46_shift.md R224 to R226, R230 to R232, 41_alu.md R155 to R158) -/

namespace Sys2Proof.Machine

open Sys2Proof.Claims

theorem getLsbD_sal1 (a : Word) {k : Nat} (hk : k < 18) :
    (sal1 a).getLsbD k = if k = 17 ∨ k = 0 then a.getLsbD 17 else a.getLsbD (k - 1) := by
  simp only [sal1, BitVec.getLsbD_append, BitVec.getLsbD_extractLsb']
  interval_cases k <;> simp

theorem getLsbD_sar1 (a : Word) {k : Nat} (hk : k < 18) :
    (sar1 a).getLsbD k = if k = 17 then a.getLsbD 17 else a.getLsbD (k + 1) := by
  simp only [sar1, BitVec.getLsbD_append, BitVec.getLsbD_extractLsb']
  interval_cases k <;> simp

theorem getLsbD_scl1_fst (a b : Word) {k : Nat} (hk : k < 18) : (scl1 (a, b)).1.getLsbD k =
    if k = 17 then a.getLsbD 17 else if k = 0 then b.getLsbD 17 else a.getLsbD (k - 1) := by
  simp only [scl1, BitVec.getLsbD_append, BitVec.getLsbD_extractLsb']
  interval_cases k <;> simp

theorem getLsbD_scl1_snd (a b : Word) {k : Nat} (hk : k < 18) : (scl1 (a, b)).2.getLsbD k =
    if k = 0 then a.getLsbD 17 else b.getLsbD (k - 1) := by
  simp only [scl1, BitVec.getLsbD_append, BitVec.getLsbD_extractLsb']
  interval_cases k <;> simp

theorem getLsbD_scr1_fst (a b : Word) {k : Nat} (hk : k < 18) : (scr1 (a, b)).1.getLsbD k =
    if k = 17 then a.getLsbD 17 else a.getLsbD (k + 1) := getLsbD_sar1 a hk

theorem getLsbD_scr1_snd (a b : Word) {k : Nat} (hk : k < 18) : (scr1 (a, b)).2.getLsbD k =
    if k = 17 then a.getLsbD 0 else b.getLsbD (k + 1) := by
  simp only [scr1, BitVec.getLsbD_append, BitVec.getLsbD_extractLsb']
  interval_cases k <;> simp

/-- Settles O48, from the words read back, the next states, whose shifts are iterated steps, and the bits of
the steps. -/
theorem arithmeticShiftResults : Obligations.ArithmeticShiftResults := by
  refine ⟨fun m => ?words, fun s m => ?results, fun a b k hk => ?bits⟩
  case words =>
    exact ⟨decode_fieldWord_of_shiftMaskOf (sub := 0o665) rfl rfl,
      decode_fieldWord_of_shiftMaskOf (sub := 0o666) rfl rfl, decode_fieldWord_of_shiftMaskOf (sub := 0o667) rfl rfl,
      decode_fieldWord_of_shiftMaskOf (sub := 0o675) rfl rfl, decode_fieldWord_of_shiftMaskOf (sub := 0o676) rfl rfl,
      decode_fieldWord_of_shiftMaskOf (sub := 0o677) rfl rfl⟩
  case results =>
    simp only [← times_eq_iterate]
    exact ⟨exec_of_shiftMaskOf rfl s 0, exec_of_shiftMaskOf rfl s 0, exec_of_shiftMaskOf rfl s 0,
      exec_of_shiftMaskOf rfl s 0, exec_of_shiftMaskOf rfl s 0, exec_of_shiftMaskOf rfl s 0⟩
  case bits =>
    exact ⟨getLsbD_sal1 a hk, getLsbD_sar1 a hk, getLsbD_scl1_fst a b hk, getLsbD_scl1_snd a b hk,
      getLsbD_scr1_fst a b hk, getLsbD_scr1_snd a b hk⟩

end Sys2Proof.Machine

/-! ## The skip group at every operand (47_skip.md R240, R246 to R248) -/

namespace Sys2Proof.Machine

open Sys2Proof.Claims

/-- A 3-bit index is one of eight. -/
theorem index_cases (k : BitVec 3) : k = 0 ∨ k = 1 ∨ k = 2 ∨ k = 3 ∨ k = 4 ∨ k = 5 ∨ k = 6 ∨ k = 7 := by
  revert k
  decide

theorem isClear_iff (x : Six) (k : BitVec 3) : isClear x k = true ↔ testsClear x k.toNat := by
  rcases index_cases k with rfl | rfl | rfl | rfl | rfl | rfl | rfl | rfl
  all_goals simp [isClear, testsClear, allClear, and_assoc]

theorem skipCondition_iff (c : Conds) (k f : BitVec 3) (s : State) :
    skipCondition c k f s = true ↔ skipHolds c k f s := by
  simp [skipCondition, skipHolds, isClear_iff, sign, or_assoc]

/-- The two rows' matches differ in the negate bit. -/
theorem skipGroupWord_eq_skipWord (n : Bool) (c : Conds) (k f : BitVec 3) :
    skipGroupWord (0o640000 + n.toNat * 4096) c k f = skipWord n c k f := by
  have hk := k.isLt
  have hf := f.isLt
  have hn := n.toNat_le
  have hza := c.za.toNat_le
  have hpa := c.pa.toNat_le
  have hma := c.ma.toNat_le
  have hzo := c.zo.toNat_le
  have hpi := c.pi.toNat_le
  apply BitVec.eq_of_toNat_eq
  simp only [skipGroupWord, skipWord, toNat_concat, BitVec.toNat_ofNat, BitVec.toNat_ofBool, ite_eq_toNat_mul]
  omega

/-- The decoder's spelling of a skip word runs the skip group with the word's own fields. -/
theorem skipsWhen_of_skipGroupWord {p : Prop} {n : Bool} {c : Conds} {k f : BitVec 3} {s : State}
    (hp : p ↔ (skipCondition c k f s != n) = true) :
    SkipsWhen p c.zo s (exec (decode (skipGroupWord (0o640000 + n.toNat * 4096) c k f)) s) := by
  rw [skipGroupWord_eq_skipWord, decode_skipWord]
  exact skipsWhen_of_skipFieldsOf (skipFieldsOf_decodeSkip n c k f) rfl hp

theorem skipHolds_iff_ne_false (c : Conds) (k f : BitVec 3) (s : State) :
    skipHolds c k f s ↔ (skipCondition c k f s != false) = true := by simp [← skipCondition_iff]

theorem not_skipHolds_iff_ne_true (c : Conds) (k f : BitVec 3) (s : State) :
    ¬skipHolds c k f s ↔ (skipCondition c k f s != true) = true := by simp [← skipCondition_iff]

/-- Index 0 spells the word without conditions. -/
theorem decode_switchWord (k : BitVec 3) :
    decode (skipGroupWord 0o640000 {} k 0) = if k = 0 then .skp {} 0 0 else .szs k := by
  rw [show skipGroupWord 0o640000 {} k 0 = skipWord false {} k 0 from skipGroupWord_eq_skipWord false {} k 0,
    decode_skipWord]
  by_cases hk : k = 0
  · subst hk
    rfl
  · rw [if_neg hk]
    exact decodeSkip_of_skipFieldsOf (j := .szs k) rfl (by simpa [Instr.wf, indexNotZero] using hk)

theorem decode_flagWord (f : BitVec 3) :
    decode (skipGroupWord 0o640000 {} 0 f) = if f = 0 then .skp {} 0 0 else .szf f := by
  rw [show skipGroupWord 0o640000 {} 0 f = skipWord false {} 0 f from skipGroupWord_eq_skipWord false {} 0 f,
    decode_skipWord]
  by_cases hf : f = 0
  · subst hf
    rfl
  · rw [if_neg hf]
    exact decodeSkip_of_skipFieldsOf (j := .szf f) rfl (by simpa [Instr.wf, indexNotZero] using hf)

/-- Settles O50, from the rule of the skip group at every operand, and the fields of its words. -/
theorem skipGroupResults : Obligations.SkipGroupResults := by
  refine ⟨fun k => ⟨decode_switchWord k, decode_flagWord k⟩,
    fun s c k f => ⟨?skpWord, ?skpnWord, ?skp, ?skpn, ?szs, ?szf⟩⟩
  case skpWord => exact skipsWhen_of_skipGroupWord (n := false) (skipHolds_iff_ne_false c k f s)
  case skpnWord => exact skipsWhen_of_skipGroupWord (n := true) (not_skipHolds_iff_ne_true c k f s)
  case skp => exact skipsWhen_of_skipFieldsOf rfl rfl (skipHolds_iff_ne_false c k f s)
  case skpn => exact skipsWhen_of_skipFieldsOf rfl rfl (not_skipHolds_iff_ne_true c k f s)
  case szs => exact skipsWhen_of_skipFieldsOf rfl rfl (by simp [skipCondition, ← isClear_iff])
  case szf => exact skipsWhen_of_skipFieldsOf rfl rfl (by simp [skipCondition, ← isClear_iff])

end Sys2Proof.Machine

/-! ## cma, lap, hlt, stf, clf (48_operate.md R264 to R266, R268, R269) -/

namespace Sys2Proof.Machine

open Sys2Proof.Claims

/-- Settles O52, from the micro-op field each word reads back, and the next states. -/
theorem cmaLapHltResults : Obligations.CmaLapHltResults := by
  refine ⟨⟨?cmaWord, ?lapWord, ?hltWord⟩, fun s => ⟨?cma, ?lap, ?hlt⟩⟩
  case cmaWord => exact decode_operateWord 0o1000
  case lapWord => exact decode_operateWord 0o0300
  case hltWord => exact decode_operateWord 0o0400
  case lap =>
    rw [← State.retval_eq]
    exact exec_of_chainOf_none rfl rfl rfl nofun fun _ => rfl
  all_goals exact exec_of_chainOf_none rfl rfl rfl nofun fun _ => rfl

/-- The index stands below the base of the field. -/
theorem fieldWord_eq_operateWord (b : BitVec 9) (k : BitVec 3) :
    fieldWord (0o760000 + b.toNat * 8) k = operateWord (b ++ k) := by
  have hb := b.isLt
  have hk := k.isLt
  apply BitVec.eq_of_toNat_eq
  simp only [fieldWord, operateWord, toNat_concat, BitVec.toNat_ofNat]
  omega

theorem exec_putFlag (s : State) (k : BitVec 3) (b : Bool) :
    exec (if b then .stf k else .clf k) s = .next (s.setPf (putFlag s.pf k b)) := by
  cases b
  · rfl
  · rfl

/-- R268, R269: index 1 to 6 writes its flag, 7 all six, 0 none. -/
theorem putFlag_spec (x : Six) (k : BitVec 3) (b : Bool) :
    (putFlag x k b).f1 = (if k = 1 ∨ k = 7 then b else x.f1) ∧
    (putFlag x k b).f2 = (if k = 2 ∨ k = 7 then b else x.f2) ∧
    (putFlag x k b).f3 = (if k = 3 ∨ k = 7 then b else x.f3) ∧
    (putFlag x k b).f4 = (if k = 4 ∨ k = 7 then b else x.f4) ∧
    (putFlag x k b).f5 = (if k = 5 ∨ k = 7 then b else x.f5) ∧
    (putFlag x k b).f6 = (if k = 6 ∨ k = 7 then b else x.f6) := by
  rcases index_cases k with rfl | rfl | rfl | rfl | rfl | rfl | rfl | rfl
  all_goals exact ⟨rfl, rfl, rfl, rfl, rfl, rfl⟩

/-- Settles O53, index by index. -/
theorem flagInstructionResults : Obligations.FlagInstructionResults := by
  refine ⟨fun k => ⟨?_, ?_⟩, fun s k b => ⟨putFlag s.pf k b, exec_putFlag s k b, putFlag_spec s.pf k b⟩⟩
  · rw [show fieldWord 0o760010 k = operateWord (1#9 ++ k) from fieldWord_eq_operateWord 1 k, decode_operateWord,
      decodeOperate_stf]
  · rw [show fieldWord 0o760000 k = operateWord (0#9 ++ k) from fieldWord_eq_operateWord 0 k, decode_operateWord,
      decodeOperate_clf]

end Sys2Proof.Machine

/-! ## The tape (20_memory.md R60, R61) -/

namespace Sys2Proof.Machine

theorem tapeRow_wordOfRows (r6 r5 r4 r3 r2 r1 : TapeRow) :
    tapeRow (wordOfRows r6 r5 r4 r3 r2 r1) 1 = r1 ∧ tapeRow (wordOfRows r6 r5 r4 r3 r2 r1) 2 = r2 ∧
    tapeRow (wordOfRows r6 r5 r4 r3 r2 r1) 3 = r3 ∧ tapeRow (wordOfRows r6 r5 r4 r3 r2 r1) 4 = r4 ∧
    tapeRow (wordOfRows r6 r5 r4 r3 r2 r1) 5 = r5 ∧ tapeRow (wordOfRows r6 r5 r4 r3 r2 r1) 6 = r6 := by
  refine ⟨?_, ?_, ?_, ?_, ?_, ?_⟩
  all_goals
    simp only [tapeRow, wordOfRows, BitVec.getLsbD_append]
    simp

/-- Row `i` of the word is row `i` of its block. -/
theorem tapeRow_of_getElem? {r6 r5 r4 r3 r2 r1 r : TapeRow} {i : Nat} (hi : 1 ≤ i)
    (h : [r1, r2, r3, r4, r5, r6][i - 1]? = some r) : tapeRow (wordOfRows r6 r5 r4 r3 r2 r1) i = r := by
  obtain ⟨h1, h2, h3, h4, h5, h6⟩ := tapeRow_wordOfRows r6 r5 r4 r3 r2 r1
  have hlt : i - 1 < 6 := (List.getElem?_eq_some_iff.1 h).1
  have hle : i ≤ 6 := by omega
  interval_cases i <;> cases h <;> assumption

theorem blockOfWord_wordOfRows (r6 r5 r4 r3 r2 r1 : TapeRow) :
    blockOfWord (wordOfRows r6 r5 r4 r3 r2 r1) = [r6, r5, r4, r3, r2, r1] := by
  obtain ⟨h1, h2, h3, h4, h5, h6⟩ := tapeRow_wordOfRows r6 r5 r4 r3 r2 r1
  rw [blockOfWord, h1, h2, h3, h4, h5, h6]

theorem wordOfRows_tapeRow (w : Word) :
    wordOfRows (tapeRow w 6) (tapeRow w 5) (tapeRow w 4) (tapeRow w 3) (tapeRow w 2) (tapeRow w 1) = w := by
  refine BitVec.eq_of_getLsbD_eq fun k hk => ?_
  simp only [wordOfRows, tapeRow, BitVec.getLsbD_append]
  interval_cases k <;> simp

/-- Reading takes the blocks of words off one by one. -/
theorem readBlocks_append (ws : List Word) (rest : List (List TapeRow)) :
    readBlocks (ws.map blockOfWord ++ rest) = ws ++ readBlocks rest := by
  induction ws with
  | nil => rfl
  | cons w ws ih =>
    rw [List.map_cons, List.cons_append, blockOfWord, readBlocks, wordOfRows_tapeRow, ih, List.cons_append]

theorem readBlocks_malformed {bad : List TapeRow} (h : bad.length ≠ 6) (rest : List (List TapeRow)) :
    readBlocks (bad :: rest) = [] := by
  unfold readBlocks
  split
  next heq =>
    cases heq
    exact absurd rfl h
  next => rfl

/-- Settles O58, from the rows of a word, and the reading of well-formed blocks one by one. -/
theorem tapeReadsBack : Obligations.TapeReadsBack := by
  refine ⟨fun r6 r5 r4 r3 r2 r1 r i hi h => ?_, blockOfWord_wordOfRows, fun ws => ?_, fun ws bad rest hbad => ⟨?_, rfl⟩⟩
  · have hrow := tapeRow_of_getElem? hi h
    exact ⟨congrArg TapeRow.g1 hrow, congrArg TapeRow.g2 hrow, congrArg TapeRow.g3 hrow⟩
  · simpa [readBlocks, tapeOf, readTape] using readBlocks_append ws []
  · exact (readBlocks_append ws (bad :: rest)).trans (by rw [readBlocks_malformed hbad, List.append_nil])

end Sys2Proof.Machine

/-! ## Numeric labels (30_encoding.md R106, R107) -/

namespace Sys2Proof.Machine

theorem resolve_forward_iff (t : LabelTable) (n cur p : Nat) :
    t.resolve (.forward n) cur = .ok p ↔ (t.positions n).find? (fun q => cur < q) = some p := by
  simp only [LabelTable.resolve]
  cases (t.positions n).find? fun q => decide (cur < q) <;> simp

theorem resolve_backward_iff (t : LabelTable) (n cur p : Nat) :
    t.resolve (.backward n) cur = .ok p ↔ scanBack cur none (t.positions n) = some p := by
  simp only [LabelTable.resolve]
  cases scanBack cur none (t.positions n) <;> simp

/-- `p` is the last of the positions below `cur`. -/
def IsLastBelow (cur p : Nat) (l : List Nat) : Prop := p ∈ l ∧ p < cur ∧ ∀ q ∈ l, q < cur → q ≤ p

theorem not_isLastBelow_of_le {cur p : Nat} {l : List Nat} (h : ∀ q ∈ l, cur ≤ q) : ¬IsLastBelow cur p l :=
  fun ⟨hp, hlt, _⟩ => absurd (h p hp) (Nat.not_le.2 hlt)

theorem isLastBelow_cons {cur p x : Nat} {l : List Nat} (hx : x < cur) (hl : ∀ q ∈ l, x < q) :
    IsLastBelow cur p (x :: l) ↔ IsLastBelow cur p l ∨ (x = p ∧ ∀ q ∈ l, cur ≤ q) := by
  constructor
  · rintro ⟨hp, hlt, hmax⟩
    rcases List.mem_cons.1 hp with rfl | hp
    · refine .inr ⟨rfl, fun q hq => ?_⟩
      by_contra hqc
      exact absurd (hmax q (List.mem_cons_of_mem _ hq) (Nat.not_le.1 hqc)) (Nat.not_le.2 (hl q hq))
    · exact .inl ⟨hp, hlt, fun q hq => hmax q (List.mem_cons_of_mem _ hq)⟩
  · rintro (⟨hp, hlt, hmax⟩ | ⟨rfl, hge⟩)
    · refine ⟨List.mem_cons_of_mem _ hp, hlt, fun q hq hqc => ?_⟩
      rcases List.mem_cons.1 hq with rfl | hq
      · exact (hl p hp).le
      · exact hmax q hq hqc
    · refine ⟨List.mem_cons_self .., hx, fun q hq hqc => ?_⟩
      rcases List.mem_cons.1 hq with rfl | hq
      · exact le_rfl
      · exact absurd (hge q hq) (Nat.not_le.2 hqc)

/-- On rising positions the scan answers the last one below `cur`, or what came before the list if there is none. -/
theorem scanBack_eq_some_iff {cur p : Nat} {l : List Nat} (hl : l.Pairwise (· < ·)) (before : Option Nat) :
    scanBack cur before l = some p ↔ IsLastBelow cur p l ∨ (before = some p ∧ ∀ q ∈ l, cur ≤ q) := by
  induction l generalizing before with
  | nil => simp [scanBack, IsLastBelow]
  | cons x r ih =>
    obtain ⟨hx, hr⟩ := List.pairwise_cons.1 hl
    by_cases hcur : cur ≤ x
    · have hall : ∀ q ∈ x :: r, cur ≤ q := by
        intro q hq
        rcases List.mem_cons.1 hq with rfl | hq
        · exact hcur
        · exact hcur.trans (hx q hq).le
      rw [scanBack, if_pos hcur]
      simp only [not_isLastBelow_of_le hall, false_or, and_iff_left hall]
    · have hsome : ¬∀ q ∈ x :: r, cur ≤ q := fun h => hcur (h x (List.mem_cons_self ..))
      rw [scanBack, if_neg hcur, ih hr, isLastBelow_cons (Nat.not_le.1 hcur) hx]
      simp only [hsome, and_false, or_false, Option.some.injEq]

/-- Settles O59, from the first position found and the induction over the scan. -/
theorem numericLabelsResolve : Obligations.NumericLabelsResolve := by
  intro t n cur p
  refine ⟨?_, fun hl => ?_⟩
  · rw [resolve_forward_iff, List.find?_eq_some_iff_append]
    simp only [decide_eq_true_eq, Bool.not_eq_true', decide_eq_false_iff_not, Nat.not_lt]
    exact ⟨fun ⟨hp, l, r, heq, hl⟩ => ⟨l, r, heq, hl, hp⟩, fun ⟨l, r, heq, hl, hp⟩ => ⟨hp, l, r, heq, hl⟩⟩
  · rw [resolve_backward_iff, scanBack_eq_some_iff hl]
    simp [IsLastBelow]

end Sys2Proof.Machine

/-! ## The assembler's memory references (30_encoding.md R92) -/

namespace Sys2Proof.Machine

open Sys2Proof.Claims

theorem addressOperand_of_addresses {t : LabelTable} {cur : Nat} {o : Operand} {v : Addr} (h : Addresses t cur o v) :
    addressOperand t cur (some o) = .ok v := by
  rcases h with ⟨n, hn, rfl, rfl⟩ | ⟨ref, p, rfl, hp, rfl⟩
  · exact addressOperand_imm t cur hn
  · exact addressOperand_label hp

theorem op_even_of_kind {mn : Mnemonic} {op : BitVec 6} (h : mn.kind = .mem op) : op.getLsbD 0 = false := by
  cases mn <;> cases h
  all_goals rfl

/-- The word of a memory reference as a number, for an opcode with bit 12 clear. -/
theorem memWord_eq_ofNat {op : BitVec 6} (h : op.getLsbD 0 = false) (i : Bool) (y : Addr) :
    memWord op i y = BitVec.ofNat 18 (op.toNat * 4096 + (if i then 0o010000 else 0) + y.toNat) := by
  have heven : op.toNat / 2 * 8192 = op.toNat * 4096 := by
    have hbit : op.toNat % 2 = 0 := by
      simpa [Nat.testBit_zero] using (show op.toNat.testBit 0 = false from h)
    omega
  rw [← refWord_eq_memWord, refWord, heven]

/-- Each mnemonic has its instruction's opcode. -/
theorem kind_of_assembledReference : ∀ p ∈ assembledReferences, ∃ op : BitVec 6, p.1.kind = .mem op ∧
    ∀ (i : Bool) (y : Addr), encode (p.2 i y) = memWord op i y ∧ (p.2 i y).wf = true := by
  unfold assembledReferences
  repeat refine List.forall_mem_cons.2 ⟨⟨_, rfl, fun _ _ => ⟨rfl, rfl⟩⟩, ?_⟩
  exact nofun

theorem encodeInstr_of_mem {t : LabelTable} {cur : Nat} {o : Option Operand} {v : Addr} {mn : Mnemonic} {op : BitVec 6}
    (hk : mn.kind = .mem op) (h : addressOperand t cur o = .ok v) (amp : Bool) :
    encodeInstr t cur mn amp o = .ok (memWord op amp v) := by
  simp only [encodeInstr, hk, encodeMem_ok op amp h]

/-- Without an address there is no word, and the operand's error is reported; of cal with the mark, the same error. -/
theorem encodeInstr_of_no_address {t : LabelTable} {cur : Nat} {o : Option Operand} {mn : Mnemonic}
    (h : addressOperand t cur o = .error .invalidOperand)
    (hmn : mn = .cal ∨ mn = .jda ∨ ∃ c, (mn, c) ∈ assembledReferences) (amp : Bool) :
    encodeInstr t cur mn amp o = .error .invalidOperand := by
  have hmem : ∀ op i, encodeMem t cur op i o = .error .invalidOperand := fun op i => by simp only [encodeMem, h]
  rcases hmn with rfl | rfl | ⟨c, hc⟩
  · cases amp
    · exact hmem 0o16 false
    · rfl
  · exact hmem 0o16 true
  · obtain ⟨op, hk, -⟩ := kind_of_assembledReference _ hc
    simp only [encodeInstr, hk, hmem]

theorem addressOperand_out_of_range (t : LabelTable) (cur : Nat) {n : Int} (h : n < 0 ∨ 511 < n) :
    addressOperand t cur (some (.imm n)) = .error .invalidOperand := if_neg (by omega)

/-- Settles O60, from the address of the operand, the word of the format, and the decoder's round trip. -/
theorem assembledReferencesDecode : Obligations.AssembledReferencesDecode := by
  refine ⟨fun t cur o v ho => ?_, fun t cur mn amp hmn => ⟨fun w hw => ?_, fun n hn => ?_⟩⟩
  · have hv := addressOperand_of_addresses ho
    refine ⟨fun mn op amp hk => ?fields, fun p hp amp => ?decodes, fun amp => ?jda, ?cal, rfl⟩
    case fields =>
      have heven := op_even_of_kind hk
      obtain ⟨-, hbit, hy⟩ := fields_memWord op heven amp v
      exact ⟨_, encodeInstr_of_mem hk hv amp, memWord_eq_ofNat heven amp v, opNumber_memWord heven amp v, hbit, hy⟩
    case decodes =>
      obtain ⟨op, hk, hp⟩ := kind_of_assembledReference p hp
      obtain ⟨hw, hwf⟩ := hp amp v
      refine ⟨_, encodeInstr_of_mem hk hv amp, ?_⟩
      rw [← hw, decodeOfEncodeIsTheInstruction _ hwf]
    case jda => exact ⟨_, encodeMem_ok 0o16 true hv, decodeOfEncodeIsTheInstruction (.jda v) rfl⟩
    case cal => exact ⟨_, encodeMem_ok 0o16 false hv, decodeOfEncodeIsTheInstruction (.cal v) rfl⟩
  · rw [encodeInstr_of_no_address rfl hmn] at hw
    cases hw
  · exact encodeInstr_of_no_address (addressOperand_out_of_range t cur hn) hmn amp

end Sys2Proof.Machine
